-- ==== Sys2Proof/Word.lean ====
section
/-! DEFINITION. The words the manual treats as bits: a general register, the PC, a status register and
an address are 32 bits (spec/00_scope.md R4 `XLEN`); memory is addressed by the byte (R70); a Thumb
instruction is a halfword (R100). -/

namespace Sys2Proof

/-- One byte of memory (R70). -/
abbrev Byte := BitVec 8

/-- A Thumb instruction (R100). -/
abbrev Half := BitVec 16

/-- A register, a status register, an address, an ARM instruction (R4). -/
abbrev Word := BitVec 32

end Sys2Proof
end

