-- ==== Sys2Proof/Config.lean ====
section
/-! DEFINITION. What an implementation fixes, and the free values.

The parameters of spec/00_scope.md R4 are plain data (`Params`) that State carries and no step
changes, so a statement about every state holds for every value of every parameter (log 4).

The free values are opaque constants: nothing in Lean can evaluate one or prove a value of it. Most
are applied to State's draw counter (log 48), so that each use is a fresh value. -/

namespace Sys2Proof

/-- The faults the MMU raises (spec/20_memory.md R79). -/
inductive MmuFault where
  | alignment | translation | accessBit | domain | permission
  deriving DecidableEq, Repr, Inhabited

/-- What caused an abort that is taken (R78, R163): a fault of the MMU, a BKPT instruction, an external
abort signalled precisely, or an external abort signalled imprecisely. -/
inductive AbortSource where
  | mmu (f : MmuFault)
  | breakpoint
  | externalPrecise
  | externalImprecise
  deriving DecidableEq, Repr, Inhabited

/-- What the fault status register tells a handler (spec/10_state.md R40, R163). The source gives the
register neither a layout nor its encodings, so the model holds the cause itself (log 8). -/
inductive FaultStatus where
  | noAbort
  | prefetchAbort (src : AbortSource)
  | dataAbort (src : AbortSource)
  deriving DecidableEq, Repr, Inhabited

/-- The E bit after reset as a function of the pins BIGENDINIT and UBITINIT, written out as its four
values, since the source does not give the function (R4 `reset_EE`, C10). The first half of a field's
name is BIGENDINIT, the second UBITINIT. -/
structure EEOfPins where
  lowLow : Bool
  lowHigh : Bool
  highLow : Bool
  highHigh : Bool
  deriving DecidableEq, Repr

/-- The reset values of SCR[5:1] (R4 `reset_SCR`, D10). -/
structure ResetScr where
  irq : Bool
  fiq : Bool
  ea : Bool
  fw : Bool
  aw : Bool
  deriving DecidableEq, Repr

/-- The parameters of spec/00_scope.md R4 that a run keeps. -/
structure Params where
  /-- The pin BIGENDINIT is HIGH (R43). -/
  bigEndInit : Bool
  /-- The pin UBITINIT is HIGH (R43). -/
  ubitInit : Bool
  /-- The function of the two pins that fixes `reset_EE`. -/
  eeOfPins : EEOfPins
  /-- `reset_high_vectors`. -/
  resetHighVectors : Bool
  /-- `HighVectors(Non-secure)` after reset (R44, D10). -/
  resetHighVectorsNonSecure : Bool
  /-- `VE(Secure)` after reset (R44, D10). -/
  resetVeSecure : Bool
  /-- `VE(Non-secure)` after reset (R44, D10). -/
  resetVeNonSecure : Bool
  /-- `reset_SCR`. -/
  resetScr : ResetScr
  /-- `strict_alignment` (R73, D2). -/
  strictAlignment : Bool
  /-- `halting_debug_mode` (R163). -/
  haltingDebugMode : Bool
  /-- `low_latency_interruptible` (R248). -/
  lowLatencyInterruptible : Bool
  deriving DecidableEq, Repr

/-- A register the source leaves indeterminate (R8, R44), and the answer of a device whose environment
gave none (R81): any word. -/
opaque Config.freeWord : Nat → Word

/-- A free choice between two allowed outcomes (R190: a destination register is old or new). -/
opaque Config.freeBit : Nat → Bool

/-- The fault status register after a reset during a run (R44, R40). -/
opaque Config.freeFaultStatus : Nat → FaultStatus

/-- `imprecise_abort_return`: R14 at an imprecise Data Abort (R229, D9). -/
opaque Config.impreciseAbortReturn : Nat → Word

end Sys2Proof
end

