-- ==== Sys2Proof/Syntax.lean ====
section
/-! DEFINITION. The instructions: one constructor of `Instr` for each row of spec/opcode_table.json.
A field that the encoding admits at any value is admitted here at any value; `WellFormed` says which
combinations the spec gives a meaning. -/

namespace Sys2Proof

/-- The condition field of an ARM instruction but 0b1111 (spec/30_encoding.md R101). -/
inductive Cond where
  | eq | ne | cs | cc | mi | pl | vs | vc | hi | ls | ge | lt | gt | le | al
  deriving DecidableEq, Repr

/-- The four addressing modes of SRS, RFE, LDM and STM (R105). -/
inductive AddrMode where
  /-- increment after: P = 0, U = 1 -/
  | ia
  /-- increment before: P = 1, U = 1 -/
  | ib
  /-- decrement after: P = 0, U = 0 -/
  | da
  /-- decrement before: P = 1, U = 0 -/
  | db
  deriving DecidableEq, Repr

/-- The number of a general register, 0 to 15 (R20). -/
abbrev RegNum := Fin 16

/-- The instructions of spec/opcode_table.json, in its order. -/
inductive Instr where
  /-- `SRS<amode> R13_<mode>{!}` (R130). -/
  | srs (am : AddrMode) (wback : Bool) (mode : BitVec 5)
  /-- `RFE<amode> Rn{!}` (R131). -/
  | rfe (am : AddrMode) (wback : Bool) (rn : RegNum)
  /-- `CPS<effect> <flags>{, #mode}` (R132). -/
  | cps (imod : BitVec 2) (mmod a i f : Bool) (mode : BitVec 5)
  /-- `SVC #imm24` (R160). -/
  | svc (c : Cond) (imm24 : BitVec 24)
  /-- `SMC #imm16` (R162). -/
  | smc (c : Cond) (imm16 : BitVec 16)
  /-- `BKPT #imm16` (R163). -/
  | bkpt (imm16 : BitVec 16)
  /-- The permanently undefined pattern (R165). -/
  | udf (imm16 : BitVec 16)
  /-- `MOVS PC, R14` (R151). -/
  | movsPcLr (c : Cond)
  /-- `SUBS PC, R14, #4` (R152). -/
  | subsPcLr4 (c : Cond)
  /-- `SUBS PC, R14, #8` (R153). -/
  | subsPcLr8 (c : Cond)
  /-- `MRS Rd, CPSR` or, with `r`, `MRS Rd, SPSR` (R186). -/
  | mrs (c : Cond) (r : Bool) (rd : RegNum)
  /-- `MSR CPSR_<fields>, Rm` or, with `r`, `MSR SPSR_<fields>, Rm` (R187). -/
  | msr (c : Cond) (r : Bool) (fields : BitVec 4) (rm : RegNum)
  /-- `MOV Rd, Rm` (R181). -/
  | mov (c : Cond) (rd rm : RegNum)
  /-- `ADD Rd, Rn, #imm` (R182). -/
  | add (c : Cond) (rd rn : RegNum) (rot : BitVec 4) (imm8 : BitVec 8)
  /-- `SUB Rd, Rn, #imm` (R183). -/
  | sub (c : Cond) (rd rn : RegNum) (rot : BitVec 4) (imm8 : BitVec 8)
  /-- `ORR Rd, Rn, #imm` (R185). -/
  | orr (c : Cond) (rd rn : RegNum) (rot : BitVec 4) (imm8 : BitVec 8)
  /-- `BIC Rd, Rn, #imm` (R184). -/
  | bic (c : Cond) (rd rn : RegNum) (rot : BitVec 4) (imm8 : BitVec 8)
  /-- `LDR Rd, [Rn, #imm12]`; `up` is U (R188). -/
  | ldr (c : Cond) (up : Bool) (rd rn : RegNum) (imm12 : BitVec 12)
  /-- `STR Rd, [Rn, #imm12]`; `up` is U (R189). -/
  | str (c : Cond) (up : Bool) (rd rn : RegNum) (imm12 : BitVec 12)
  /-- `LDM<amode> Rn{!}, <list>` (R190). -/
  | ldm (c : Cond) (am : AddrMode) (wback : Bool) (rn : RegNum) (list : BitVec 16)
  /-- `STM<amode> Rn{!}, <list>` (R191). -/
  | stm (c : Cond) (am : AddrMode) (wback : Bool) (rn : RegNum) (list : BitVec 16)
  /-- Thumb `CPSIE` (`im` = 0) or `CPSID` (`im` = 1) of the flags (R133). -/
  | cpsThumb (im a i f : Bool)
  /-- Thumb `SVC #imm8` (R161). -/
  | svcThumb (imm8 : BitVec 8)
  /-- Thumb `BKPT #imm8` (R164). -/
  | bkptThumb (imm8 : BitVec 8)
  /-- The permanently undefined Thumb pattern (R166). -/
  | udfThumb (imm8 : BitVec 8)
  deriving DecidableEq, Repr

/-- Whether an instruction is one of the four Thumb rows, 16 bits long (R100, R103). -/
def Instr.isThumb : Instr → Bool
  | .cpsThumb .. | .svcThumb .. | .bkptThumb .. | .udfThumb .. => true
  | .srs .. | .rfe .. | .cps .. | .svc .. | .smc .. | .bkpt .. | .udf .. | .movsPcLr .. | .subsPcLr4 ..
  | .subsPcLr8 .. | .mrs .. | .msr .. | .mov .. | .add .. | .sub .. | .orr .. | .bic .. | .ldr .. | .str ..
  | .ldm .. | .stm .. => false

end Sys2Proof
end

