-- ==== Sys2Proof/Decode.lean ====
section
/-! DEFINITION. The decoder and the encoder (spec/30_encoding.md, spec/opcode_table.json). Every bit
pattern here is PRESUMED: the spec marks all of them as general knowledge (log 30).

The decoder is total: any bytes give an instruction or a refusal with a name. It takes every word that
a row's mask and match admit, whatever its fields hold; a field combination that R107 reserves is
stopped by the meaning, not here (log 31). -/

namespace Sys2Proof

/-- Why a word is no instruction of this spec (R106, R107, R193: refused by name, never Undefined). -/
inductive DecodeError where
  /-- Not the number of bytes the execution state asks for (R100). -/
  | wrongLength
  /-- Condition 0b1111 and neither SRS, RFE nor CPS (R106). -/
  | unconditionalNotInTable
  /-- An ARM word that no row admits (R106, R193). -/
  | armNotInTable
  /-- A Thumb halfword that no row admits (R106, R193). -/
  | thumbNotInTable
  /-- A (0) or (1) bit of R102 or R103 with the other value (R107). -/
  | reservedBits
  /-- BKPT with a condition other than always (R107). -/
  | breakpointCondition
  /-- The permanently undefined pattern with a condition other than always (R165, D11). -/
  | undefinedCondition
  /-- `MOVS PC` or `SUBS PC` in a form that R156 does not admit. -/
  | otherReturnForm
  /-- A load or store word with another P, B or W than R102 admits (R193). -/
  | loadStoreForm
  /-- A load or store multiple with S = 1 (R156, R193). -/
  | multipleWithS
  deriving DecidableEq, Repr

/-- What the decoder answers. -/
inductive Decoded where
  | instr (i : Instr)
  | refused (e : DecodeError)
  deriving DecidableEq, Repr

/-- The condition field (R101). -/
def Cond.toBits : Cond → BitVec 4
  | .eq => 0b0000 | .ne => 0b0001 | .cs => 0b0010 | .cc => 0b0011
  | .mi => 0b0100 | .pl => 0b0101 | .vs => 0b0110 | .vc => 0b0111
  | .hi => 0b1000 | .ls => 0b1001 | .ge => 0b1010 | .lt => 0b1011
  | .gt => 0b1100 | .le => 0b1101 | .al => 0b1110

/-- The condition a field names; 0b1111 names none (R101). -/
def Cond.ofBits? (b : BitVec 4) : Option Cond :=
  match b.toNat with
  | 0 => some .eq | 1 => some .ne | 2 => some .cs | 3 => some .cc
  | 4 => some .mi | 5 => some .pl | 6 => some .vs | 7 => some .vc
  | 8 => some .hi | 9 => some .ls | 10 => some .ge | 11 => some .lt
  | 12 => some .gt | 13 => some .le | 14 => some .al
  | _ => none

/-- The P bit of an addressing mode (R105). -/
def AddrMode.p : AddrMode → Bool
  | .ia | .da => false
  | .ib | .db => true

/-- The U bit of an addressing mode (R105). -/
def AddrMode.u : AddrMode → Bool
  | .ia | .ib => true
  | .da | .db => false

/-- The addressing mode of P and U (R105). -/
def AddrMode.ofPU (p u : Bool) : AddrMode :=
  match p, u with
  | false, true => .ia
  | true, true => .ib
  | false, false => .da
  | true, false => .db

/-- A word that a row's mask and match admit. -/
def fits (w mask val : Word) : Bool := (w &&& mask) == val

/-- A halfword that a row's mask and match admit. -/
def fitsHalf (h mask val : Half) : Bool := (h &&& mask) == val

/-- `bits[lo + len - 1 : lo]` of an ARM word (R5). -/
def field (w : Word) (lo len : Nat) : BitVec len := w.extractLsb' lo len

/-- The register number in a four-bit field. -/
def regField (w : Word) (lo : Nat) : RegNum := (field w lo 4).toFin

/-- The addressing mode in bits 24 and 23 (R105). -/
def addrModeField (w : Word) : AddrMode := .ofPU (w.getLsbD 24) (w.getLsbD 23)

/-- `imm16` of SMC, BKPT and UDF (R104). -/
def imm16Field (w : Word) : BitVec 16 := field w 8 12 ++ field w 0 4

/-- The unconditional space: SRS, RFE, CPS (R106). -/
def decodeUnconditional (w : Word) : Decoded :=
  if fits w 0xFE5FFFE0 0xF84D0500 then
    .instr (.srs (addrModeField w) (w.getLsbD 21) (field w 0 5))
  else if fits w 0xFE50FFFF 0xF8100A00 then
    .instr (.rfe (addrModeField w) (w.getLsbD 21) (regField w 16))
  else if fits w 0xFFF1FE20 0xF1000000 then
    .instr (.cps (field w 18 2) (w.getLsbD 17) (w.getLsbD 8) (w.getLsbD 7) (w.getLsbD 6) (field w 0 5))
  else if fits w 0xFE5F0F00 0xF84D0500 || fits w 0xFE500F00 0xF8100A00 || fits w 0xFFF10020 0xF1000000 then
    .refused .reservedBits
  else
    .refused .unconditionalNotInTable

/-- The name for a conditional word that no row admits (R107, R193). -/
def conditionalError (w : Word) : DecodeError :=
  if fits w 0x0FF000F0 0x01200070 then .breakpointCondition
  else if fits w 0x0FF000F0 0x07F000F0 then .undefinedCondition
  else if fits w 0x0FFFFFF0 0x01B0F000 || fits w 0x0FF0F000 0x0250F000 then .otherReturnForm
  else if fits w 0x0FF00FF0 0x01A00000 then .reservedBits
  else if fits w 0x0E000000 0x04000000 then .loadStoreForm
  else if fits w 0x0E400000 0x08400000 then .multipleWithS
  else .armNotInTable

/-- The conditional space, in the order of R106. -/
def decodeConditional (c : Cond) (w : Word) : Decoded :=
  if fits w 0x0F000000 0x0F000000 then .instr (.svc c (field w 0 24))
  else if fits w 0x0FF000F0 0x01600070 then .instr (.smc c (imm16Field w))
  else if fits w 0xFFF000F0 0xE1200070 then .instr (.bkpt (imm16Field w))
  else if fits w 0xFFF000F0 0xE7F000F0 then .instr (.udf (imm16Field w))
  else if fits w 0x0FBF0FFF 0x010F0000 then .instr (.mrs c (w.getLsbD 22) (regField w 12))
  else if fits w 0x0FB0FFF0 0x0120F000 then .instr (.msr c (w.getLsbD 22) (field w 16 4) (regField w 0))
  else if fits w 0x0FFFFFFF 0x01B0F00E then .instr (.movsPcLr c)
  else if fits w 0x0FFFFFFF 0x025EF004 then .instr (.subsPcLr4 c)
  else if fits w 0x0FFFFFFF 0x025EF008 then .instr (.subsPcLr8 c)
  else if fits w 0x0FFF0FF0 0x01A00000 then .instr (.mov c (regField w 12) (regField w 0))
  else if fits w 0x0FF00000 0x02800000 then
    .instr (.add c (regField w 12) (regField w 16) (field w 8 4) (field w 0 8))
  else if fits w 0x0FF00000 0x02400000 then
    .instr (.sub c (regField w 12) (regField w 16) (field w 8 4) (field w 0 8))
  else if fits w 0x0FF00000 0x03800000 then
    .instr (.orr c (regField w 12) (regField w 16) (field w 8 4) (field w 0 8))
  else if fits w 0x0FF00000 0x03C00000 then
    .instr (.bic c (regField w 12) (regField w 16) (field w 8 4) (field w 0 8))
  else if fits w 0x0F700000 0x05100000 then
    .instr (.ldr c (w.getLsbD 23) (regField w 12) (regField w 16) (field w 0 12))
  else if fits w 0x0F700000 0x05000000 then
    .instr (.str c (w.getLsbD 23) (regField w 12) (regField w 16) (field w 0 12))
  else if fits w 0x0E500000 0x08100000 then
    .instr (.ldm c (addrModeField w) (w.getLsbD 21) (regField w 16) (field w 0 16))
  else if fits w 0x0E500000 0x08000000 then
    .instr (.stm c (addrModeField w) (w.getLsbD 21) (regField w 16) (field w 0 16))
  else .refused (conditionalError w)

/-- An ARM word: the condition field first (R106). -/
def decodeArm (w : Word) : Decoded :=
  match Cond.ofBits? (field w 28 4) with
  | none => decodeUnconditional w
  | some c => decodeConditional c w

/-- A Thumb halfword (R103, R106). -/
def decodeThumb (h : Half) : Decoded :=
  if fitsHalf h 0xFFE8 0xB660 then .instr (.cpsThumb (h.getLsbD 4) (h.getLsbD 2) (h.getLsbD 1) (h.getLsbD 0))
  else if fitsHalf h 0xFF00 0xDF00 then .instr (.svcThumb (h.extractLsb' 0 8))
  else if fitsHalf h 0xFF00 0xBE00 then .instr (.bkptThumb (h.extractLsb' 0 8))
  else if fitsHalf h 0xFF00 0xDE00 then .instr (.udfThumb (h.extractLsb' 0 8))
  else if fitsHalf h 0xFFE0 0xB660 then .refused .reservedBits
  else .refused .thumbNotInTable

/-- The instruction in the bytes fetched, lowest address first: instruction bytes are little-endian
whatever CPSR.E holds (spec/20_memory.md R72), and CPSR.T alone gives the length (R100). -/
def decode (thumb : Bool) (bytes : List Byte) : Decoded :=
  match thumb, bytes with
  | false, [b0, b1, b2, b3] => decodeArm (b3 ++ b2 ++ b1 ++ b0)
  | true, [b0, b1] => decodeThumb (b1 ++ b0)
  | _, _ => .refused .wrongLength

/-- The encoding of an instruction: one ARM word or one Thumb halfword (R100). -/
inductive Encoding where
  | arm (w : Word)
  | thumb (h : Half)
  deriving DecidableEq, Repr

/-- The bytes of an encoding as memory holds them (R72). -/
def Encoding.bytes : Encoding → List Byte
  | .arm w => [w.extractLsb' 0 8, w.extractLsb' 8 8, w.extractLsb' 16 8, w.extractLsb' 24 8]
  | .thumb h => [h.extractLsb' 0 8, h.extractLsb' 8 8]

/-- One bit of an encoding. -/
def flag (b : Bool) : BitVec 1 := BitVec.ofBool b

/-- A register number as its field. -/
def regBits (n : RegNum) : BitVec 4 := BitVec.ofFin n

/-- Format A-DPI with S = 0 (R102). -/
def encodeDpi (c : Cond) (opcode : BitVec 4) (rd rn : RegNum) (rot : BitVec 4) (imm8 : BitVec 8) : Word :=
  c.toBits ++ 0b001#3 ++ opcode ++ 0#1 ++ regBits rn ++ regBits rd ++ rot ++ imm8

/-- Format A-LS with P = 1, B = 0, W = 0 (R102). -/
def encodeLs (c : Cond) (up load : Bool) (rd rn : RegNum) (imm12 : BitVec 12) : Word :=
  c.toBits ++ 0b0101#4 ++ flag up ++ 0b00#2 ++ flag load ++ regBits rn ++ regBits rd ++ imm12

/-- Format A-LSM with S = 0 (R102). -/
def encodeLsm (c : Cond) (am : AddrMode) (wback load : Bool) (rn : RegNum) (list : BitVec 16) : Word :=
  c.toBits ++ 0b100#3 ++ flag am.p ++ flag am.u ++ 0#1 ++ flag wback ++ flag load ++ regBits rn ++ list

/-- The encoding of an instruction, field by field from the formats of R102 and R103. -/
def encode : Instr → Encoding
  | .srs am wback mode =>
    .arm (0b1111100#7 ++ flag am.p ++ flag am.u ++ 1#1 ++ flag wback ++ 0#1 ++ 0b1101#4 ++ 0b0000#4 ++ 0b0101#4 ++
      0b000#3 ++ mode)
  | .rfe am wback rn =>
    .arm (0b1111100#7 ++ flag am.p ++ flag am.u ++ 0#1 ++ flag wback ++ 1#1 ++ regBits rn ++ 0b0000#4 ++
      0b1010#4 ++ 0b00000000#8)
  | .cps imod mmod a i f mode =>
    .arm (0b111100010000#12 ++ imod ++ flag mmod ++ 0#1 ++ 0b0000000#7 ++ flag a ++ flag i ++ flag f ++ 0#1 ++ mode)
  | .svc c imm24 => .arm (c.toBits ++ 0b1111#4 ++ imm24)
  | .smc c imm16 =>
    .arm (c.toBits ++ 0b00010110#8 ++ imm16.extractLsb' 4 12 ++ 0b0111#4 ++ imm16.extractLsb' 0 4)
  | .bkpt imm16 => .arm (0b1110#4 ++ 0b00010010#8 ++ imm16.extractLsb' 4 12 ++ 0b0111#4 ++ imm16.extractLsb' 0 4)
  | .udf imm16 => .arm (0b1110#4 ++ 0b01111111#8 ++ imm16.extractLsb' 4 12 ++ 0b1111#4 ++ imm16.extractLsb' 0 4)
  | .movsPcLr c => .arm (c.toBits ++ 0b0001101#7 ++ 1#1 ++ 0b0000#4 ++ 0b1111#4 ++ 0b00000000#8 ++ 0b1110#4)
  | .subsPcLr4 c => .arm (c.toBits ++ 0b0010010#7 ++ 1#1 ++ 0b1110#4 ++ 0b1111#4 ++ 0b0000#4 ++ 4#8)
  | .subsPcLr8 c => .arm (c.toBits ++ 0b0010010#7 ++ 1#1 ++ 0b1110#4 ++ 0b1111#4 ++ 0b0000#4 ++ 8#8)
  | .mrs c r rd => .arm (c.toBits ++ 0b00010#5 ++ flag r ++ 0b00#2 ++ 0b1111#4 ++ regBits rd ++ 0b000000000000#12)
  | .msr c r fields rm =>
    .arm (c.toBits ++ 0b00010#5 ++ flag r ++ 0b10#2 ++ fields ++ 0b1111#4 ++ 0b00000000#8 ++ regBits rm)
  | .mov c rd rm => .arm (c.toBits ++ 0b0001101#7 ++ 0#1 ++ 0b0000#4 ++ regBits rd ++ 0b00000000#8 ++ regBits rm)
  | .add c rd rn rot imm8 => .arm (encodeDpi c 0b0100 rd rn rot imm8)
  | .sub c rd rn rot imm8 => .arm (encodeDpi c 0b0010 rd rn rot imm8)
  | .orr c rd rn rot imm8 => .arm (encodeDpi c 0b1100 rd rn rot imm8)
  | .bic c rd rn rot imm8 => .arm (encodeDpi c 0b1110 rd rn rot imm8)
  | .ldr c up rd rn imm12 => .arm (encodeLs c up true rd rn imm12)
  | .str c up rd rn imm12 => .arm (encodeLs c up false rd rn imm12)
  | .ldm c am wback rn list => .arm (encodeLsm c am wback true rn list)
  | .stm c am wback rn list => .arm (encodeLsm c am wback false rn list)
  | .cpsThumb im a i f => .thumb (0b10110110011#11 ++ flag im ++ 0#1 ++ flag a ++ flag i ++ flag f)
  | .svcThumb imm8 => .thumb (0b11011111#8 ++ imm8)
  | .bkptThumb imm8 => .thumb (0b10111110#8 ++ imm8)
  | .udfThumb imm8 => .thumb (0b11011110#8 ++ imm8)

/-- The rotations and bytes of which an A-DPI immediate is made (R104): the first pair, by rotation, whose
value is `v`. -/
def dpiImmediate? (v : Word) : Option (BitVec 4 × BitVec 8) :=
  (List.range 16).findSome? fun r =>
    let byte := v.rotateLeft (2 * r)
    if byte.toNat < 256 then some (BitVec.ofNat 4 r, BitVec.ofNat 8 byte.toNat) else none

/-- The expansion of the pseudo-instruction `ADR Rd, label` at address `pc` (R109, R192); none when the
distance is no A-DPI immediate. "When the difference is non-negative" is read on the 32-bit addresses as
numbers: the label does not lie below `pc + 8`. -/
def expandAdr (c : Cond) (rd : RegNum) (pc label : Word) : Option Instr :=
  let base := pc + 8
  if base.toNat ≤ label.toNat then
    (dpiImmediate? (label - base)).map fun (rot, imm8) => .add c rd 15 rot imm8
  else
    (dpiImmediate? (base - label)).map fun (rot, imm8) => .sub c rd 15 rot imm8

/-- What the decoder reads from an instruction whose bits are `w`, laid out in memory order. A row of 16
bits is a Thumb halfword, a row of 32 bits an ARM word (R100). -/
def decodeTableWord (nbits w : Nat) : Option Instr :=
  let byte (k : Nat) : Byte := BitVec.ofNat 8 (w / 2 ^ (8 * k))
  let answer : Decoded :=
    if nbits = 16 then decode true [byte 0, byte 1]
    else if nbits = 32 then decode false [byte 0, byte 1, byte 2, byte 3]
    else .refused .wrongLength
  match answer with
  | .instr i => some i
  | .refused _ => none

end Sys2Proof
end

