-- ==== Sys2Proof/Machine/State.lean ====
section
/-! DEFINITION. The state of the machine as plain data: everything spec/10_state.md and
spec/60_exceptions.md name, the environment's schedule, and the model's own draw counter. INVENTORY.md's
"## State" lists every field with its rule and its reset value. -/

namespace Sys2Proof.Machine

/-- The processor modes (spec/10_state.md R26). -/
inductive Mode where
  | user | fiq | irq | supervisor | monitor | abort | undefined | system
  deriving DecidableEq, Repr

/-- The banks of R13 and R14: User and System share `usr` (R21). -/
inductive Bank where
  | usr | svc | abt | und | irq | fiq | mon
  deriving DecidableEq, Repr

/-- A physical general register other than the PC (R21 to R23). -/
inductive PhysReg where
  /-- R0 to R12 as every mode but FIQ sees them -/
  | shared (n : Fin 13)
  /-- R8_fiq to R12_fiq, numbered from 0 -/
  | fiqHigh (n : Fin 5)
  /-- R13 of a bank -/
  | sp (b : Bank)
  /-- R14 of a bank -/
  | lr (b : Bank)
  deriving DecidableEq, Repr

/-- One word for each bank (R21). -/
structure Banked where
  usr : Word
  svc : Word
  abt : Word
  und : Word
  irq : Word
  fiq : Word
  mon : Word
  deriving DecidableEq, Repr

/-- The general registers but the PC (R20 to R22). -/
structure RegFile where
  /-- R0 to R12 -/
  shared : Vector Word 13
  /-- R8_fiq to R12_fiq -/
  fiqHigh : Vector Word 5
  /-- R13 -/
  sp : Banked
  /-- R14 -/
  lr : Banked
  deriving DecidableEq, Repr

/-- The saved program status registers; User and System mode have none (R32). They are whole words: an
MSR may leave a word there that is no CPSR. -/
structure SavedPsrs where
  svc : Word
  abt : Word
  und : Word
  irq : Word
  fiq : Word
  mon : Word
  deriving DecidableEq, Repr

/-- The CPSR by its fields (R25). Its mode field always names a mode: R26 calls any other CPSR
UNPREDICTABLE, and what would write one is refused (log 29). Reserved bits are kept. -/
structure Psr where
  /-- bit 31 -/
  n : Bool
  /-- bit 30 -/
  z : Bool
  /-- bit 29 -/
  c : Bool
  /-- bit 28 -/
  v : Bool
  /-- bit 27 -/
  q : Bool
  /-- bits 26 and 25, reserved -/
  reserved26 : BitVec 2
  /-- bit 24, Jazelle state -/
  j : Bool
  /-- bits 23 to 20, reserved -/
  reserved23 : BitVec 4
  /-- bits 19 to 16 -/
  ge : BitVec 4
  /-- bits 15 to 10, reserved -/
  reserved15 : BitVec 6
  /-- bit 9, data byte order -/
  e : Bool
  /-- bit 8, masks imprecise Data Aborts -/
  a : Bool
  /-- bit 7, masks IRQ -/
  i : Bool
  /-- bit 6, masks FIQ -/
  f : Bool
  /-- bit 5, Thumb state -/
  t : Bool
  /-- bits 4 to 0 -/
  mode : Mode
  deriving DecidableEq, Repr

/-- The security worlds (R41). -/
inductive World where
  | secure | nonSecure
  deriving DecidableEq, Repr

/-- The fields of the Secure Configuration Register that the source gives, bits 0 to 5 in order (R35). -/
structure Scr where
  ns : Bool
  irq : Bool
  fiq : Bool
  ea : Bool
  fw : Bool
  aw : Bool
  deriving DecidableEq, Repr

/-- One world's copy of the Control Register fields that are held per world (R36, R4). -/
structure ControlBits where
  /-- EE, bit 25 -/
  ee : Bool
  /-- "high vectors configured" -/
  highVectors : Bool
  /-- VE: the IRQ vector is `IRQADDR` -/
  ve : Bool
  deriving DecidableEq, Repr

/-- The level of a signal (R43). -/
inductive Level where
  | low | high
  deriving DecidableEq, Repr

/-- The two interrupt requests (R240, R241). -/
inductive Interrupt where
  | irq | fiq
  deriving DecidableEq, Repr

/-- What stops a multi-access instruction part-way: an interrupt request (R248) or reset (R300). -/
inductive MidSource where
  | interrupt (x : Interrupt)
  | reset
  deriving DecidableEq, Repr

/-- What is signalled inside a multi-access instruction, after so many of its accesses (R75, R248, R300): reset, and
the levels of the two interrupt requests, any of them together (R237). -/
structure MidEvent where
  reset : Bool
  /-- the register of nFIQ at that point -/
  fiqReg : Level
  /-- the register of nIRQ at that point -/
  irqReg : Level
  afterAccesses : Nat
  deriving DecidableEq, Repr

/-- The signals last sampled (R43, R45). -/
structure Signals where
  nRESETIN : Level
  nVFPRESETIN : Level
  /-- the register of nFIQ -/
  fiqReg : Level
  /-- the register of nIRQ -/
  irqReg : Level
  irqAddr : Word
  midEvent : Option MidEvent
  deriving DecidableEq, Repr

/-- The kinds of memory access the abort oracle tells apart (R85). -/
inductive AccessType where
  | fetch | read | write
  deriving DecidableEq, Repr

/-- Why an address aborts (R78, R79): a fault of the MMU, an external abort on a page table walk, or an AXI
error response to the access itself. -/
inductive AbortCause where
  | mmu (f : MmuFault)
  | tableWalk
  | axiError
  deriving DecidableEq, Repr

/-- Addresses `lo` to `hi`, both included. -/
structure Span where
  lo : Nat
  hi : Nat
  deriving DecidableEq, Repr

/-- One row of the abort oracle: which addresses, accesses, privileges and worlds, and the cause (R85). -/
structure AbortRegion where
  span : Span
  onFetch : Bool
  onRead : Bool
  onWrite : Bool
  inUser : Bool
  inPrivileged : Bool
  inSecure : Bool
  inNonSecure : Bool
  cause : AbortCause
  deriving DecidableEq, Repr

/-- What the platform's address map says (R77, R79, R80, R87). An access takes the first abort row it
matches. -/
structure MemoryMap where
  aborts : List AbortRegion
  stronglyOrdered : List Span
  devices : List Span
  deriving DecidableEq, Repr

/-- What devices and the VIC see of the core (R75, R87, R242). -/
inductive BusEvent where
  | deviceRead (addr answer : Word)
  | deviceWrite (addr value : Word)
  /-- an instruction fetched from a device; the answer is a word, of which Thumb state takes the low half -/
  | deviceFetch (addr answer : Word)
  | vicAcknowledge (vector : Word)
  deriving DecidableEq, Repr

/-- The three vector base registers (R38). -/
inductive BaseRegister where
  | nonSecure | secure | monitor
  deriving DecidableEq, Repr

/-- A write that software makes to a system control register, or a barrier, by an instruction the spec does
not describe: the abstract event of spec/91_not_in_source.md N8 and N21 (log 14, log 15, log 16). -/
inductive ControlWrite where
  | scr (v : Scr)
  | controlBits (w : World) (v : ControlBits)
  | base (r : BaseRegister) (v : Word)
  /-- a write of FI; `inSequence` when it stands between the two barriers of R303 -/
  | fi (v inSequence : Bool)
  /-- a Data Synchronization Barrier (R82) -/
  | barrier
  deriving DecidableEq, Repr

/-- What the environment presents at one instruction boundary (R43, log 10). -/
structure Boundary where
  signals : Signals
  /-- how many held external errors of earlier accesses are reported now (R85, D16, log 20) -/
  errorReports : Nat
  control : Option ControlWrite
  /-- the map from now on (the abort handler's repair of a page, R246) -/
  newMap : Option MemoryMap
  deriving DecidableEq, Repr

/-- The machine's state. -/
structure State where
  regs : RegFile
  /-- the address of the instruction to be executed next (R7, R24) -/
  pc : Word
  cpsr : Psr
  spsr : SavedPsrs
  scr : Scr
  /-- FI, one copy for both worlds (R36) -/
  fi : Bool
  /-- I and F have been set at every boundary since reset: the time "shortly after Reset, while interrupts are
  disabled" in which FI may change (R303, U9, log 15) -/
  fiWindow : Bool
  secureCtrl : ControlBits
  nonSecureCtrl : ControlBits
  nonSecureBase : Word
  secureBase : Word
  monitorBase : Word
  faultStatus : FaultStatus
  /-- `ImpreciseAbortPending` (R46) -/
  abortPending : Bool
  /-- external errors of completed accesses that are not reported yet (R47) -/
  bufferedErrors : Nat
  /-- the reset pins were LOW and have not come back (R300) -/
  inReset : Bool
  signals : Signals
  /-- the boundaries to come; when none is left the signals keep their levels -/
  inputs : List Boundary
  /-- memory's bytes but those that are 0, by rising address (log 3) -/
  mem : List Host.Cell
  /-- the addresses stored to by instructions, rising (R84) -/
  stored : List Nat
  map : MemoryMap
  /-- what device reads and fetches will answer (R81) -/
  deviceAnswers : List Word
  /-- oldest first -/
  busLog : List BusEvent
  params : Params
  /-- the model's own: how many free values have been drawn (log 48) -/
  draws : Nat
  deriving DecidableEq, Repr

/-- The machine stops outside any instruction's form. -/
inductive Fault where
  /-- Raised by the fetch: an ARM instruction address that is not a multiple of 4, or a Thumb one that is
  not a multiple of 2 (R73, U32). Safe: the spec gives such a fetch no effect. -/
  | fetchMisaligned
  /-- Raised by the fetch: a byte of the instruction was stored by an instruction (R84, U33). Safe: the
  spec says whether the store is seen for no case. -/
  | fetchStored
  /-- Raised by every instruction that goes on to the next one: the address after it passes 0xFFFFFFFF
  (R24, D12, U29). Safe: whether it wraps is not in the source. -/
  | pastTop
  /-- Raised at a boundary: only one of nRESETIN and nVFPRESETIN is LOW (R300, N16). Safe. -/
  | resetPinsApart
  deriving DecidableEq, Repr

/-- The machine refuses what the spec gives no meaning. All are safe: the model stops where the hardware may
go on. -/
inductive Refusal where
  /-- Raised by `exec` for a row that has no meaning yet. Safe. -/
  | notModelled (mnemonic : String)
  /-- Raised by the step: the bytes fetched are no instruction of the table (R106, R193). Safe. -/
  | notInTable (e : DecodeError)
  /-- Raised by SRS, MRS, MSR and the returns in User or System mode, which have no SPSR (U19, U24). Safe. -/
  | noSpsr
  /-- Raised where a number that is none of the eight modes would be written to CPSR.M or is named by SRS
  (U21, U23). Safe. -/
  | notAMode
  /-- Raised by SRS that names User or System mode (R107, U23, log 33). Safe. -/
  | srsUserBank
  /-- Raised where the Non-secure world would enter Secure Monitor mode by a write of CPSR.M (R33 (e), U21).
  Safe. -/
  | monitorFromNonSecure
  /-- Raised where CPSR.J would become 1, and by the fetch when it is (R27, R167, U22). Safe. -/
  | jazelleState
  /-- Raised by RFE in User mode (U20). Safe. -/
  | rfeInUserMode
  /-- Raised by RFE, LDM and STM with R15 as base (U20, U25). Safe. -/
  | baseIsPc
  /-- Raised by CPS with a reserved combination of fields (R107, U23). Safe. -/
  | reservedFields
  /-- Raised by STR of R15 (R189, U26). Safe. -/
  | storesPc
  /-- Raised by MOV, ADD, SUB, BIC, ORR and MRS with R15 as destination (R180 (d), R186, U24). Safe. -/
  | destinationIsPc
  /-- Raised by MSR to the CPSR in a privileged mode with T or J set in a written byte (R187, U24). Safe. -/
  | stateBitsWritten
  /-- Raised by LDM and STM with an empty list or with R15 in it (U25). Safe. -/
  | registerList
  /-- Raised by LDM and STM with write-back when the base is in the list, for STM unless it is the lowest
  (U25). Safe. -/
  | baseInList
  /-- Raised by LDR to the PC of a word whose bits [1:0] are 0b10 (R188, U26). Safe. -/
  | loadedPcBits
  /-- Raised by a data access that is not word aligned when `strict_alignment` is false (R73, D2). Safe. -/
  | unalignedData
  /-- Raised by BKPT in Halting debug-mode (R163, U11). Safe. -/
  | debugState
  /-- Raised at a boundary by an abstract change of FI outside the sequence of R303, or later than shortly after
  reset (U9). Safe. -/
  | fiOutOfSequence
  /-- Raised by every step when the pins select the legacy word-invariant big-endian configuration (R71).
  Safe. -/
  | legacyBigEndian
  deriving DecidableEq, Repr

/-- Seven words of zero (log 1). -/
def Banked.zero : Banked := ⟨0, 0, 0, 0, 0, 0, 0⟩

/-- The parameters in `State.reset` (log 4): low vectors, both pins LOW, little-endian, the defaults of
spec/00_scope.md R4 for the rest. -/
def resetParams : Params where
  bigEndInit := false
  ubitInit := false
  eeOfPins := ⟨false, false, false, false⟩
  resetHighVectors := false
  resetHighVectorsNonSecure := false
  resetVeSecure := false
  resetVeNonSecure := false
  resetScr := ⟨false, false, false, false, false⟩
  strictAlignment := true
  haltingDebugMode := false
  lowLatencyInterruptible := true

/-- The machine right after reset (R44, R301): Supervisor mode, Secure world, ARM state, A, I and F set, the
PC at the reset vector, memory untouched. What the source leaves indeterminate holds the value its log
entry names (logs 1 to 9). -/
def State.reset : State where
  regs :=
    { shared := Vector.replicate 13 0, fiqHigh := Vector.replicate 5 0, sp := Banked.zero, lr := Banked.zero }
  pc := 0x00000000
  cpsr :=
    { n := false, z := false, c := false, v := false, q := false, reserved26 := 0, j := false, reserved23 := 0
      ge := 0, reserved15 := 0, e := false, a := true, i := true, f := true, t := false, mode := .supervisor }
  spsr := ⟨0, 0, 0, 0, 0, 0⟩
  scr := ⟨false, false, false, false, false, false⟩
  fi := false
  fiWindow := true
  secureCtrl := ⟨false, false, false⟩
  nonSecureCtrl := ⟨false, false, false⟩
  nonSecureBase := 0
  secureBase := 0
  monitorBase := 0
  faultStatus := .noAbort
  abortPending := false
  bufferedErrors := 0
  inReset := false
  signals :=
    { nRESETIN := .high, nVFPRESETIN := .high, fiqReg := .high, irqReg := .high, irqAddr := 0, midEvent := none }
  inputs := []
  mem := []
  stored := []
  map := ⟨[], [], []⟩
  deviceAnswers := []
  busLog := []
  params := resetParams
  draws := 0

end Sys2Proof.Machine
end

