-- ==== Sys2Proof/Machine/Flags.lean ====
section
/-! DEFINITION. The status registers: mode numbers, the CPSR as a word, the condition field, and the
computation of MSR. No instruction of this spec computes a condition flag (spec/43_support_instructions.md
R180 (e)); the flags are read by conditions and written whole. -/

namespace Sys2Proof.Machine

/-- CPSR.M of a mode (spec/10_state.md R26). -/
def Mode.toBits : Mode → BitVec 5
  | .user => 0b10000
  | .fiq => 0b10001
  | .irq => 0b10010
  | .supervisor => 0b10011
  | .monitor => 0b10110
  | .abort => 0b10111
  | .undefined => 0b11011
  | .system => 0b11111

/-- The mode a number names; any other number is none (R26). -/
def Mode.ofBits? (b : BitVec 5) : Option Mode :=
  match b.toNat with
  | 0x10 => some .user
  | 0x11 => some .fiq
  | 0x12 => some .irq
  | 0x13 => some .supervisor
  | 0x16 => some .monitor
  | 0x17 => some .abort
  | 0x1B => some .undefined
  | 0x1F => some .system
  | _ => none

/-- The CPSR as the 32-bit word of R25. -/
def Psr.toWord (p : Psr) : Word :=
  flag p.n ++ flag p.z ++ flag p.c ++ flag p.v ++ flag p.q ++ p.reserved26 ++ flag p.j ++ p.reserved23 ++ p.ge ++
    p.reserved15 ++ flag p.e ++ flag p.a ++ flag p.i ++ flag p.f ++ flag p.t ++ p.mode.toBits

/-- The CPSR with mode `m` whose other bits are those of `w` (R25). -/
def Psr.withMode (w : Word) (m : Mode) : Psr where
  n := w.getLsbD 31
  z := w.getLsbD 30
  c := w.getLsbD 29
  v := w.getLsbD 28
  q := w.getLsbD 27
  reserved26 := w.extractLsb' 25 2
  j := w.getLsbD 24
  reserved23 := w.extractLsb' 20 4
  ge := w.extractLsb' 16 4
  reserved15 := w.extractLsb' 10 6
  e := w.getLsbD 9
  a := w.getLsbD 8
  i := w.getLsbD 7
  f := w.getLsbD 6
  t := w.getLsbD 5
  mode := m

/-- The CPSR a word is; none when its mode field names no mode (R26). -/
def Psr.ofWord? (w : Word) : Option Psr :=
  (Mode.ofBits? (w.extractLsb' 0 5)).map (Psr.withMode w)

/-- Whether the condition holds on the flags (spec/30_encoding.md R101). -/
def condHolds (c : Cond) (p : Psr) : Bool :=
  match c with
  | .eq => p.z
  | .ne => !p.z
  | .cs => p.c
  | .cc => !p.c
  | .mi => p.n
  | .pl => !p.n
  | .vs => p.v
  | .vc => !p.v
  | .hi => p.c && !p.z
  | .ls => !p.c || p.z
  | .ge => p.n == p.v
  | .lt => p.n != p.v
  | .gt => !p.z && p.n == p.v
  | .le => p.z || p.n != p.v
  | .al => true

/-- The bits that `field_mask` selects: bit 0 is c, 1 is x, 2 is s, 3 is f (R104, R187). -/
def byteMask (fields : BitVec 4) : Word :=
  (if fields.getLsbD 0 then 0x000000FF else 0) ||| (if fields.getLsbD 1 then 0x0000FF00 else 0) |||
    (if fields.getLsbD 2 then 0x00FF0000 else 0) ||| (if fields.getLsbD 3 then 0xFF000000 else 0)

/-- N, Z, C, V, Q, GE, E: what MSR may write in any mode (R187). -/
def userMask : Word := 0xF80F0200

/-- A, I, F and M: what MSR may write to the CPSR in a privileged mode only (R187). -/
def privMask : Word := 0x000001DF

/-- J and T: what MSR may write to an SPSR only (R187). -/
def stateMask : Word := 0x01000020

/-- The bits of `old` outside `mask` and those of `new` inside it. -/
def merge (mask old new : Word) : Word := (old &&& ~~~mask) ||| (new &&& mask)

end Sys2Proof.Machine
end

