-- ==== Sys2Proof/Machine/Ops.lean ====
section
/-! DEFINITION. The named operations that every meaning is written over: modes, worlds and banked registers
(spec/10_state.md); memory, the abort oracle and the two memory primitives (spec/20_memory.md R85); taking
an exception (spec/60_exceptions.md R223) and returning from one (spec/41_exception_return.md R150). -/

namespace Sys2Proof.Machine

/-! ## Modes, banks, worlds -/

/-- The bank of R13 and R14 that a mode selects (R21, R23). -/
def Mode.bank : Mode → Bank
  | .user | .system => .usr
  | .supervisor => .svc
  | .abort => .abt
  | .undefined => .und
  | .irq => .irq
  | .fiq => .fiq
  | .monitor => .mon

/-- Every mode but User is privileged (R42). -/
def Mode.privileged (m : Mode) : Bool := m ≠ .user

/-- Every mode but User and System has an SPSR (R32). -/
def Mode.hasSpsr (m : Mode) : Bool := m ≠ .user && m ≠ .system

/-- `World()`: Secure when NS = 0 or in Secure Monitor mode (R41). -/
def State.world (s : State) : World :=
  if s.scr.ns && s.cpsr.mode ≠ .monitor then .nonSecure else .secure

/-- The Control Register copy of a world (R36). -/
def State.control (s : State) (w : World) : ControlBits :=
  match w with
  | .secure => s.secureCtrl
  | .nonSecure => s.nonSecureCtrl

/-- Whether CPSR.A may change in this world (R29): in the Secure world always, else when SCR.AW = 1. -/
def State.mayChangeA (s : State) : Bool := s.world = .secure || s.scr.aw

/-- Whether CPSR.F may change in this world (R28): in the Secure world always, else when SCR.FW = 1. -/
def State.mayChangeF (s : State) : Bool := s.world = .secure || s.scr.fw

/-- The Interrupt Status Register as a view: pending IRQ, pending FIQ, pending External Abort, whatever the
masks (R39, R251). Its layout is not in the source. -/
def State.interruptStatus (s : State) : Bool × Bool × Bool :=
  (s.signals.irqReg = .low, s.signals.fiqReg = .low, s.abortPending)

/-! ## Registers -/

def Banked.get (x : Banked) : Bank → Word
  | .usr => x.usr
  | .svc => x.svc
  | .abt => x.abt
  | .und => x.und
  | .irq => x.irq
  | .fiq => x.fiq
  | .mon => x.mon

def Banked.set (x : Banked) (b : Bank) (v : Word) : Banked :=
  match b with
  | .usr => { x with usr := v }
  | .svc => { x with svc := v }
  | .abt => { x with abt := v }
  | .und => { x with und := v }
  | .irq => { x with irq := v }
  | .fiq => { x with fiq := v }
  | .mon => { x with mon := v }

/-- The physical register of R6's `R_<mode>[n]`. -/
def RegFile.get (x : RegFile) : PhysReg → Word
  | .shared n => x.shared[n]
  | .fiqHigh n => x.fiqHigh[n]
  | .sp b => x.sp.get b
  | .lr b => x.lr.get b

def RegFile.set (x : RegFile) (p : PhysReg) (v : Word) : RegFile :=
  match p with
  | .shared n => { x with shared := x.shared.set n v }
  | .fiqHigh n => { x with fiqHigh := x.fiqHigh.set n v }
  | .sp b => { x with sp := x.sp.set b v }
  | .lr b => { x with lr := x.lr.set b v }

/-- The SPSR of a bank; `usr` has none (R32). -/
def SavedPsrs.get? (x : SavedPsrs) : Bank → Option Word
  | .usr => none
  | .svc => some x.svc
  | .abt => some x.abt
  | .und => some x.und
  | .irq => some x.irq
  | .fiq => some x.fiq
  | .mon => some x.mon

/-- Writes the SPSR of a bank; there is none to write for `usr`. -/
def SavedPsrs.set (x : SavedPsrs) (b : Bank) (v : Word) : SavedPsrs :=
  match b with
  | .usr => x
  | .svc => { x with svc := v }
  | .abt => { x with abt := v }
  | .und => { x with und := v }
  | .irq => { x with irq := v }
  | .fiq => { x with fiq := v }
  | .mon => { x with mon := v }

/-- Register selection (R23): the physical register that number `n` denotes in mode `m`; 15 is the PC. -/
def physReg (m : Mode) (n : RegNum) : Option PhysReg :=
  if h : n.val < 8 then some (.shared ⟨n.val, by omega⟩)
  else if h : n.val < 13 then
    if m = .fiq then some (.fiqHigh ⟨n.val - 8, by omega⟩) else some (.shared ⟨n.val, h⟩)
  else if n = 13 then some (.sp m.bank)
  else if n = 14 then some (.lr m.bank)
  else none

/-- `R[n]` in the current mode; for 15 the address of the instruction (R6, R7, R23). -/
def State.reg (s : State) (n : RegNum) : Word :=
  match physReg s.cpsr.mode n with
  | some p => s.regs.get p
  | none => s.pc

/-- `R[n] <- v` in the current mode (R6, R23). -/
def State.setReg (s : State) (n : RegNum) (v : Word) : State :=
  match physReg s.cpsr.mode n with
  | some p => { s with regs := s.regs.set p v }
  | none => { s with pc := v }

/-- R14 of the current mode. -/
def State.lr (s : State) : Word := s.regs.lr.get s.cpsr.mode.bank

/-- The SPSR of the current mode; none in User and System mode (R32). -/
def State.curSpsr (s : State) : Option Word := s.spsr.get? s.cpsr.mode.bank

/-! ## The next instruction -/

/-- Goes on to the instruction `len` bytes further; passing the top of memory stops the machine (R24, D12). -/
def advance (len : Nat) (s : State) : Host.Outcome State Fault Refusal :=
  if s.pc.toNat + len < 2 ^ 32 then .next { s with pc := s.pc + BitVec.ofNat 32 len } else .fault .pastTop

/-- An ARM instruction under its condition: when the condition fails it only advances the PC and raises no
exception (R101). -/
def conditional (c : Cond) (s : State) (body : State → Host.Outcome State Fault Refusal) :
    Host.Outcome State Fault Refusal :=
  if condHolds c s.cpsr then body s else advance 4 s

/-! ## Memory cells

A list of (address, byte) pairs, addresses strictly rising, no byte 0: an unlisted address reads as 0
(DESIGN CHOICE, log 3). -/

/-- What an address that memory does not list reads as (log 3). -/
def unlistedByte : Byte := 0

/-- The byte at an address. -/
def readByte : List Host.Cell → Nat → Byte
  | [], _ => unlistedByte
  | (k, v) :: rest, a => if k = a then v else readByte rest a

/-- Memory with the byte at `a` being `b`, in canonical form again. -/
def writeByte : List Host.Cell → Nat → Byte → List Host.Cell
  | [], a, b => if b = unlistedByte then [] else [(a, b)]
  | (k, v) :: rest, a, b =>
    if a < k then (if b = unlistedByte then (k, v) :: rest else (a, b) :: (k, v) :: rest)
    else if a = k then (if b = unlistedByte then rest else (a, b) :: rest)
    else (k, v) :: writeByte rest a b

/-- The canonical form: addresses strictly rising and below 2^32, no unlisted byte listed. -/
def Memory.wf : List Host.Cell → Bool
  | [] => true
  | (k, v) :: rest =>
    k < 2 ^ 32 && v ≠ unlistedByte && (rest.head?.all fun c => k < c.1) && Memory.wf rest

/-- A rising list of addresses with `a` added. -/
def insertAddr : List Nat → Nat → List Nat
  | [], a => [a]
  | k :: rest, a => if a < k then a :: k :: rest else if a = k then k :: rest else k :: insertAddr rest a

/-- The canonical form of the set of stored addresses: strictly rising and below 2^32. -/
def storedWf : List Nat → Bool
  | [] => true
  | k :: rest => k < 2 ^ 32 && (rest.head?.all fun a => k < a) && storedWf rest

/-- The address of byte `k` of an access at `a`. -/
def byteAddr (a : Word) (k : Nat) : Nat := (a + BitVec.ofNat 32 k).toNat

/-- The word in memory at `a` in the byte order `big` (R71). -/
def memWord (mem : List Host.Cell) (big : Bool) (a : Word) : Word :=
  let b (k : Nat) : Byte := readByte mem (byteAddr a k)
  if big then b 0 ++ b 1 ++ b 2 ++ b 3 else b 3 ++ b 2 ++ b 1 ++ b 0

/-- The byte of `v` that a word access puts at its address + `k` in the byte order `big` (R71). -/
def wordByte (big : Bool) (v : Word) (k : Nat) : Byte :=
  v.extractLsb' (8 * (if big then 3 - k else k)) 8

/-- Memory with the word `v` at `a` in the byte order `big` (R71). -/
def memSetWord (mem : List Host.Cell) (big : Bool) (a v : Word) : List Host.Cell :=
  let put (m : List Host.Cell) (k : Nat) := writeByte m (byteAddr a k) (wordByte big v k)
  put (put (put (put mem 0) 1) 2) 3

/-- The stored addresses with the four of the word at `a` (R84). -/
def storedSetWord (stored : List Nat) (a : Word) : List Nat :=
  insertAddr (insertAddr (insertAddr (insertAddr stored (byteAddr a 0)) (byteAddr a 1)) (byteAddr a 2)) (byteAddr a 3)

/-! ## The abort oracle -/

/-- Whether an access of `n` bytes at `a` touches the addresses of the span. -/
def touches (x : Span) (a : Word) (n : Nat) : Bool := x.lo ≤ a.toNat + (n - 1) && a.toNat ≤ x.hi

/-- Whether a row of the oracle applies to an access made now: addresses, access type, privilege, world
(R85). -/
def AbortRegion.applies (r : AbortRegion) (s : State) (ty : AccessType) (a : Word) (n : Nat) : Bool :=
  touches r.span a n &&
    (match ty with | .fetch => r.onFetch | .read => r.onRead | .write => r.onWrite) &&
    (if s.cpsr.mode.privileged then r.inPrivileged else r.inUser) &&
    (match s.world with | .secure => r.inSecure | .nonSecure => r.inNonSecure)

/-- The cause for which an access made now aborts, if it does: the first row that applies (R85, log 17). -/
def State.abortCause (s : State) (ty : AccessType) (a : Word) (n : Nat) : Option AbortCause :=
  (s.map.aborts.find? fun r => r.applies s ty a n).map (·.cause)

/-- Whether the address is Strongly Ordered memory (R80). -/
def State.stronglyOrderedAt (s : State) (a : Word) (n : Nat) : Bool := s.map.stronglyOrdered.any fun x => touches x a n

/-- Whether the address is a device (R87). -/
def State.deviceAt (s : State) (a : Word) (n : Nat) : Bool := s.map.devices.any fun x => touches x a n

/-- Whether an AXI error response to a data access is a precise abort (R78): a load with FI = 1, an access to
Strongly Ordered memory, a load to the PC or the CPSR. -/
def State.externalIsPrecise (s : State) (ty : AccessType) (toPcOrPsr : Bool) (a : Word) : Bool :=
  match ty with
  | .read => s.fi || toPcOrPsr || s.stronglyOrderedAt a 4
  | .write | .fetch => s.stronglyOrderedAt a 4

/-- The precise abort that a data access of a word gets, or none when the access completes (R78). -/
def State.dataAbort (s : State) (ty : AccessType) (toPcOrPsr : Bool) (a : Word) : Option AbortSource :=
  match s.abortCause ty a 4 with
  | none => none
  | some (.mmu f) => some (.mmu f)
  | some .tableWalk => some .externalPrecise
  | some .axiError => if s.externalIsPrecise ty toPcOrPsr a then some .externalPrecise else none

/-- The state after an access that completed: an AXI error response that R78 classes as imprecise is now held
until the environment reports it (R46, R47, R85). -/
def State.noteImprecise (s : State) (ty : AccessType) (toPcOrPsr : Bool) (a : Word) : State :=
  if s.abortCause ty a 4 = some .axiError ∧ s.externalIsPrecise ty toPcOrPsr a = false then
    { s with bufferedErrors := s.bufferedErrors + 1 }
  else s

/-! ## The memory primitives (R85) -/

/-- What a data access comes to: it completes with a value, takes a precise abort, or has no meaning. -/
inductive Access (α : Type) where
  | done (v : α) (s : State)
  | abort (src : AbortSource) (s : State)
  | refused (r : Refusal)

/-- Whether the word address is a multiple of 4 (R73). -/
def wordAligned (a : Word) : Bool := a.extractLsb' 0 2 = 0

/-- A misaligned data access (R73, D2). -/
def misaligned (s : State) (α : Type) : Access α :=
  if s.params.strictAlignment then .abort (.mmu .alignment) s else .refused .unalignedData

/-- What a device answers (R81, R87): the environment's next answer, or any word when it gives none (log 21). -/
def deviceAnswer (s : State) : Word × State :=
  match s.deviceAnswers with
  | v :: rest => (v, { s with deviceAnswers := rest })
  | [] => (Config.freeWord s.draws, { s with draws := s.draws + 1 })

/-- A device's answer to a read, and what the bus saw (R81, R87). DESIGN CHOICE (log 34): the answer is the word
that the register receives, whatever CPSR.E holds. The source gives no byte lanes of the bus. -/
def deviceRead (s : State) (a : Word) : Word × State :=
  let (v, s) := deviceAnswer s
  (v, { s with busLog := s.busLog ++ [.deviceRead a v] })

/-- `MemRead(a, 4)` (R85). `toPcOrPsr` says that the word goes to the PC or the CPSR (R78). -/
def readWord (toPcOrPsr : Bool) (a : Word) (s : State) : Access Word :=
  if wordAligned a then
    match s.dataAbort .read toPcOrPsr a with
    | some src => .abort src s
    | none =>
      let s := s.noteImprecise .read toPcOrPsr a
      if s.deviceAt a 4 then
        let (v, s) := deviceRead s a
        .done v s
      else .done (memWord s.mem s.cpsr.e a) s
  else misaligned s Word

/-- `MemWrite(a, 4, v)` (R85). Every store is remembered, to memory or to a device (R84); a store to a device is seen
on the bus (R87). DESIGN CHOICE (log 34): the bus sees the register's word, whatever CPSR.E holds; the byte lanes, which E may
reorder (R30, R71), are not modelled. -/
def writeWord (a v : Word) (s : State) : Access Unit :=
  if wordAligned a then
    match s.dataAbort .write false a with
    | some src => .abort src s
    | none =>
      let s := s.noteImprecise .write false a
      let stored := storedSetWord s.stored a
      if s.deviceAt a 4 then .done () { s with stored := stored, busLog := s.busLog ++ [.deviceWrite a v] }
      else .done () { s with mem := memSetWord s.mem s.cpsr.e a v, stored := stored }
  else misaligned s Unit

/-- What reading several words comes to: all of them, the words read before one that aborts (R76), or no
meaning. -/
inductive Loads where
  | done (vs : List Word) (s : State)
  | abort (src : AbortSource) (got : List Word) (s : State)
  | refused (r : Refusal)

/-- Reads the words at the addresses in order (R76). -/
def readWords (toPcOrPsr : Bool) : List Word → State → Loads
  | [], s => .done [] s
  | a :: rest, s =>
    match readWord toPcOrPsr a s with
    | .done v s =>
      match readWords toPcOrPsr rest s with
      | .done vs s => .done (v :: vs) s
      | .abort src got s => .abort src (v :: got) s
      | .refused r => .refused r
    | .abort src s => .abort src [] s
    | .refused r => .refused r

/-- The (address, word) pairs written in order; the words before the one that aborts stay written (R76). -/
def writeWords : List (Word × Word) → State → Access Unit
  | [], s => .done () s
  | (a, v) :: rest, s =>
    match writeWord a v s with
    | .done _ s => writeWords rest s
    | .abort src s => .abort src s
    | .refused r => .refused r

/-! ## Taking an exception -/

/-- The exceptions of R223. -/
inductive Exception where
  | undefined
  | svc
  | smc
  | prefetchAbort (src : AbortSource)
  | dataAbort (src : AbortSource)
  | irq
  | fiq
  deriving DecidableEq, Repr

/-- Whether an abort is external, hence routed by SCR.EA (R244, R250); a BKPT is not (D7). -/
def abortIsExternal : AbortSource → Bool
  | .externalPrecise | .externalImprecise => true
  | .mmu _ | .breakpoint => false

/-- The mode entered when the exception is not routed to Secure Monitor mode (R220). -/
def Exception.mode : Exception → Mode
  | .undefined => .undefined
  | .svc => .supervisor
  | .smc => .monitor
  | .prefetchAbort _ | .dataAbort _ => .abort
  | .irq => .irq
  | .fiq => .fiq

/-- The vector offset (R220, R236). -/
def Exception.offset : Exception → Word
  | .undefined => 0x04
  | .svc | .smc => 0x08
  | .prefetchAbort _ => 0x0C
  | .dataAbort _ => 0x10
  | .irq => 0x18
  | .fiq => 0x1C

/-- Whether the exception goes to Secure Monitor mode: SMC always, an IRQ, an FIQ or an external abort when
SCR[3:1] routes it (R223 `mon`, R250). -/
def Exception.toMonitor (x : Exception) (scr : Scr) : Bool :=
  match x with
  | .smc => true
  | .irq => scr.irq
  | .fiq => scr.fiq
  | .prefetchAbort src | .dataAbort src => abortIsExternal src && scr.ea
  | .undefined | .svc => false

/-- `Vector(x, mon, w)` (R236). -/
def vector (x : Exception) (mon : Bool) (w : World) (s : State) : Word :=
  if mon then s.monitorBase + x.offset
  else if x = .irq && (s.control w).ve then s.signals.irqAddr
  else if (s.control w).highVectors then 0xFFFF0000 + x.offset
  else match w with
    | .secure => s.secureBase + x.offset
    | .nonSecure => s.nonSecureBase + x.offset

/-- The CPSR that an entry leaves (R223): to Secure Monitor mode, or to the exception's own mode in world
`w`. `mayA` and `mayF` say whether the world lets an entry set A and F. -/
def entryPsr (x : Exception) (mon : Bool) (ee mayA mayF : Bool) (old : Psr) : Psr :=
  if mon then
    { old with mode := .monitor, t := false, j := false, i := true, f := true, a := true, e := ee }
  else
    { old with
      mode := x.mode, t := false, j := false, i := true, e := ee
      f := (if x = .fiq && mayF then true else old.f)
      a := (if (x.mode = .abort || x.mode = .irq || x.mode = .fiq) && mayA then true else old.a) }

/-- What the fault status register holds after the entry: the cause, if the entry is an abort (R40, log 8). -/
def entryFaultStatus (x : Exception) (old : FaultStatus) : FaultStatus :=
  match x with
  | .prefetchAbort src => .prefetchAbort src
  | .dataAbort src => .dataAbort src
  | .undefined | .svc | .smc | .irq | .fiq => old

/-- What the bus sees of an entry: a vectored IRQ is acknowledged to the VIC (R242, log 22). -/
def entryBusLog (x : Exception) (mon : Bool) (w : World) (s : State) : List BusEvent :=
  if x = .irq && !mon && (s.control w).ve then s.busLog ++ [.vicAcknowledge s.signals.irqAddr] else s.busLog

/-- The state in which an entry made in Secure Monitor mode begins: SCR.NS cleared (R235). -/
def leaveNonSecure (s : State) : State :=
  if s.cpsr.mode = .monitor then { s with scr := { s.scr with ns := false } } else s

/-- `Entry(x, ret)`, taking an exception (R223): the return address and the old CPSR saved in the mode
entered, the mode, state, mask and byte order bits of the CPSR forced, the PC at the vector. -/
def takeException (x : Exception) (ret : Word) (s : State) : State :=
  let s := leaveNonSecure s
  let w := s.world
  let mon := x.toMonitor s.scr
  let m := if mon then Mode.monitor else x.mode
  let ee := if mon then s.secureCtrl.ee else (s.control w).ee
  { s with
    regs := s.regs.set (.lr m.bank) ret
    spsr := s.spsr.set m.bank s.cpsr.toWord
    cpsr := entryPsr x mon ee s.mayChangeA s.mayChangeF s.cpsr
    faultStatus := entryFaultStatus x s.faultStatus
    busLog := entryBusLog x mon w s
    pc := vector x mon w s }

/-- The exception an interrupt request raises. -/
def Interrupt.exception : Interrupt → Exception
  | .irq => .irq
  | .fiq => .fiq

/-- The interrupt to be taken when the two interrupt registers are at these levels: FIQ before IRQ, each when it is LOW
and its mask clear (R28, R237, R240, R241). -/
def unmaskedRequest (fiqReg irqReg : Level) (s : State) : Option Interrupt :=
  if fiqReg = .low && !s.cpsr.f then some .fiq
  else if irqReg = .low && !s.cpsr.i then some .irq
  else none

/-- The entry of an interrupt: the instruction at `pc` was not executed, and R14 is `pc + 4` in every
execution state (R222). -/
def takeInterrupt (x : Interrupt) (s : State) : State := takeException x.exception (s.pc + 4) s

/-- The entry of a precise Data Abort: R14 is `pc + 8` in every execution state (R222). -/
def takeDataAbort (src : AbortSource) (s : State) : State := takeException (.dataAbort src) (s.pc + 8) s

/-! ## Returning from an exception -/

/-- The CPSR that a return or RFE leaves when it loads the word `w` (R33 (b), (e), R155): in the Non-secure
world A is kept when SCR.AW = 0 and F when SCR.FW = 0. No CPSR with J = 1 (R27), with a number that is no mode
(R26), or, from the Non-secure world, in Secure Monitor mode. -/
def restoredPsr (s : State) (w : Word) : Except Refusal Psr :=
  match Psr.ofWord? w with
  | none => .error .notAMode
  | some p =>
    if p.j then .error .jazelleState
    else if s.world = .nonSecure && p.mode = .monitor then .error .monitorFromNonSecure
    else .ok { p with
      a := (if s.mayChangeA then p.a else s.cpsr.a)
      f := (if s.mayChangeF then p.f else s.cpsr.f) }

/-- The return from an exception (R150): the SPSR of the current mode becomes the CPSR and `result` the PC, in
one step. -/
def exceptionReturn (result : Word) (s : State) : Host.Outcome State Fault Refusal :=
  match s.curSpsr with
  | none => .refused .noSpsr
  | some w =>
    match restoredPsr s w with
    | .error r => .refused r
    | .ok p => .next { s with cpsr := p, pc := result }

/-! ## Multi-access instructions -/

/-- What the event stops the instruction for, by the priorities of R237: reset, at any time (R300), before an
unmasked FIQ, before an unmasked IRQ, these only with FI = 1 and where the implementation does so (R248). -/
def MidEvent.stops (m : MidEvent) (s : State) : Option MidSource :=
  if m.reset then some .reset
  else if s.fi && s.params.lowLatencyInterruptible then (unmaskedRequest m.fiqReg m.irqReg s).map .interrupt
  else none

/-- What stops a multi-access instruction of `n` accesses part-way, and after how many of them. -/
def State.cut (s : State) (n : Nat) : Option (MidSource × Nat) :=
  match s.signals.midEvent with
  | none => none
  | some m => if m.afterAccesses ≤ n then (m.stops s).map fun x => (x, m.afterAccesses) else none

/-- The interrupt registers at the levels signalled inside the instruction (R45, log 37). -/
def sampleMidEvent (s : State) : State :=
  match s.signals.midEvent with
  | none => s
  | some m => { s with signals := { s.signals with fiqReg := m.fiqReg, irqReg := m.irqReg } }

/-- The state after a multi-access instruction was stopped part-way: the interrupt is taken with the instruction
counted as not executed (R75, R248), or the machine is held in reset (R300). -/
def stopPartWay (m : MidSource) (s : State) : State :=
  match m with
  | .interrupt x => takeInterrupt x (sampleMidEvent s)
  | .reset => { s with inReset := true }

/-- A multi-access store: the accesses in order, then `finish`. Stopped part-way it counts as not executed
(R75); when a word aborts, the words before it stay written and the base keeps its value
(R76, R246). -/
def multiStore (accesses : List (Word × Word)) (s : State) (finish : State → Host.Outcome State Fault Refusal) :
    Host.Outcome State Fault Refusal :=
  match s.cut accesses.length with
  | some (x, k) =>
    match writeWords (accesses.take k) s with
    | .done _ s => .next (stopPartWay x s)
    | .abort src s => .next (takeDataAbort src s)
    | .refused r => .refused r
  | none =>
    match writeWords accesses s with
    | .done _ s => finish s
    | .abort src s => .next (takeDataAbort src s)
    | .refused r => .refused r

/-- A multi-access load: the words in order, then `finish` on them. When it stops part-way, `spoil` is what may
have become of its destinations (R190, R246). -/
def multiLoad (toPcOrPsr : Bool) (addrs : List Word) (s : State) (spoil : List Word → State → State)
    (finish : List Word → State → Host.Outcome State Fault Refusal) : Host.Outcome State Fault Refusal :=
  match s.cut addrs.length with
  | some (x, k) =>
    match readWords toPcOrPsr (addrs.take k) s with
    | .done vs s => .next (stopPartWay x (spoil vs s))
    | .abort src got s => .next (takeDataAbort src (spoil got s))
    | .refused r => .refused r
  | none =>
    match readWords toPcOrPsr addrs s with
    | .done vs s => finish vs s
    | .abort src got s => .next (takeDataAbort src (spoil got s))
    | .refused r => .refused r

end Sys2Proof.Machine
end

