-- ==== Sys2Proof/Machine/Operands.lean ====
section
/-! DEFINITION. The operand forms: registers with R15 as `pc + 8`, the rotated immediate, the offset address, the
four addressing modes, register lists (spec/30_encoding.md R104, R105; spec/43_support_instructions.md
R180). All PRESUMED: the spec marks them as general knowledge (log 50). -/

namespace Sys2Proof.Machine

/-- A register read as an operand in ARM state: R15 reads as `pc + 8` (R180 (a)). -/
def operand (n : RegNum) (s : State) : Word := if n = 15 then s.pc + 8 else s.reg n

/-- `imm32` of format A-DPI: the byte rotated right by twice the rotation field (R104). -/
def imm32 (rot : BitVec 4) (imm8 : BitVec 8) : Word := (imm8.setWidth 32).rotateRight (2 * rot.toNat)

/-- The address of LDR and STR: base plus or minus the offset (R104). -/
def offsetAddress (up : Bool) (base : Word) (imm12 : BitVec 12) : Word :=
  if up then base + imm12.setWidth 32 else base - imm12.setWidth 32

/-- The lowest address a transfer of `k` words uses (R105). -/
def lowestAddress (am : AddrMode) (base : Word) (k : Nat) : Word :=
  match am with
  | .ia => base
  | .ib => base + 4
  | .da => base - BitVec.ofNat 32 (4 * k) + 4
  | .db => base - BitVec.ofNat 32 (4 * k)

/-- The base after write-back (R105). -/
def writtenBack (am : AddrMode) (base : Word) (k : Nat) : Word :=
  match am with
  | .ia | .ib => base + BitVec.ofNat 32 (4 * k)
  | .da | .db => base - BitVec.ofNat 32 (4 * k)

/-- `k` word addresses upwards from `low`. -/
def wordAddresses (low : Word) : Nat → List Word
  | 0 => []
  | k + 1 => low :: wordAddresses (low + 4) k

/-- The registers of a list, lowest first; R15 is never transferred here (R190, R191). -/
def listedRegs (list : BitVec 16) : List RegNum :=
  [0, 1, 2, 3, 4, 5, 6, 7, 8, 9, 10, 11, 12, 13, 14].filter fun n => list.getLsbD n.val

/-- Whether `rn` is the lowest register of the list (R191). -/
def isLowest (rn : RegNum) (list : BitVec 16) : Bool := (listedRegs list).head? = some rn

/-- The registers written with their words, in order (R190). -/
def setRegs : List (RegNum × Word) → State → State
  | [], s => s
  | (n, v) :: rest, s => setRegs rest (s.setReg n v)

/-- What may have become of the destinations of a load multiple that stopped part-way: of the registers whose
words had been read, each but the base holds its old or its new value (R190, R246, log 35). -/
def spoilRegs (base : RegNum) : List (RegNum × Word) → State → State
  | [], s => s
  | (n, v) :: rest, s =>
    let s' := if n ≠ base && Config.freeBit s.draws then s.setReg n v else s
    spoilRegs base rest { s' with draws := s'.draws + 1 }

end Sys2Proof.Machine
end

