-- ==== Sys2Proof/Machine/DataProcessing.lean ====
section
/-! DEFINITION. MOV, ADD, SUB, BIC and ORR with S = 0 (spec/43_support_instructions.md R181 to R185): no flag is
written; R15 as destination is refused. -/

namespace Sys2Proof.Machine

/-- A result into a register other than the PC, then the next instruction (R180 (d), (f)). -/
def writeResult (rd : RegNum) (v : Word) (s : State) : Host.Outcome State Fault Refusal :=
  if rd = 15 then .refused .destinationIsPc else advance 4 (s.setReg rd v)

/-- MOV (register) (R181). -/
def execMov (c : Cond) (rd rm : RegNum) (s : State) : Host.Outcome State Fault Refusal :=
  conditional c s fun s => writeResult rd (operand rm s) s

/-- ADD (immediate), modulo 2^32 (R182). -/
def execAdd (c : Cond) (rd rn : RegNum) (rot : BitVec 4) (imm8 : BitVec 8) (s : State) :
    Host.Outcome State Fault Refusal :=
  conditional c s fun s => writeResult rd (operand rn s + imm32 rot imm8) s

/-- SUB (immediate), modulo 2^32 (R183). -/
def execSub (c : Cond) (rd rn : RegNum) (rot : BitVec 4) (imm8 : BitVec 8) (s : State) :
    Host.Outcome State Fault Refusal :=
  conditional c s fun s => writeResult rd (operand rn s - imm32 rot imm8) s

/-- ORR (immediate) (R185). -/
def execOrr (c : Cond) (rd rn : RegNum) (rot : BitVec 4) (imm8 : BitVec 8) (s : State) :
    Host.Outcome State Fault Refusal :=
  conditional c s fun s => writeResult rd (operand rn s ||| imm32 rot imm8) s

/-- BIC (immediate) (R184). -/
def execBic (c : Cond) (rd rn : RegNum) (rot : BitVec 4) (imm8 : BitVec 8) (s : State) :
    Host.Outcome State Fault Refusal :=
  conditional c s fun s => writeResult rd (operand rn s &&& ~~~(imm32 rot imm8)) s

end Sys2Proof.Machine
end

