-- ==== Sys2Proof/Machine/ExceptionState.lean ====
section
/-! DEFINITION. The exception-handling instructions SRS, RFE and CPS
(spec/40_exception_handling_instructions.md R130 to R133). -/

namespace Sys2Proof.Machine

/-- SRS (R130): R14 and the SPSR of the current mode to two words that R13 of the NAMED mode addresses. Naming
Secure Monitor mode from the Non-secure world is an Undefined instruction. Naming User or System mode is
UNPREDICTABLE and refused (R107, U23, log 33). -/
def execSrs (am : AddrMode) (wback : Bool) (mode : BitVec 5) (s : State) : Host.Outcome State Fault Refusal :=
  match Mode.ofBits? mode with
  | none => .refused .notAMode
  | some m =>
    if s.world = .nonSecure && m = .monitor then .next (takeException .undefined (s.pc + 4) s)
    else
      match s.curSpsr with
      | none => .refused .noSpsr
      | some saved =>
        if m = .user ∨ m = .system then .refused .srsUserBank
        else
          let base := s.regs.get (.sp m.bank)
          let low := lowestAddress am base 2
          multiStore [(low, s.lr), (low + 4, saved)] s fun s =>
            advance 4 (if wback then { s with regs := s.regs.set (.sp m.bank) (writtenBack am base 2) } else s)

/-- RFE (R131): the PC and the CPSR from two words that `Rn` of the current mode addresses; the write-back goes
to the bank of the mode before the change. With T = 1 bit 0 of the loaded PC is ignored (log 41). -/
def execRfe (am : AddrMode) (wback : Bool) (rn : RegNum) (s : State) : Host.Outcome State Fault Refusal :=
  if s.cpsr.mode = .user then .refused .rfeInUserMode
  else if rn = 15 then .refused .baseIsPc
  else
    let base := s.reg rn
    multiLoad true (wordAddresses (lowestAddress am base 2) 2) s (fun _ s => s) fun vs s =>
      let newPc := vs.getD 0 0
      match restoredPsr s (vs.getD 1 0) with
      | .error r => .refused r
      | .ok p =>
        let s := if wback then s.setReg rn (writtenBack am base 2) else s
        .next { s with cpsr := p, pc := if p.t then newPc &&& 0xFFFFFFFE else newPc }

/-- The combinations of CPS that R107 reserves: `imod` = 0b01; neither a mask nor a mode change; mask letters
without a mask change; a mask change without mask letters; a mode number without a mode change. -/
def cpsReserved (imod : BitVec 2) (mmod a i f : Bool) (mode : BitVec 5) : Bool :=
  imod = 0b01 || (imod = 0b00 && !mmod) || (!imod.getLsbD 1 && (a || i || f)) ||
    (imod.getLsbD 1 && !(a || i || f)) || (!mmod && mode ≠ 0)

/-- The masks that CPS leaves when it gives the masks named by `a`, `i`, `f` the value `v`: A and F only where
the world may change them (R132, R28, R29). -/
def changeMasks (v a i f : Bool) (s : State) : Psr :=
  { s.cpsr with
    a := if a && s.mayChangeA then v else s.cpsr.a
    i := if i then v else s.cpsr.i
    f := if f && s.mayChangeF then v else s.cpsr.f }

/-- CPS in ARM state (R132): masks, mode, or both, together; in User mode no effect. -/
def execCps (imod : BitVec 2) (mmod a i f : Bool) (mode : BitVec 5) (s : State) :
    Host.Outcome State Fault Refusal :=
  if cpsReserved imod mmod a i f mode then .refused .reservedFields
  else if !s.cpsr.mode.privileged then advance 4 s
  else
    let p := if imod.getLsbD 1 then changeMasks (imod.getLsbD 0) a i f s else s.cpsr
    if mmod then
      match Mode.ofBits? mode with
      | none => .refused .notAMode
      | some m =>
        if s.world = .nonSecure && m = .monitor then .refused .monitorFromNonSecure
        else advance 4 { s with cpsr := { p with mode := m } }
    else advance 4 { s with cpsr := p }

/-- CPS in Thumb state (R133): the masks only; in User mode no effect. -/
def execCpsThumb (im a i f : Bool) (s : State) : Host.Outcome State Fault Refusal :=
  if !(a || i || f) then .refused .reservedFields
  else if !s.cpsr.mode.privileged then advance 2 s
  else advance 2 { s with cpsr := changeMasks im a i f s }

end Sys2Proof.Machine
end

