-- ==== Sys2Proof/Machine/Generating.lean ====
section
/-! DEFINITION. The instructions whose whole effect is an exception: SVC, SMC, BKPT and the undefined instruction
(spec/42_exception_generating.md R160 to R166). Their immediates have no effect on the processor. -/

namespace Sys2Proof.Machine

/-- A breakpoint in either state: a Prefetch Abort with R14 = `pc + 4`, internal, so never routed to Secure
Monitor mode (R163, R164, D7); in Halting debug-mode the core would enter Debug state, which the spec does
not describe. -/
def breakpoint (s : State) : Host.Outcome State Fault Refusal :=
  if s.params.haltingDebugMode then .refused .debugState
  else .next (takeException (.prefetchAbort .breakpoint) (s.pc + 4) s)

/-- SVC in ARM state (R160). -/
def execSvc (c : Cond) (_imm24 : BitVec 24) (s : State) : Host.Outcome State Fault Refusal :=
  conditional c s fun s => .next (takeException .svc (s.pc + 4) s)

/-- SMC (R162): in User mode an Undefined instruction. -/
def execSmc (c : Cond) (_imm16 : BitVec 16) (s : State) : Host.Outcome State Fault Refusal :=
  conditional c s fun s =>
    .next (takeException (if s.cpsr.mode = .user then .undefined else .smc) (s.pc + 4) s)

/-- BKPT in ARM state (R163). -/
def execBkpt (_imm16 : BitVec 16) (s : State) : Host.Outcome State Fault Refusal := breakpoint s

/-- The permanently undefined pattern in ARM state (R165). -/
def execUdf (_imm16 : BitVec 16) (s : State) : Host.Outcome State Fault Refusal :=
  .next (takeException .undefined (s.pc + 4) s)

/-- SVC in Thumb state (R161): the next instruction is at `pc + 2`. -/
def execSvcThumb (_imm8 : BitVec 8) (s : State) : Host.Outcome State Fault Refusal :=
  .next (takeException .svc (s.pc + 2) s)

/-- BKPT in Thumb state (R164): R14 is `pc + 4` here too, so that `SUBS PC, R14, #4` retries it. -/
def execBkptThumb (_imm8 : BitVec 8) (s : State) : Host.Outcome State Fault Refusal := breakpoint s

/-- The permanently undefined pattern in Thumb state (R166). -/
def execUdfThumb (_imm8 : BitVec 8) (s : State) : Host.Outcome State Fault Refusal :=
  .next (takeException .undefined (s.pc + 2) s)

end Sys2Proof.Machine
end

