-- ==== Sys2Proof/Machine/LoadStore.lean ====
section
/-! DEFINITION. LDR, STR, LDM and STM (spec/43_support_instructions.md R188 to R191). -/

namespace Sys2Proof.Machine

/-- A word loaded into the PC (R188): bit 0 selects Thumb state. -/
def loadPc (v : Word) (s : State) : Host.Outcome State Fault Refusal :=
  if v.extractLsb' 0 2 = 0b10 then .refused .loadedPcBits
  else .next { s with cpsr := { s.cpsr with t := v.getLsbD 0 }, pc := v &&& 0xFFFFFFFE }

/-- LDR, word with immediate offset (R188). -/
def execLdr (c : Cond) (up : Bool) (rd rn : RegNum) (imm12 : BitVec 12) (s : State) :
    Host.Outcome State Fault Refusal :=
  conditional c s fun s =>
    match readWord (rd = 15) (offsetAddress up (operand rn s) imm12) s with
    | .done v s => if rd = 15 then loadPc v s else advance 4 (s.setReg rd v)
    | .abort src s => .next (takeDataAbort src s)
    | .refused r => .refused r

/-- STR, word with immediate offset (R189). Storing R15 is refused (R189, U26). -/
def execStr (c : Cond) (up : Bool) (rd rn : RegNum) (imm12 : BitVec 12) (s : State) :
    Host.Outcome State Fault Refusal :=
  conditional c s fun s =>
    if rd = 15 then .refused .storesPc
    else
      match writeWord (offsetAddress up (operand rn s) imm12) (s.reg rd) s with
      | .done _ s => advance 4 s
      | .abort src s => .next (takeDataAbort src s)
      | .refused r => .refused r

/-- What LDM and STM ask of base and list alike (R190, R191). -/
def multipleRefusal (rn : RegNum) (list : BitVec 16) : Option Refusal :=
  if list = 0 || list.getLsbD 15 then some .registerList else if rn = 15 then some .baseIsPc else none

/-- LDM (R190): all words are read before a register is written; the write-back comes last. -/
def execLdm (c : Cond) (am : AddrMode) (wback : Bool) (rn : RegNum) (list : BitVec 16) (s : State) :
    Host.Outcome State Fault Refusal :=
  conditional c s fun s =>
    match multipleRefusal rn list with
    | some r => .refused r
    | none =>
      if wback && list.getLsbD rn.val then .refused .baseInList
      else
        let regs := listedRegs list
        let base := s.reg rn
        multiLoad false (wordAddresses (lowestAddress am base regs.length) regs.length) s
          (fun vs s => spoilRegs rn (regs.zip vs) s)
          fun vs s =>
            let s := setRegs (regs.zip vs) s
            advance 4 (if wback then s.setReg rn (writtenBack am base regs.length) else s)

/-- STM (R191): every register is read before the write-back. -/
def execStm (c : Cond) (am : AddrMode) (wback : Bool) (rn : RegNum) (list : BitVec 16) (s : State) :
    Host.Outcome State Fault Refusal :=
  conditional c s fun s =>
    match multipleRefusal rn list with
    | some r => .refused r
    | none =>
      if wback && list.getLsbD rn.val && !isLowest rn list then .refused .baseInList
      else
        let regs := listedRegs list
        let base := s.reg rn
        let addrs := wordAddresses (lowestAddress am base regs.length) regs.length
        multiStore (addrs.zip (regs.map s.reg)) s fun s =>
          advance 4 (if wback then s.setReg rn (writtenBack am base regs.length) else s)

end Sys2Proof.Machine
end

