-- ==== Sys2Proof/Machine/Returns.lean ====
section
/-! DEFINITION. The exception return instructions (spec/41_exception_return.md R151 to R153). -/

namespace Sys2Proof.Machine

/-- `MOVS PC, R14`: return from SVC, SMC and Undefined (R151). -/
def execMovsPcLr (c : Cond) (s : State) : Host.Outcome State Fault Refusal :=
  conditional c s fun s => exceptionReturn s.lr s

/-- `SUBS PC, R14, #4`: return from FIQ, IRQ, Prefetch Abort and BKPT (R152). -/
def execSubsPcLr4 (c : Cond) (s : State) : Host.Outcome State Fault Refusal :=
  conditional c s fun s => exceptionReturn (s.lr - 4) s

/-- `SUBS PC, R14, #8`: return from a precise Data Abort (R153). -/
def execSubsPcLr8 (c : Cond) (s : State) : Host.Outcome State Fault Refusal :=
  conditional c s fun s => exceptionReturn (s.lr - 8) s

end Sys2Proof.Machine
end

