-- ==== Sys2Proof/Machine/StatusMoves.lean ====
section
/-! DEFINITION. The status register moves MRS and MSR (spec/43_support_instructions.md R186, R187). -/

namespace Sys2Proof.Machine

/-- MRS (R186): the CPSR, or with `r` the SPSR of the current mode, to a register. -/
def execMrs (c : Cond) (r : Bool) (rd : RegNum) (s : State) : Host.Outcome State Fault Refusal :=
  conditional c s fun s =>
    if rd = 15 then .refused .destinationIsPc
    else if r then
      match s.curSpsr with
      | none => .refused .noSpsr
      | some w => advance 4 (s.setReg rd w)
    else advance 4 (s.setReg rd s.cpsr.toWord)

/-- The CPSR bits that MSR writes in this mode and world (R187): A and F only where the world may change
them. -/
def msrMask (fields : BitVec 4) (s : State) : Word :=
  byteMask fields &&& (if s.cpsr.mode.privileged then userMask ||| privMask else userMask) &&&
    (if s.mayChangeA then 0xFFFFFFFF else ~~~0x00000100) &&& (if s.mayChangeF then 0xFFFFFFFF else ~~~0x00000040)

/-- `MSR CPSR_<fields>, Rm` (R187). -/
def msrCpsr (fields : BitVec 4) (value : Word) (s : State) : Host.Outcome State Fault Refusal :=
  if s.cpsr.mode.privileged && (value &&& byteMask fields &&& stateMask) ≠ 0 then .refused .stateBitsWritten
  else
    let mask := msrMask fields s
    if s.world = .nonSecure && (mask &&& 0x1F) ≠ 0 && value.extractLsb' 0 5 = Mode.monitor.toBits then
      .refused .monitorFromNonSecure
    else
      match Psr.ofWord? (merge mask s.cpsr.toWord value) with
      | none => .refused .notAMode
      | some p => advance 4 { s with cpsr := p }

/-- `MSR SPSR_<fields>, Rm` (R187): no world restricts it (R29). -/
def msrSpsr (fields : BitVec 4) (value : Word) (s : State) : Host.Outcome State Fault Refusal :=
  match s.curSpsr with
  | none => .refused .noSpsr
  | some w =>
    let mask := byteMask fields &&& (userMask ||| privMask ||| stateMask)
    advance 4 { s with spsr := s.spsr.set s.cpsr.mode.bank (merge mask w value) }

/-- MSR with a register operand (R187); R15 reads as `pc + 8` (R180 (a)). -/
def execMsr (c : Cond) (r : Bool) (fields : BitVec 4) (rm : RegNum) (s : State) :
    Host.Outcome State Fault Refusal :=
  conditional c s fun s => if r then msrSpsr fields (operand rm s) s else msrCpsr fields (operand rm s) s

end Sys2Proof.Machine
end

