-- ==== Sys2Proof/Machine/Dispatch.lean ====
section
/-! DEFINITION. The meaning of each instruction, one arm per row of spec/opcode_table.json. -/

namespace Sys2Proof.Machine

def exec (i : Instr) (s : State) : Host.Outcome State Fault Refusal :=
  match i with
  | .srs am wback mode => Sys2Proof.Machine.execSrs am wback mode s
  | .rfe am wback rn => Sys2Proof.Machine.execRfe am wback rn s
  | .cps imod mmod a it f mode => Sys2Proof.Machine.execCps imod mmod a it f mode s
  | .svc c imm24 => Sys2Proof.Machine.execSvc c imm24 s
  | .smc c imm16 => Sys2Proof.Machine.execSmc c imm16 s
  | .bkpt imm16 => Sys2Proof.Machine.execBkpt imm16 s
  | .udf imm16 => Sys2Proof.Machine.execUdf imm16 s
  | .movsPcLr c => Sys2Proof.Machine.execMovsPcLr c s
  | .subsPcLr4 c => Sys2Proof.Machine.execSubsPcLr4 c s
  | .subsPcLr8 c => Sys2Proof.Machine.execSubsPcLr8 c s
  | .mrs c r rd => Sys2Proof.Machine.execMrs c r rd s
  | .msr c r fields rm => Sys2Proof.Machine.execMsr c r fields rm s
  | .mov c rd rm => Sys2Proof.Machine.execMov c rd rm s
  | .add c rd rn rot imm8 => Sys2Proof.Machine.execAdd c rd rn rot imm8 s
  | .sub c rd rn rot imm8 => Sys2Proof.Machine.execSub c rd rn rot imm8 s
  | .orr c rd rn rot imm8 => Sys2Proof.Machine.execOrr c rd rn rot imm8 s
  | .bic c rd rn rot imm8 => Sys2Proof.Machine.execBic c rd rn rot imm8 s
  | .ldr c up rd rn imm12 => Sys2Proof.Machine.execLdr c up rd rn imm12 s
  | .str c up rd rn imm12 => Sys2Proof.Machine.execStr c up rd rn imm12 s
  | .ldm c am wback rn list => Sys2Proof.Machine.execLdm c am wback rn list s
  | .stm c am wback rn list => Sys2Proof.Machine.execStm c am wback rn list s
  | .cpsThumb im a it f => Sys2Proof.Machine.execCpsThumb im a it f s
  | .svcThumb imm8 => Sys2Proof.Machine.execSvcThumb imm8 s
  | .bkptThumb imm8 => Sys2Proof.Machine.execBkptThumb imm8 s
  | .udfThumb imm8 => Sys2Proof.Machine.execUdfThumb imm8 s

end Sys2Proof.Machine
end

