-- ==== Sys2Proof/Machine/Environment.lean ====
section
/-! DEFINITION. What happens at an instruction boundary before the instruction: the signals are sampled, reset is
held or performed (spec/70_reset_and_hazards.md R300, R301), an abstract control write takes effect
(spec/91_not_in_source.md N8, N21; R303), and an external error is reported (spec/20_memory.md R85). -/

namespace Sys2Proof.Machine

/-! ## Sampling -/

/-- What the next boundary presents: the head of the schedule; when the schedule is empty the signals keep
their levels and nothing else happens (log 10). -/
def State.nextBoundary (s : State) : Boundary :=
  match s.inputs with
  | b :: _ => b
  | [] => { signals := { s.signals with midEvent := none }, errorReports := 0, control := none, newMap := none }

/-- The signals of the boundary, and the map when the environment changes it. -/
def sample (b : Boundary) (s : State) : State :=
  { s with signals := b.signals, inputs := s.inputs.tail, map := b.newMap.getD s.map }

/-! ## Reset -/

/-- `reset_EE` (R4, C10). -/
def resetEE (p : Params) : Bool :=
  match p.bigEndInit, p.ubitInit with
  | false, false => p.eeOfPins.lowLow
  | false, true => p.eeOfPins.lowHigh
  | true, false => p.eeOfPins.highLow
  | true, true => p.eeOfPins.highHigh

/-- The pins select the legacy word-invariant big-endian scheme: BIGENDINIT HIGH and UBITINIT LOW (R71). -/
def legacyBigEndian (p : Params) : Bool := p.bigEndInit && !p.ubitInit

/-- Seven free words from draw `d` on. -/
def freeBanked (d : Nat) : Banked where
  usr := Config.freeWord d
  svc := Config.freeWord (d + 1)
  abt := Config.freeWord (d + 2)
  und := Config.freeWord (d + 3)
  irq := Config.freeWord (d + 4)
  fiq := Config.freeWord (d + 5)
  mon := Config.freeWord (d + 6)

/-- Indeterminate general registers (R44): 32 free words from draw `d` on. -/
def freeRegs (d : Nat) : RegFile where
  shared := Vector.ofFn fun i => Config.freeWord (d + i.val)
  fiqHigh := Vector.ofFn fun i => Config.freeWord (d + 13 + i.val)
  sp := freeBanked (d + 18)
  lr := freeBanked (d + 25)

/-- Indeterminate SPSRs (R44): six free words from draw `d` on. -/
def freeSpsrs (d : Nat) : SavedPsrs where
  svc := Config.freeWord d
  abt := Config.freeWord (d + 1)
  und := Config.freeWord (d + 2)
  irq := Config.freeWord (d + 3)
  fiq := Config.freeWord (d + 4)
  mon := Config.freeWord (d + 5)

/-- How many free values a reset draws. -/
def resetDraws : Nat := 44

/-- The CPSR after reset (R301): Supervisor mode, ARM state, A, I and F set, E from the pins; the other bits
are those of a free word. -/
def resetPsr (p : Params) (free : Word) : Psr :=
  { Psr.withMode free .supervisor with j := false, e := resetEE p, a := true, i := true, f := true, t := false }

/-- The reset sequence (R301) during a run: the state of R44. What is indeterminate holds free values (log 13);
memory, the memory map, the log and the environment's schedule are not touched. -/
def resetSequence (s : State) : State :=
  let d := s.draws
  { s with
    regs := freeRegs d
    spsr := freeSpsrs (d + 32)
    cpsr := resetPsr s.params (Config.freeWord (d + 38))
    pc := if s.params.resetHighVectors then 0xFFFF0000 else 0x00000000
    scr :=
      { ns := false, irq := s.params.resetScr.irq, fiq := s.params.resetScr.fiq, ea := s.params.resetScr.ea
        fw := s.params.resetScr.fw, aw := s.params.resetScr.aw }
    fi := false
    fiWindow := true
    secureCtrl :=
      { ee := resetEE s.params, highVectors := s.params.resetHighVectors, ve := s.params.resetVeSecure }
    nonSecureCtrl :=
      { ee := Config.freeBit (d + 39), highVectors := s.params.resetHighVectorsNonSecure
        ve := s.params.resetVeNonSecure }
    nonSecureBase := Config.freeWord (d + 40)
    secureBase := Config.freeWord (d + 41)
    monitorBase := Config.freeWord (d + 42)
    faultStatus := Config.freeFaultStatus (d + 43)
    abortPending := false
    inReset := false
    draws := d + resetDraws }

/-- What reset makes of this boundary, if it has to do with it (R221 step 1, R300): both pins LOW hold the
machine, which abandons what it was doing; when both are HIGH again the reset sequence runs; one LOW alone has
no meaning (N16). -/
def resetPhase (s : State) : Option (Host.Outcome State Fault Refusal) :=
  match s.signals.nRESETIN, s.signals.nVFPRESETIN with
  | .low, .low => some (.next { s with inReset := true })
  | .high, .high => if s.inReset then some (.next (resetSequence s)) else none
  | _, _ => some (.fault .resetPinsApart)

/-! ## Abstract control writes -/

/-- The time in which FI may change ends at the first boundary after reset at which I or F is clear: R303 allows a
change "shortly after Reset, while interrupts are disabled", and R302 clears I and F only after it (DEDUCED,
log 15). -/
def closeFiWindow (s : State) : State := { s with fiWindow := s.fiWindow && s.cpsr.i && s.cpsr.f }

/-- Every external error that is held is reported: `ImpreciseAbortPending` is set if there is one (R82). -/
def drainErrors (s : State) : State :=
  if s.bufferedErrors = 0 then s else { s with bufferedErrors := 0, abortPending := true }

/-- Whether the current mode and world may make the write (R35, R36, R249, N21, log 14): SCR, FI, the Secure copies
and the Secure and Monitor bases from a privileged mode of the Secure world; the Non-secure copies from any
privileged mode. -/
def mayWrite (c : ControlWrite) (s : State) : Bool :=
  let securePrivileged := s.cpsr.mode.privileged && s.world = .secure
  match c with
  | .scr _ => securePrivileged
  | .controlBits .secure _ => securePrivileged
  | .controlBits .nonSecure _ => s.cpsr.mode.privileged
  | .base .nonSecure _ => s.cpsr.mode.privileged
  | .base .secure _ => securePrivileged
  | .base .monitor _ => securePrivileged
  | .fi _ _ => securePrivileged
  | .barrier => true

/-- Whether the event is a Data Synchronization Barrier or holds one (R82, R303). -/
def ControlWrite.hasBarrier : ControlWrite → Bool
  | .barrier => true
  | .fi _ inSequence => inSequence
  | .scr _ | .controlBits _ _ | .base _ _ => false

/-- The write of a control register that the mode and world may make. FI changes only by the sequence of R303, between
two barriers and with IRQ and FIQ masked, and only shortly after reset (U9); a write that leaves FI as it is changes
nothing. -/
def permittedWrite (c : ControlWrite) (s : State) : Host.Outcome State Fault Refusal :=
  match c with
  | .scr v => .next { s with scr := v }
  | .controlBits .secure v => .next { s with secureCtrl := v }
  | .controlBits .nonSecure v => .next { s with nonSecureCtrl := v }
  | .base .nonSecure v => .next { s with nonSecureBase := v }
  | .base .secure v => .next { s with secureBase := v }
  | .base .monitor v => .next { s with monitorBase := v }
  | .fi v inSequence =>
    if v = s.fi then .next s
    else if inSequence && s.cpsr.i && s.cpsr.f && s.fiWindow then .next { s with fi := v }
    else .refused .fiOutOfSequence
  | .barrier => .next s

/-- The event: its barriers report every held error (R82); its write, if the mode or world may not make it, has no
effect (R36 for FI; DEDUCED for the others, log 14). -/
def controlWrite (c : ControlWrite) (s : State) : Host.Outcome State Fault Refusal :=
  let s := if c.hasBarrier then drainErrors s else s
  if mayWrite c s then permittedWrite c s else .next s

/-- The boundary's control write, if it has one. -/
def applyControl (c : Option ControlWrite) (s : State) : Host.Outcome State Fault Refusal :=
  match c with
  | none => .next s
  | some c => controlWrite c s

/-- The environment reports `n` of the external errors that are held, or all of them if there are fewer (R46, R85,
D16); however many they are, one pending bit holds them (D8, log 20). -/
def reportErrors (n : Nat) (s : State) : State :=
  if n ≠ 0 ∧ s.bufferedErrors ≠ 0 then { s with bufferedErrors := s.bufferedErrors - n, abortPending := true } else s

/-! ## Interrupts and the imprecise abort -/

/-- The interrupt to be taken at this boundary (R221 steps 2 and 3). -/
def interruptTaken (s : State) : Option Interrupt := unmaskedRequest s.signals.fiqReg s.signals.irqReg s

/-- Whether the pending imprecise abort is to be taken (R221 step 5, R243). -/
def impreciseTaken (s : State) : Bool := s.abortPending && !s.cpsr.a

/-- The entry of an imprecise Data Abort: the pending bit cleared, R14 any value (R229, D9). -/
def takeImprecise (s : State) : State :=
  takeException (.dataAbort .externalImprecise) (Config.impreciseAbortReturn s.draws)
    { s with abortPending := false, draws := s.draws + 1 }

end Sys2Proof.Machine
end

