-- ==== Sys2Proof/Machine/Cycle.lean ====
section
/-! DEFINITION. One step of the machine (spec/60_exceptions.md R221): the boundary, an interrupt, the fetch, a
pending imprecise abort, the instruction, in this order (R237, D15). -/

namespace Sys2Proof.Machine

/-- What a fetch comes to: the bytes of the instruction, with the state that fetching them leaves, an abort, or no
meaning. -/
inductive Fetched where
  | bytes (bs : List Byte) (s : State)
  | abort (src : AbortSource)
  | stopped (f : Fault)
  | refused (r : Refusal)

/-- The length in bytes of the instruction at the PC: CPSR.T alone tells it (R100). -/
def State.fetchLength (s : State) : Nat := if s.cpsr.t then 2 else 4

/-- The addresses of the bytes of the instruction at the PC. -/
def State.fetchAddrs (s : State) : List Nat := (List.range s.fetchLength).map fun k => byteAddr s.pc k

/-- The Prefetch Abort that the fetch gets, if it aborts (R78, R227, R228): an AXI error response and a page
table walk's are external, the MMU's are internal. -/
def State.fetchAbort (s : State) : Option AbortSource :=
  match s.abortCause .fetch s.pc s.fetchLength with
  | none => none
  | some (.mmu f) => some (.mmu f)
  | some .tableWalk | some .axiError => some .externalPrecise

/-- The word's bytes from the lowest address on, little-endian as every fetch is (R72). -/
def fetchedBytes (n : Nat) (v : Word) : List Byte := (List.range n).map (wordByte false v)

/-- A fetch from a device address (R81, R85, R87): the device's answer, seen on the bus (DESIGN CHOICE, log 21). -/
def deviceFetch (s : State) : List Byte × State :=
  let (v, u) := deviceAnswer s
  (fetchedBytes s.fetchLength v, { u with busLog := u.busLog ++ [.deviceFetch s.pc v] })

/-- The fetch of the instruction at the PC (R72, R73, R85). An address that an instruction stored to stops it, in memory
and at a device alike (R84, D4, U33). In Jazelle state there is nothing the spec
could fetch (R167). -/
def fetch (s : State) : Fetched :=
  if s.cpsr.j then .refused .jazelleState
  else if s.pc.toNat % s.fetchLength ≠ 0 then .stopped .fetchMisaligned
  else
    match s.fetchAbort with
    | some src => .abort src
    | none =>
      if s.fetchAddrs.any fun a => s.stored.contains a then .stopped .fetchStored
      else if s.deviceAt s.pc s.fetchLength then
        let (bs, u) := deviceFetch s
        .bytes bs u
      else .bytes (s.fetchAddrs.map (readByte s.mem)) s

/-- Runs the bytes fetched: decoded by the execution state, then the instruction's meaning. -/
def runFetched (bs : List Byte) (s : State) : Host.Outcome State Fault Refusal :=
  match decode s.cpsr.t bs with
  | .refused e => .refused (.notInTable e)
  | .instr i => exec i s

/-- R221 steps 2 to 6, on the state the boundary has left. -/
def attend (s : State) : Host.Outcome State Fault Refusal :=
  match interruptTaken s with
  | some x => .next (takeInterrupt x s)
  | none =>
    match fetch s with
    | .refused r => .refused r
    | .stopped f => .fault f
    | .abort src => .next (takeException (.prefetchAbort src) (s.pc + 4) s)
    | .bytes bs s => if impreciseTaken s then .next (takeImprecise s) else runFetched bs s

/-- One step: the signals of the boundary; reset when it is signalled; otherwise the boundary's control write
and error reports, then R221 steps 2 to 6. The legacy big-endian configuration is refused whole (R71). -/
def cycle (s : State) : Host.Outcome State Fault Refusal :=
  if legacyBigEndian s.params then .refused .legacyBigEndian
  else
    let b := s.nextBoundary
    let s := sample b s
    match resetPhase s with
    | some o => o
    | none =>
      match applyControl b.control (closeFiWindow s) with
      | .next s => attend (reportErrors b.errorReports s)
      | .fault f => .fault f
      | .refused r => .refused r

/-- The byte `k` of an instruction whose bits are `w`, in memory order (R72). -/
def tableByte (w k : Nat) : Byte := BitVec.ofNat 8 (w / 2 ^ (8 * k))

/-- Memory with the four bytes of `w` where the next instruction is fetched. -/
def plantBytes (mem : List Host.Cell) (pc : Word) (w : Nat) : List Host.Cell :=
  [0, 1, 2, 3].foldl (fun m k => writeByte m (byteAddr pc k) (tableByte w k)) mem

end Sys2Proof.Machine
end

