-- ==== Sys2Proof/Machine/Step.lean ====
section
/-! DEFINITION. The step function, and how a test places the next instruction. -/

namespace Sys2Proof.Machine

/-- One step of the machine (spec/60_exceptions.md R221). -/
def step (s : State) : Host.Outcome State Fault Refusal := cycle s

/-- `s` with the instruction whose bits are `w` where the next fetch takes it: its bytes at the PC, no longer
counted as stored by an instruction, and, when the PC is at a device, the device's next answer too; the execution state
of its length, Thumb for 16 bits and ARM for 32 (R100). It stands for loading a program from outside (R302 item 1, log 46). -/
def State.withFetchWord (s : State) (nbits w : Nat) : State :=
  { s with
    deviceAnswers :=
      if s.deviceAt s.pc (nbits / 8) then BitVec.ofNat 32 (w % 2 ^ nbits) :: s.deviceAnswers else s.deviceAnswers
    mem := plantBytes s.mem s.pc (w % 2 ^ nbits)
    stored := s.stored.filter fun a => !(([0, 1, 2, 3].map (byteAddr s.pc)).contains a)
    cpsr := { s.cpsr with t := nbits == 16, j := false } }

end Sys2Proof.Machine
end

