-- ==== Sys2Proof/Safety.lean ====
section
/-! DEFINITION. The terms the statements are written in: the invariant every step keeps, ordinary memory words, the
reset phase, and what an instruction leaves unchanged. -/

namespace Sys2Proof.Machine

/-- The invariant: memory and the set of stored addresses are in canonical form, and the machine is not in
Jazelle state (R27, R167). That CPSR.M names a mode (R26) holds by construction. -/
def State.Inv (s : State) : Prop := Memory.wf s.mem = true ∧ storedWf s.stored = true ∧ s.cpsr.j = false

/-- A word access at `a` that is aligned, aborts for no cause, and touches memory, not a device (R73, R85, R87). -/
def State.plainWord (s : State) (ty : AccessType) (a : Word) : Prop :=
  wordAligned a = true ∧ s.abortCause ty a 4 = none ∧ s.deviceAt a 4 = false

/-- A word access at `a` takes the precise abort `src`: the alignment abort of a misaligned word with `strict_alignment`,
or, aligned, the one that the abort oracle gives (R73, R78, R85). -/
def State.wordAborts (s : State) (ty : AccessType) (toPcOrPsr : Bool) (a : Word) (src : AbortSource) : Prop :=
  (wordAligned a = true ∧ s.dataAbort ty toPcOrPsr a = some src) ∨
    (wordAligned a = false ∧ s.params.strictAlignment = true ∧ src = .mmu .alignment)

/-- A word access at `a` that is aligned and takes no precise abort: it completes, at memory or at a device, also where its
error is imprecise (R73, R78, R85). -/
def State.wordCompletes (s : State) (ty : AccessType) (a : Word) : Prop :=
  wordAligned a = true ∧ s.dataAbort ty false a = none

/-- Nothing stops an instruction of `n` accesses part-way (R248, R300). -/
def State.undisturbed (s : State) (n : Nat) : Prop := s.cut n = none

/-- The next instruction lies below the top of memory (R24, D12). -/
def State.canAdvance (s : State) (len : Nat) : Prop := s.pc.toNat + len < 2 ^ 32

/-- The state as R221 step 2 sees it at a boundary without a control write: the signals of the boundary sampled, its
error reports made. -/
def State.afterBoundary (s : State) : State :=
  reportErrors s.nextBoundary.errorReports (closeFiWindow (sample s.nextBoundary s))

/-- The boundary asks for neither reset nor a control write, the machine is not held in reset, and the legacy
configuration is not selected: R221 goes on to step 2. -/
def State.calmBoundary (s : State) : Prop :=
  legacyBigEndian s.params = false ∧ s.inReset = false ∧ s.nextBoundary.signals.nRESETIN = .high ∧
    s.nextBoundary.signals.nVFPRESETIN = .high ∧ s.nextBoundary.control = none

/-- The control registers, bases and hidden abort state of the two states are the same. -/
def sameControl (s t : State) : Prop :=
  t.scr = s.scr ∧ t.fi = s.fi ∧ t.fiWindow = s.fiWindow ∧ t.secureCtrl = s.secureCtrl ∧ t.nonSecureCtrl = s.nonSecureCtrl ∧
    t.nonSecureBase = s.nonSecureBase ∧ t.secureBase = s.secureBase ∧ t.monitorBase = s.monitorBase ∧
    t.faultStatus = s.faultStatus ∧ t.abortPending = s.abortPending ∧ t.bufferedErrors = s.bufferedErrors

/-- No byte of memory differs. -/
def sameMemory (s t : State) : Prop := ∀ a : Nat, readByte t.mem a = readByte s.mem a

/-- No byte of memory outside the words at the addresses differs. -/
def sameMemoryOutside (addrs : List Word) (s t : State) : Prop :=
  ∀ a : Nat, (∀ w ∈ addrs, ∀ k < 4, a ≠ byteAddr w k) → readByte t.mem a = readByte s.mem a

/-- No general register but those of `except` differs. -/
def sameRegsBut (except : List PhysReg) (s t : State) : Prop := ∀ p, p ∉ except → t.regs.get p = s.regs.get p

/-- What surrounds the core is the same: signals and schedule, the map, the devices, the bus, the parameters, the
draws. -/
def sameSurroundings (s t : State) : Prop :=
  t.inReset = s.inReset ∧ t.signals = s.signals ∧ t.inputs = s.inputs ∧ t.map = s.map ∧
    t.deviceAnswers = s.deviceAnswers ∧ t.busLog = s.busLog ∧ t.params = s.params ∧ t.draws = s.draws

/-- The addresses remembered as stored to are those of before and the bytes of the words at `addrs` (R84). -/
def storedGrowsBy (addrs : List Word) (s t : State) : Prop :=
  ∀ a : Nat, a ∈ t.stored ↔ a ∈ s.stored ∨ ∃ w ∈ addrs, ∃ k < 4, a = byteAddr w k

/-- The frame of a form that stores nothing: of the registers, SPSRs, control registers, memory and surroundings only
the registers of `except` may differ. PC and CPSR are stated apart. -/
def keepsAllBut (except : List PhysReg) (s t : State) : Prop :=
  sameRegsBut except s t ∧ t.spsr = s.spsr ∧ sameControl s t ∧ sameMemory s t ∧ t.stored = s.stored ∧
    sameSurroundings s t

/-- The frame of a form that stores words at `addrs`. -/
def keepsAllButStored (except : List PhysReg) (addrs : List Word) (s t : State) : Prop :=
  sameRegsBut except s t ∧ t.spsr = s.spsr ∧ sameControl s t ∧ sameMemoryOutside addrs s t ∧
    storedGrowsBy addrs s t ∧ sameSurroundings s t

/-- `t` is the entry of the exception with the return address `ret`, made on a state that has the PC, the status
registers, the control registers and the signals of `s` (R223): what the instruction did before the entry shows in
general registers, memory and what surrounds the core alone. -/
def entersFrom (x : Exception) (ret : Word) (s t : State) : Prop :=
  ∃ u, t = takeException x ret u ∧ u.pc = s.pc ∧ u.cpsr = s.cpsr ∧ u.spsr = s.spsr ∧ u.signals = s.signals ∧
    sameControl s u

/-- The condition field of an instruction that has one (R101). -/
def condOf : Instr → Option Cond
  | .svc c _ | .smc c _ | .movsPcLr c | .subsPcLr4 c | .subsPcLr8 c | .mrs c _ _ | .msr c _ _ _ | .mov c _ _
  | .add c _ _ _ _ | .sub c _ _ _ _ | .orr c _ _ _ _ | .bic c _ _ _ _ | .ldr c _ _ _ _ | .str c _ _ _ _
  | .ldm c _ _ _ _ | .stm c _ _ _ _ => some c
  | .srs .. | .rfe .. | .cps .. | .bkpt .. | .udf .. | .cpsThumb .. | .svcThumb .. | .bkptThumb .. | .udfThumb .. =>
    none

/-- The word address `k` words above `low`. -/
def wordAt (low : Word) (k : Nat) : Word := low + BitVec.ofNat 32 (4 * k)

/-- The physical register that a number denotes in the current mode, as a list: empty for the PC. -/
def State.dest (s : State) (n : RegNum) : List PhysReg := (physReg s.cpsr.mode n).toList

end Sys2Proof.Machine
end

