-- ==== Sys2Proof/WellFormed.lean ====
section
/-! DEFINITION. Which combinations of fields the spec gives a meaning in some state: the static
`require` lines of R130 to R133 and R181 to R191 and the reserved rows of R107. A term that fails is
still decoded (the table admits its word); its meaning stops by name when it comes to it. -/

namespace Sys2Proof

/-- The eight mode numbers (spec/10_state.md R26). -/
def isModeNumber (b : BitVec 5) : Bool :=
  b = 0b10000 || b = 0b10001 || b = 0b10010 || b = 0b10011 || b = 0b10110 || b = 0b10111 || b = 0b11011 ||
    b = 0b11111

/-- The field combinations of CPS that R107 does not reserve: a mode change, a mask change, or both, with
a mask letter exactly when the masks change and a mode number only when the mode changes. -/
def cpsFieldsOk (imod : BitVec 2) (mmod a i f : Bool) (mode : BitVec 5) : Bool :=
  let flags := a || i || f
  imod ≠ 0b01 && !(imod = 0b00 && !mmod) && (imod.getLsbD 1 == flags) && (mmod || mode = 0)

/-- A register list that LDM and STM admit at all: not empty, without R15 (R190, R191). -/
def listOk (list : BitVec 16) : Bool :=
  list ≠ 0 && !list.getLsbD 15

/-- No register of the list has a lower number than `rn` (R191: "Rn is not the lowest register in it"). -/
def lowestIs (rn : RegNum) (list : BitVec 16) : Bool :=
  list.getLsbD rn.val && (list &&& ((1#16 <<< rn.val) - 1)) = 0

/-- The forms the spec gives a meaning. -/
def Instr.wellFormed : Instr → Bool
  | .srs _ _ mode => isModeNumber mode && mode ≠ 0b10000 && mode ≠ 0b11111
  | .rfe _ _ rn => rn ≠ 15
  | .cps imod mmod a i f mode => cpsFieldsOk imod mmod a i f mode && (!mmod || isModeNumber mode)
  | .svc .. | .smc .. | .bkpt .. | .udf .. | .movsPcLr .. | .subsPcLr4 .. | .subsPcLr8 .. => true
  | .mrs _ _ rd => rd ≠ 15
  | .msr .. => true
  | .mov _ rd _ => rd ≠ 15
  | .add _ rd _ _ _ => rd ≠ 15
  | .sub _ rd _ _ _ => rd ≠ 15
  | .orr _ rd _ _ _ => rd ≠ 15
  | .bic _ rd _ _ _ => rd ≠ 15
  | .ldr .. => true
  | .str _ _ rd _ _ => rd ≠ 15
  | .ldm _ _ wback rn list => listOk list && rn ≠ 15 && !(wback && list.getLsbD rn.val)
  | .stm _ _ wback rn list => listOk list && rn ≠ 15 && !(wback && list.getLsbD rn.val && !lowestIs rn list)
  | .cpsThumb _ a i f => a || i || f
  | .svcThumb .. | .bkptThumb .. | .udfThumb .. => true

end Sys2Proof
end

