-- ==== Sys2Proof/Certificates/Slice0/Obligations.lean ====
section
/-! DEFINITION. The statements for the provers, from the numbered rules of spec/. A completion statement says that
`exec` answers a next state, what it holds, and what stays as it was; the hypotheses are on the state and the
operands alone. -/

open Sys2Proof Sys2Proof.Machine

/-! ## Encoding -/

/-- spec/30_encoding.md R102 to R105: no bit of an encoding is dropped. Every operand at every value. -/
def Obligations.DecodeInvertsEncode : Prop :=
  ∀ i : Instr, decode i.isThumb (encode i).bytes = .instr i

/-- spec/30_encoding.md R106: each row admits exactly the words of its format, so bytes that decode are the encoding
of what they decode to, in the execution state they were fetched in. -/
def Obligations.DecodedBytesAreTheEncoding : Prop :=
  ∀ (thumb : Bool) (bytes : List Byte) (i : Instr), decode thumb bytes = .instr i →
    i.isThumb = thumb ∧ (encode i).bytes = bytes

/-- The words of worked examples of spec/40 to spec/43, one or two for each family. -/
def Obligations.WorkedExampleWordsDecode : Prop :=
  decodeArm 0xF96D0517 = .instr (.srs .db true 0x17) ∧ decodeArm 0xF8BD0A00 = .instr (.rfe .ia true 13) ∧
    decodeArm 0xF10A0057 = .instr (.cps 0b10 true false false true 0x17) ∧
    decodeThumb 0xB672 = .instr (.cpsThumb true false true false) ∧
    decodeArm 0xEF000012 = .instr (.svc .al 0x12) ∧ decodeThumb 0xDF05 = .instr (.svcThumb 5) ∧
    decodeArm 0xE1600070 = .instr (.smc .al 0) ∧ decodeArm 0xE1B0F00E = .instr (.movsPcLr .al) ∧
    decodeArm 0xE25EF004 = .instr (.subsPcLr4 .al) ∧ decodeArm 0xE121F003 = .instr (.msr .al false 0b0001 3) ∧
    decodeArm 0xE28D2008 = .instr (.add .al 2 13 0 8) ∧ decodeArm 0xE59DE00C = .instr (.ldr .al true 14 13 12) ∧
    decodeArm 0xE8BD000C = .instr (.ldm .al .ia true 13 0b1100)

/-- spec/43_support_instructions.md R192, spec/30_encoding.md R109 (a): the expansion of ADR, when it exists, writes
the label. -/
def Obligations.AdrExpansionWritesTheLabel : Prop :=
  ∀ (c : Cond) (rd : RegNum) (label : Word) (i : Instr) (s : State),
    expandAdr c rd s.pc label = some i → rd ≠ 15 → condHolds c s.cpsr = true → s.canAdvance 4 →
      ∃ t, exec i s = .next t ∧ t.reg rd = label ∧ t.pc = s.pc + 4 ∧ t.cpsr = s.cpsr ∧ keepsAllBut (s.dest rd) s t

/-- spec/30_encoding.md R101: the condition table; a condition that fails leaves everything but the PC, which
goes on by 4; and 0b1111 selects the unconditional space of SRS, RFE and CPS. That the failing condition comes first for
the forms that would be refused too is the model's reading (log 32). -/
def Obligations.ConditionField : Prop :=
  (∀ p : Psr,
    (condHolds .eq p = true ↔ p.z = true) ∧ (condHolds .ne p = true ↔ p.z = false) ∧
    (condHolds .cs p = true ↔ p.c = true) ∧ (condHolds .cc p = true ↔ p.c = false) ∧
    (condHolds .mi p = true ↔ p.n = true) ∧ (condHolds .pl p = true ↔ p.n = false) ∧
    (condHolds .vs p = true ↔ p.v = true) ∧ (condHolds .vc p = true ↔ p.v = false) ∧
    (condHolds .hi p = true ↔ p.c = true ∧ p.z = false) ∧ (condHolds .ls p = true ↔ p.c = false ∨ p.z = true) ∧
    (condHolds .ge p = true ↔ p.n = p.v) ∧ (condHolds .lt p = true ↔ p.n ≠ p.v) ∧
    (condHolds .gt p = true ↔ p.z = false ∧ p.n = p.v) ∧ (condHolds .le p = true ↔ p.z = true ∨ p.n ≠ p.v) ∧
    condHolds .al p = true) ∧
  (∀ (i : Instr) (c : Cond) (s : State), condOf i = some c → condHolds c s.cpsr = false → s.canAdvance 4 →
    exec i s = .next { s with pc := s.pc + 4 }) ∧
  (∀ (w : Word) (i : Instr), decodeArm w = .instr i →
    (w.extractLsb' 28 4 = 0b1111 ↔ ∃ am wb m rn im mm a it f,
      i = .srs am wb m ∨ i = .rfe am wb rn ∨ i = .cps im mm a it f m)) ∧
  (∀ (w : Word) (i : Instr) (c : Cond), decodeArm w = .instr i → condOf i = some c →
    w.extractLsb' 28 4 =
      (match c with
        | .eq => 0b0000 | .ne => 0b0001 | .cs => 0b0010 | .cc => 0b0011 | .mi => 0b0100 | .pl => 0b0101
        | .vs => 0b0110 | .vc => 0b0111 | .hi => 0b1000 | .ls => 0b1001 | .ge => 0b1010 | .lt => 0b1011
        | .gt => 0b1100 | .le => 0b1101 | .al => 0b1110))

/-- spec/30_encoding.md R105: the lowest address and the written-back base of the four addressing modes. -/
def Obligations.AddressingModeTable : Prop :=
  ∀ (b : Word) (k : Nat),
    lowestAddress .ia b k = b ∧ writtenBack .ia b k = b + BitVec.ofNat 32 (4 * k) ∧
    lowestAddress .ib b k = b + 4 ∧ writtenBack .ib b k = b + BitVec.ofNat 32 (4 * k) ∧
    lowestAddress .da b k = b - BitVec.ofNat 32 (4 * k) + 4 ∧ writtenBack .da b k = b - BitVec.ofNat 32 (4 * k) ∧
    lowestAddress .db b k = b - BitVec.ofNat 32 (4 * k) ∧ writtenBack .db b k = b - BitVec.ofNat 32 (4 * k)

/-! ## Registers, modes, worlds -/

/-- spec/10_state.md R23: which physical register a number denotes in a mode, and that writing one number leaves every
other number as it was. -/
def Obligations.RegisterSelection : Prop :=
  (∀ (m : Mode) (n : RegNum),
    (∀ h : n.val < 8, physReg m n = some (.shared ⟨n.val, by omega⟩)) ∧
    (∀ h : 8 ≤ n.val ∧ n.val < 13, physReg m n =
      if m = .fiq then some (.fiqHigh ⟨n.val - 8, by omega⟩) else some (.shared ⟨n.val, by omega⟩)) ∧
    (n = 13 → physReg m n = some (.sp m.bank)) ∧ (n = 14 → physReg m n = some (.lr m.bank)) ∧
    (n = 15 → physReg m n = none)) ∧
  (∀ m m' : Mode, m.bank = m'.bank ↔ m = m' ∨ (m = .user ∧ m' = .system) ∨ (m = .system ∧ m' = .user)) ∧
  (∀ (s : State) (n k : RegNum) (v : Word), (s.setReg n v).reg n = v ∧ (k ≠ n → (s.setReg n v).reg k = s.reg k)) ∧
  (∀ (s : State) (p : Psr) (n : RegNum),
    ({ s with cpsr := p }).reg n = (match physReg p.mode n with | some q => s.regs.get q | none => s.pc))

/-- spec/10_state.md R26: the eight mode numbers; a CPSR with any other number is refused by what would load it. -/
def Obligations.ModeNumbers : Prop :=
  Mode.toBits .fiq = 0b10001 ∧ Mode.toBits .irq = 0b10010 ∧ Mode.toBits .supervisor = 0b10011 ∧
  Mode.toBits .monitor = 0b10110 ∧ Mode.toBits .abort = 0b10111 ∧ Mode.toBits .undefined = 0b11011 ∧
  Mode.toBits .user = 0b10000 ∧ Mode.toBits .system = 0b11111 ∧
  (∀ (b : BitVec 5) (m : Mode), Mode.ofBits? b = some m ↔ m.toBits = b) ∧
  (∀ (s : State) (w : Word), (∀ m : Mode, m.toBits ≠ w.extractLsb' 0 5) →
    restoredPsr s w = .error .notAMode ∧
    (s.curSpsr = some w → ∀ r, exceptionReturn r s = .refused .notAMode))

/-- spec/10_state.md R41, R42: the world, that entering Secure Monitor mode from the Non-secure world does not change
SCR.NS, and that User mode is the one unprivileged mode. -/
def Obligations.WorldAndPrivilege : Prop :=
  (∀ m : Mode, m.privileged = true ↔ m ≠ .user) ∧
  (∀ s : State, s.world = .secure ↔ s.scr.ns = false ∨ s.cpsr.mode = .monitor) ∧
  (∀ (x : Exception) (ret : Word) (s : State), s.world = .nonSecure →
    (takeException x ret s).scr.ns = true)

/-- spec/10_state.md R23: apart from SRS and an exception entry, no instruction changes a register that the current
mode does not see; an entry changes one such register, R14 of the mode entered. -/
def Obligations.HiddenBanksAreKept : Prop :=
  ∀ (i : Instr) (s t : State), (∀ am wb m, i ≠ .srs am wb m) → exec i s = .next t →
    ∀ p, (∀ n, physReg s.cpsr.mode n ≠ some p) →
      t.regs.get p = s.regs.get p ∨ (p = .lr t.cpsr.mode.bank ∧ t.curSpsr = some s.cpsr.toWord)

/-! ## Exception entry -/

/-- spec/60_exceptions.md R223, whole, with the modes of R220. `secure` is the world after the line that clears NS; `mon` is R223's. -/
def Obligations.EntrySavesAndForces : Prop :=
  ∀ (x : Exception) (ret : Word) (s : State), ∀ (secure mon : Prop),
    (secure ↔ s.scr.ns = false ∨ s.cpsr.mode = .monitor) →
    (mon ↔ x = .smc ∨ (x = .irq ∧ s.scr.irq = true) ∨ (x = .fiq ∧ s.scr.fiq = true) ∨
      ((∃ src, (src = .externalPrecise ∨ src = .externalImprecise) ∧ (x = .prefetchAbort src ∨ x = .dataAbort src)) ∧
        s.scr.ea = true)) →
    ∃ t, takeException x ret s = t ∧
      (s.cpsr.mode = .monitor → t.scr = { s.scr with ns := false }) ∧ (s.cpsr.mode ≠ .monitor → t.scr = s.scr) ∧
      (mon → t.cpsr.mode = .monitor ∧ t.cpsr.f = true ∧ t.cpsr.a = true ∧ t.cpsr.e = s.secureCtrl.ee) ∧
      (¬mon →
        (x = .undefined → t.cpsr.mode = .undefined) ∧ (x = .svc → t.cpsr.mode = .supervisor) ∧
        (∀ src, x = .prefetchAbort src ∨ x = .dataAbort src → t.cpsr.mode = .abort) ∧
        (x = .irq → t.cpsr.mode = .irq) ∧ (x = .fiq → t.cpsr.mode = .fiq) ∧
        (secure → t.cpsr.e = s.secureCtrl.ee) ∧ (¬secure → t.cpsr.e = s.nonSecureCtrl.ee) ∧
        (x = .fiq ∧ (secure ∨ s.scr.fw = true) → t.cpsr.f = true) ∧
        (¬(x = .fiq ∧ (secure ∨ s.scr.fw = true)) → t.cpsr.f = s.cpsr.f) ∧
        (t.cpsr.mode ∈ [.abort, .irq, .fiq] ∧ (secure ∨ s.scr.aw = true) → t.cpsr.a = true) ∧
        (¬(t.cpsr.mode ∈ [.abort, .irq, .fiq] ∧ (secure ∨ s.scr.aw = true)) → t.cpsr.a = s.cpsr.a)) ∧
      t.cpsr.t = false ∧ t.cpsr.j = false ∧ t.cpsr.i = true ∧
      { t.cpsr with mode := s.cpsr.mode, t := s.cpsr.t, j := s.cpsr.j, i := s.cpsr.i, f := s.cpsr.f, a := s.cpsr.a
                    e := s.cpsr.e } = s.cpsr ∧
      t.lr = ret ∧ sameRegsBut [.lr t.cpsr.mode.bank] s t ∧
      t.curSpsr = some s.cpsr.toWord ∧ (∀ b, b ≠ t.cpsr.mode.bank → t.spsr.get? b = s.spsr.get? b) ∧
      (mon → t.pc = vector x true .secure s) ∧ (¬mon ∧ secure → t.pc = vector x false .secure s) ∧
      (¬mon ∧ ¬secure → t.pc = vector x false .nonSecure s) ∧
      t.mem = s.mem ∧ t.stored = s.stored ∧ t.fi = s.fi ∧ t.secureCtrl = s.secureCtrl ∧
      t.nonSecureCtrl = s.nonSecureCtrl ∧ t.nonSecureBase = s.nonSecureBase ∧ t.secureBase = s.secureBase ∧
      t.monitorBase = s.monitorBase ∧ t.abortPending = s.abortPending ∧ t.bufferedErrors = s.bufferedErrors

/-- spec/60_exceptions.md R236, whole: the vector; the first handler instruction is fetched there in ARM state, with a
privileged mode's privileges, and as Secure after an entry to Secure Monitor mode. -/
def Obligations.VectorTable : Prop :=
  (∀ (x : Exception) (mon : Bool) (w : World) (s : State) (src : AbortSource) (off : Word),
    ((x = .undefined ∧ off = 0x04) ∨ ((x = .svc ∨ x = .smc) ∧ off = 0x08) ∨ (x = .prefetchAbort src ∧ off = 0x0C) ∨
      (x = .dataAbort src ∧ off = 0x10) ∨ (x = .irq ∧ off = 0x18) ∨ (x = .fiq ∧ off = 0x1C)) →
    vector x mon w s =
      if mon then s.monitorBase + off
      else if x = .irq ∧ (s.control w).ve = true then s.signals.irqAddr
      else if (s.control w).highVectors = true then 0xFFFF0000 + off
      else if w = .secure then s.secureBase + off else s.nonSecureBase + off) ∧
  (∀ s : State, s.control .secure = s.secureCtrl ∧ s.control .nonSecure = s.nonSecureCtrl) ∧
  (∀ (x : Exception) (ret : Word) (s : State),
    (takeException x ret s).fetchAddrs = (List.range 4).map (byteAddr (takeException x ret s).pc) ∧
    (takeException x ret s).cpsr.t = false ∧ (takeException x ret s).cpsr.mode.privileged = true ∧
    ((takeException x ret s).cpsr.mode = .monitor → (takeException x ret s).world = .secure))

/-- spec/60_exceptions.md R235: an exception in Secure Monitor mode clears SCR.NS and is otherwise the Secure world's. -/
def Obligations.EntryFromMonitorModeIsSecure : Prop :=
  ∀ (x : Exception) (ret : Word) (s : State), s.cpsr.mode = .monitor →
    (takeException x ret s).scr.ns = false ∧ (takeException x ret s).world = .secure ∧
    takeException x ret s = takeException x ret { s with scr := { s.scr with ns := false } } ∧
    ((takeException x ret s).cpsr.mode = .monitor ↔ x = .smc ∨ (x = .irq ∧ s.scr.irq = true) ∨
      (x = .fiq ∧ s.scr.fiq = true) ∨ (s.scr.ea = true ∧
        ∃ src, (src = .externalPrecise ∨ src = .externalImprecise) ∧ (x = .prefetchAbort src ∨ x = .dataAbort src))) ∧
    ((takeException x ret s).cpsr.mode = .monitor →
      (takeException x ret s).regs.lr.mon = ret ∧ (takeException x ret s).spsr.mon = s.cpsr.toWord ∧
      (takeException x ret s).cpsr.i = true ∧ (takeException x ret s).cpsr.f = true ∧
      (takeException x ret s).cpsr.a = true)

/-- spec/41_exception_return.md R154, R155: the return instruction of an exception undoes its entry; the CPSR is the one
of before, and the PC the return address less the instruction's offset. -/
def Obligations.ReturnUndoesEntry : Prop :=
  ∀ (x : Exception) (ret : Word) (s : State) (i : Instr) (offset : Word), s.cpsr.j = false →
    (i = .movsPcLr .al ∧ offset = 0) ∨ (i = .subsPcLr4 .al ∧ offset = 4) ∨ (i = .subsPcLr8 .al ∧ offset = 8) →
    ∃ u, exec i (takeException x ret s) = .next u ∧ u.cpsr = s.cpsr ∧ u.pc = ret - offset ∧
      sameRegsBut [.lr (takeException x ret s).cpsr.mode.bank] s u ∧ sameMemory s u

/-! ## Exception-generating instructions -/

/-- spec/42_exception_generating.md R160, R161: SVC in either state enters Supervisor mode with the address of the next
instruction, whatever the immediate. -/
def Obligations.SvcEntersSupervisorMode : Prop :=
  ∀ s : State,
    (∀ (c : Cond) (imm24 : BitVec 24), condHolds c s.cpsr = true →
      ∃ t, exec (.svc c imm24) s = .next t ∧ t = takeException .svc (s.pc + 4) s ∧ t.cpsr.mode = .supervisor ∧
        t.regs.lr.svc = s.pc + 4 ∧ t.spsr.svc = s.cpsr.toWord ∧ t.cpsr.f = s.cpsr.f ∧ t.cpsr.a = s.cpsr.a) ∧
    (∀ imm8 : BitVec 8,
      ∃ t, exec (.svcThumb imm8) s = .next t ∧ t = takeException .svc (s.pc + 2) s ∧ t.cpsr.mode = .supervisor ∧
        t.regs.lr.svc = s.pc + 2 ∧ t.spsr.svc = s.cpsr.toWord ∧ t.cpsr.t = false ∧ t.cpsr.f = s.cpsr.f ∧
        t.cpsr.a = s.cpsr.a)

/-- spec/42_exception_generating.md R162, spec/60_exceptions.md R233: SMC in a privileged mode enters Secure Monitor mode
through the Monitor table, masks everything, and keeps SCR.NS unless it was executed in Secure Monitor mode. -/
def Obligations.SmcEntersMonitorMode : Prop :=
  ∀ (c : Cond) (imm16 : BitVec 16) (s : State), condHolds c s.cpsr = true → s.cpsr.mode ≠ .user →
    ∃ t, exec (.smc c imm16) s = .next t ∧ t = takeException .smc (s.pc + 4) s ∧ t.cpsr.mode = .monitor ∧
      t.regs.lr.mon = s.pc + 4 ∧ t.spsr.mon = s.cpsr.toWord ∧ t.cpsr.a = true ∧ t.cpsr.i = true ∧ t.cpsr.f = true ∧
      t.cpsr.e = s.secureCtrl.ee ∧ t.pc = s.monitorBase + 8 ∧
      t.scr.ns = (if s.cpsr.mode = .monitor then false else s.scr.ns)

/-- spec/42_exception_generating.md R162, R165, spec/40_exception_handling_instructions.md R130: SMC in User mode, and SRS
naming Secure Monitor mode in the Non-secure world, in any mode, take the Undefined instruction exception and do
nothing else. -/
def Obligations.SmcAndSrsUndefinedCases : Prop :=
  ∀ (i : Instr) (s : State),
    ((∃ c imm16, i = .smc c imm16 ∧ condHolds c s.cpsr = true ∧ s.cpsr.mode = .user) ∨
      (∃ am wb, i = .srs am wb 0b10110 ∧ s.world = .nonSecure)) →
    ∃ t, exec i s = .next t ∧ t = takeException .undefined (s.pc + 4) s ∧ t.cpsr.mode = .undefined ∧
      t.regs.lr.und = s.pc + 4 ∧ t.spsr.und = s.cpsr.toWord ∧ t.scr.ns = s.scr.ns ∧
      sameRegsBut [.lr .und] s t ∧ t.mem = s.mem

/-- spec/42_exception_generating.md R163, R164: BKPT in either state is a Prefetch Abort with R14 = pc + 4, never routed
to Secure Monitor mode, so that `SUBS PC, R14, #4` retries it; in Halting debug-mode it is refused. The value of the
fault status is the model's choice (log 8). -/
def Obligations.BkptEntersAbortMode : Prop :=
  ∀ (i : Instr) (s : State), ((∃ imm16, i = .bkpt imm16) ∨ ∃ imm8, i = .bkptThumb imm8) →
    (s.params.haltingDebugMode = false →
      ∃ t, exec i s = .next t ∧ t = takeException (.prefetchAbort .breakpoint) (s.pc + 4) s ∧ t.cpsr.mode = .abort ∧
        t.regs.lr.abt = s.pc + 4 ∧ t.spsr.abt = s.cpsr.toWord ∧ t.faultStatus = .prefetchAbort .breakpoint ∧
        (s.cpsr.j = false → ∃ u, exec (.subsPcLr4 .al) t = .next u ∧ u.pc = s.pc ∧ u.cpsr = s.cpsr)) ∧
    (s.params.haltingDebugMode = true → exec i s = .refused .debugState)

/-- spec/42_exception_generating.md R165, R166: the permanently undefined patterns enter Undefined mode with the address
of the next instruction. -/
def Obligations.UdfEntersUndefinedMode : Prop :=
  ∀ s : State,
    (∀ imm16 : BitVec 16, ∃ t, exec (.udf imm16) s = .next t ∧ t = takeException .undefined (s.pc + 4) s ∧
      t.cpsr.mode = .undefined ∧ t.regs.lr.und = s.pc + 4 ∧ t.spsr.und = s.cpsr.toWord) ∧
    (∀ imm8 : BitVec 8, ∃ t, exec (.udfThumb imm8) s = .next t ∧ t = takeException .undefined (s.pc + 2) s ∧
      t.cpsr.mode = .undefined ∧ t.regs.lr.und = s.pc + 2 ∧ t.spsr.und = s.cpsr.toWord)

/-! ## Exception return -/

/-- spec/41_exception_return.md R150 to R153, R155: the SPSR becomes the CPSR, but for A and F where the Non-secure world
may not change them, and the PC becomes R14 less the offset. Hypotheses: a mode with an SPSR that holds a CPSR (R26),
not in Jazelle state (R27), and not Secure Monitor mode from the Non-secure world (R33). -/
def Obligations.ReturnInstructionsComplete : Prop :=
  ∀ (i : Instr) (c : Cond) (offset w : Word) (p : Psr) (s : State),
    (i = .movsPcLr c ∧ offset = 0) ∨ (i = .subsPcLr4 c ∧ offset = 4) ∨ (i = .subsPcLr8 c ∧ offset = 8) →
    condHolds c s.cpsr = true → s.curSpsr = some w → p.toWord = w → p.j = false →
    (s.world = .nonSecure → p.mode ≠ .monitor) →
    ∃ t, exec i s = .next t ∧ t.pc = s.lr - offset ∧
      t.cpsr = { p with
        a := (if s.world = .secure ∨ s.scr.aw = true then p.a else s.cpsr.a)
        f := (if s.world = .secure ∨ s.scr.fw = true then p.f else s.cpsr.f) } ∧
      keepsAllBut [] s t

/-- spec/10_state.md R32, spec/30_encoding.md R107, spec/93_implementation_defined.md U19, U24: what needs an SPSR is
refused in User and System mode. -/
def Obligations.NoSpsrIsRefused : Prop :=
  ∀ (s : State) (c : Cond), (s.cpsr.mode = .user ∨ s.cpsr.mode = .system) → condHolds c s.cpsr = true →
    exec (.movsPcLr c) s = .refused .noSpsr ∧ exec (.subsPcLr4 c) s = .refused .noSpsr ∧
    exec (.subsPcLr8 c) s = .refused .noSpsr ∧
    (∀ rd, rd ≠ 15 → exec (.mrs c true rd) s = .refused .noSpsr) ∧
    (∀ fields rm, exec (.msr c true fields rm) s = .refused .noSpsr) ∧
    (∀ am wb m, Mode.ofBits? m ≠ none → ¬(s.world = .nonSecure ∧ m = 0b10110) →
      exec (.srs am wb m) s = .refused .noSpsr)

/-! ## SRS, RFE, CPS -/

/-- spec/40_exception_handling_instructions.md R130: R14 and the SPSR of the current mode to two words at the stack of the
NAMED mode, whose R13 alone changes, and only with write-back. Naming User or System mode is refused (R107; O38). -/
def Obligations.SrsStoresReturnState : Prop :=
  ∀ (am : AddrMode) (wb : Bool) (m : Mode) (low saved : Word) (s : State), m ≠ .user → m ≠ .system →
    low = lowestAddress am (s.regs.sp.get m.bank) 2 → s.curSpsr = some saved →
    ¬(s.world = .nonSecure ∧ m = .monitor) → s.undisturbed 2 → Memory.wf s.mem = true →
    s.plainWord .write low → s.plainWord .write (low + 4) → s.canAdvance 4 →
    ∃ t, exec (.srs am wb m.toBits) s = .next t ∧
      memWord t.mem s.cpsr.e low = s.lr ∧ memWord t.mem s.cpsr.e (low + 4) = saved ∧
      t.pc = s.pc + 4 ∧ t.cpsr = s.cpsr ∧
      t.regs.sp.get m.bank = (if wb then writtenBack am (s.regs.sp.get m.bank) 2 else s.regs.sp.get m.bank) ∧
      keepsAllButStored [.sp m.bank] [low, low + 4] s t

/-- spec/40_exception_handling_instructions.md R131: the PC and the CPSR from two words; the write-back goes to the base
register of the mode of before. -/
def Obligations.RfeLoadsPcAndCpsr : Prop :=
  ∀ (am : AddrMode) (wb : Bool) (rn : RegNum) (low : Word) (p : Psr) (s : State),
    low = lowestAddress am (s.reg rn) 2 → s.cpsr.mode ≠ .user → rn ≠ 15 → s.undisturbed 2 →
    s.plainWord .read low → s.plainWord .read (low + 4) → memWord s.mem s.cpsr.e (low + 4) = p.toWord →
    p.j = false → (s.world = .nonSecure → p.mode ≠ .monitor) →
    ∃ t, exec (.rfe am wb rn) s = .next t ∧
      t.pc = (if p.t then memWord s.mem s.cpsr.e low &&& 0xFFFFFFFE else memWord s.mem s.cpsr.e low) ∧
      t.cpsr = { p with
        a := (if s.world = .secure ∨ s.scr.aw = true then p.a else s.cpsr.a)
        f := (if s.world = .secure ∨ s.scr.fw = true then p.f else s.cpsr.f) } ∧
      (∀ q ∈ s.dest rn, t.regs.get q = if wb then writtenBack am (s.reg rn) 2 else s.reg rn) ∧
      keepsAllBut (s.dest rn) s t

/-- spec/40_exception_handling_instructions.md R134: a handler that stores its return state on another mode's stack,
changes to that mode, and returns with RFE from that stack comes back to where R14 points, with the CPSR its SPSR held
and every register as it was. `imod`, `a`, `it`, `f` are the masks that its CPS changes. -/
def Obligations.SrsCpsRfeReturns : Prop :=
  ∀ (m : Mode) (imod : BitVec 2) (a it f : Bool) (p : Psr) (s s1 s2 : State),
    s.world = .secure → s.cpsr.mode.privileged = true → m ≠ .user → s.curSpsr = some p.toWord → p.j = false →
    Memory.wf s.mem = true → s.undisturbed 2 → s2.undisturbed 2 → s2.world = .secure →
    s.plainWord .write (s.regs.sp.get m.bank - 8) → s.plainWord .write (s.regs.sp.get m.bank - 4) →
    s2.plainWord .read (s.regs.sp.get m.bank - 8) → s2.plainWord .read (s.regs.sp.get m.bank - 4) →
    exec (.srs .db true m.toBits) s = .next s1 → exec (.cps imod true a it f m.toBits) s1 = .next s2 →
    ∃ u, exec (.rfe .ia true 13) s2 = .next u ∧ u.cpsr = p ∧
      u.pc = (if p.t then s.lr &&& 0xFFFFFFFE else s.lr) ∧ u.regs = s.regs ∧ u.spsr = s.spsr

/-- spec/40_exception_handling_instructions.md R132: CPS in a privileged mode changes the masks named, A and F only where
the world may change them, and the mode, together. -/
def Obligations.CpsChangesMasksAndMode : Prop :=
  ∀ (imod : BitVec 2) (mmod a it f : Bool) (mode : BitVec 5) (m : Mode) (s : State),
    cpsFieldsOk imod mmod a it f mode = true → s.cpsr.mode ≠ .user → s.canAdvance 4 →
    (mmod = true → m.toBits = mode) → (mmod = false → m = s.cpsr.mode) → (s.world = .nonSecure → m ≠ .monitor) →
    ∃ t, exec (.cps imod mmod a it f mode) s = .next t ∧ t.pc = s.pc + 4 ∧
      t.cpsr = { s.cpsr with
        mode := m
        a := (if imod.getLsbD 1 ∧ a ∧ (s.world = .secure ∨ s.scr.aw) then imod.getLsbD 0 else s.cpsr.a)
        i := (if imod.getLsbD 1 ∧ it then imod.getLsbD 0 else s.cpsr.i)
        f := (if imod.getLsbD 1 ∧ f ∧ (s.world = .secure ∨ s.scr.fw) then imod.getLsbD 0 else s.cpsr.f) } ∧
      keepsAllBut [] s t

/-- spec/40_exception_handling_instructions.md R133: the Thumb CPS changes the masks and never the mode. -/
def Obligations.ThumbCpsChangesMasks : Prop :=
  ∀ (im a it f : Bool) (s : State), (a = true ∨ it = true ∨ f = true) → s.cpsr.mode ≠ .user → s.canAdvance 2 →
    ∃ t, exec (.cpsThumb im a it f) s = .next t ∧ t.pc = s.pc + 2 ∧
      t.cpsr = { s.cpsr with
        a := (if a ∧ (s.world = .secure ∨ s.scr.aw) then im else s.cpsr.a)
        i := (if it then im else s.cpsr.i)
        f := (if f ∧ (s.world = .secure ∨ s.scr.fw) then im else s.cpsr.f) } ∧
      keepsAllBut [] s t

/-- spec/40_exception_handling_instructions.md R132, R133, spec/30_encoding.md R107: CPS has no effect in User mode; the
reserved combinations are refused in every mode (log 43), and a mode change to Secure Monitor mode from the
Non-secure world, or to a number that is no mode, in a privileged one. -/
def Obligations.CpsWithoutEffectOrRefused : Prop :=
  ∀ (imod : BitVec 2) (mmod a it f : Bool) (mode : BitVec 5) (s : State),
    (cpsFieldsOk imod mmod a it f mode = true → s.cpsr.mode = .user → s.canAdvance 4 →
      exec (.cps imod mmod a it f mode) s = .next { s with pc := s.pc + 4 }) ∧
    (∀ im, (a = true ∨ it = true ∨ f = true) → s.cpsr.mode = .user → s.canAdvance 2 →
      exec (.cpsThumb im a it f) s = .next { s with pc := s.pc + 2 }) ∧
    (cpsFieldsOk imod mmod a it f mode = false → exec (.cps imod mmod a it f mode) s = .refused .reservedFields) ∧
    (∀ im, exec (.cpsThumb im false false false) s = .refused .reservedFields) ∧
    (cpsFieldsOk imod true a it f mode = true → s.cpsr.mode ≠ .user → Mode.ofBits? mode = none →
      exec (.cps imod true a it f mode) s = .refused .notAMode) ∧
    (cpsFieldsOk imod true a it f 0b10110 = true → s.cpsr.mode ≠ .user → s.world = .nonSecure →
      exec (.cps imod true a it f 0b10110) s = .refused .monitorFromNonSecure)

/-! ## Status register moves -/

/-- spec/43_support_instructions.md R186: MRS of the CPSR in every mode, of the SPSR where there is one. -/
def Obligations.MrsReadsStatus : Prop :=
  ∀ (c : Cond) (r : Bool) (rd : RegNum) (w : Word) (s : State), condHolds c s.cpsr = true → rd ≠ 15 →
    (r = false → w = s.cpsr.toWord) → (r = true → s.curSpsr = some w) → s.canAdvance 4 →
    ∃ t, exec (.mrs c r rd) s = .next t ∧ t.reg rd = w ∧ t.pc = s.pc + 4 ∧ t.cpsr = s.cpsr ∧
      keepsAllBut (s.dest rd) s t

/-- spec/43_support_instructions.md R187, the CPSR: the mask is R187's, written out; `op` is the operand register, R15 as
`pc + 8`. -/
def Obligations.MsrWritesCpsr : Prop :=
  ∀ (c : Cond) (fields : BitVec 4) (rm : RegNum) (op bytes mask : Word) (p : Psr) (s : State),
    op = (if rm = 15 then s.pc + 8 else s.reg rm) →
    bytes = (if fields.getLsbD 0 then 0x000000FF else 0) ||| (if fields.getLsbD 1 then 0x0000FF00 else 0) |||
      (if fields.getLsbD 2 then 0x00FF0000 else 0) ||| (if fields.getLsbD 3 then 0xFF000000 else 0) →
    mask = (bytes &&& if s.cpsr.mode = .user then 0xF80F0200 else 0xF80F03DF) &&&
      (if s.world = .nonSecure ∧ s.scr.aw = false then ~~~0x00000100 else 0xFFFFFFFF) &&&
      (if s.world = .nonSecure ∧ s.scr.fw = false then ~~~0x00000040 else 0xFFFFFFFF) →
    condHolds c s.cpsr = true → (s.cpsr.mode ≠ .user → op &&& bytes &&& 0x01000020 = 0) →
    ¬(s.world = .nonSecure ∧ mask &&& 0x1F ≠ 0 ∧ op.extractLsb' 0 5 = 0b10110) →
    p.toWord = (s.cpsr.toWord &&& ~~~mask) ||| (op &&& mask) → s.canAdvance 4 →
    ∃ t, exec (.msr c false fields rm) s = .next t ∧ t.cpsr = p ∧ t.pc = s.pc + 4 ∧ keepsAllBut [] s t

/-- spec/43_support_instructions.md R187, the SPSR: any bit of R187's three masks in the bytes selected, in either
world. -/
def Obligations.MsrWritesSpsr : Prop :=
  ∀ (c : Cond) (fields : BitVec 4) (rm : RegNum) (op bytes w : Word) (s : State),
    op = (if rm = 15 then s.pc + 8 else s.reg rm) →
    bytes = (if fields.getLsbD 0 then 0x000000FF else 0) ||| (if fields.getLsbD 1 then 0x0000FF00 else 0) |||
      (if fields.getLsbD 2 then 0x00FF0000 else 0) ||| (if fields.getLsbD 3 then 0xFF000000 else 0) →
    condHolds c s.cpsr = true → s.curSpsr = some w → s.canAdvance 4 →
    ∃ t, exec (.msr c true fields rm) s = .next t ∧
      t.curSpsr = some ((w &&& ~~~(bytes &&& 0xF90F03FF)) ||| (op &&& (bytes &&& 0xF90F03FF))) ∧
      (∀ b, b ≠ s.cpsr.mode.bank → t.spsr.get? b = s.spsr.get? b) ∧
      t.pc = s.pc + 4 ∧ t.cpsr = s.cpsr ∧ t.regs = s.regs ∧ sameControl s t ∧ sameMemory s t ∧
      t.stored = s.stored ∧ sameSurroundings s t

/-! ## Data processing -/

/-- spec/43_support_instructions.md R180 to R185: MOV, ADD, SUB, ORR and BIC; R15 as an operand is `pc + 8`; no flag is
written. `op` is the source register's value, `imm` the rotated immediate. -/
def Obligations.DataProcessingResults : Prop :=
  ∀ (c : Cond) (rd r : RegNum) (rot : BitVec 4) (imm8 : BitVec 8) (op imm v : Word) (i : Instr) (s : State),
    op = (if r = 15 then s.pc + 8 else s.reg r) → imm = (imm8.setWidth 32).rotateRight (2 * rot.toNat) →
    (i = .mov c rd r ∧ v = op) ∨ (i = .add c rd r rot imm8 ∧ v.toNat = (op.toNat + imm.toNat) % 2 ^ 32) ∨
      (i = .sub c rd r rot imm8 ∧ v.toNat = (op.toNat + 2 ^ 32 - imm.toNat) % 2 ^ 32) ∨
      (i = .orr c rd r rot imm8 ∧ ∀ k, v.getLsbD k = (op.getLsbD k || imm.getLsbD k)) ∨
      (i = .bic c rd r rot imm8 ∧ ∀ k, v.getLsbD k = (op.getLsbD k && !imm.getLsbD k)) →
    condHolds c s.cpsr = true → rd ≠ 15 → s.canAdvance 4 →
    ∃ t, exec i s = .next t ∧ t.reg rd = v ∧ t.pc = s.pc + 4 ∧ t.cpsr = s.cpsr ∧ keepsAllBut (s.dest rd) s t

/-! ## Loads and stores -/

/-- spec/43_support_instructions.md R188, spec/20_memory.md R71: LDR of an ordinary word to a register other than the
PC. -/
def Obligations.LdrLoadsWord : Prop :=
  ∀ (c : Cond) (up : Bool) (rd rn : RegNum) (imm12 : BitVec 12) (base addr : Word) (s : State),
    base = (if rn = 15 then s.pc + 8 else s.reg rn) →
    addr = (if up then base + imm12.setWidth 32 else base - imm12.setWidth 32) →
    condHolds c s.cpsr = true → rd ≠ 15 → s.plainWord .read addr → s.canAdvance 4 →
    ∃ t, exec (.ldr c up rd rn imm12) s = .next t ∧
      (∀ k < 32, (t.reg rd).getLsbD k =
        (readByte s.mem (byteAddr addr (if s.cpsr.e then 3 - k / 8 else k / 8))).getLsbD (k % 8)) ∧
      t.pc = s.pc + 4 ∧ t.cpsr = s.cpsr ∧ keepsAllBut (s.dest rd) s t

/-- spec/43_support_instructions.md R188: LDR to the PC is a branch; bit 0 of the word selects Thumb state; a word that
ends in 0b10 is refused. -/
def Obligations.LdrToPcBranches : Prop :=
  ∀ (c : Cond) (up : Bool) (rn : RegNum) (imm12 : BitVec 12) (addr v : Word) (s : State),
    addr = offsetAddress up (operand rn s) imm12 → v = memWord s.mem s.cpsr.e addr →
    condHolds c s.cpsr = true → s.plainWord .read addr →
    (v.extractLsb' 0 2 ≠ 0b10 →
      ∃ t, exec (.ldr c up 15 rn imm12) s = .next t ∧ t.pc = v &&& 0xFFFFFFFE ∧
        t.cpsr = { s.cpsr with t := v.getLsbD 0 } ∧ keepsAllBut [] s t) ∧
    (v.extractLsb' 0 2 = 0b10 → exec (.ldr c up 15 rn imm12) s = .refused .loadedPcBits)

/-- spec/43_support_instructions.md R189, spec/20_memory.md R71: STR to an ordinary word; STR of R15 is refused
(spec/93_implementation_defined.md U26). -/
def Obligations.StrStoresWord : Prop :=
  ∀ (c : Cond) (up : Bool) (rd rn : RegNum) (imm12 : BitVec 12) (base addr : Word) (s : State),
    base = (if rn = 15 then s.pc + 8 else s.reg rn) →
    addr = (if up then base + imm12.setWidth 32 else base - imm12.setWidth 32) →
    condHolds c s.cpsr = true →
    (rd ≠ 15 → s.plainWord .write addr → Memory.wf s.mem = true → s.canAdvance 4 →
      ∃ t, exec (.str c up rd rn imm12) s = .next t ∧
        (∀ k < 4, readByte t.mem (byteAddr addr k) = (s.reg rd).extractLsb' (8 * (if s.cpsr.e then 3 - k else k)) 8) ∧
        t.pc = s.pc + 4 ∧ t.cpsr = s.cpsr ∧ keepsAllButStored [] [addr] s t) ∧
    (rd = 15 → exec (.str c up rd rn imm12) s = .refused .storesPc)

/-- spec/20_memory.md R81: a load returns the value of the latest earlier store to the same bytes. -/
def Obligations.LoadSeesTheStore : Prop :=
  ∀ (up : Bool) (rd rd' rn : RegNum) (imm12 : BitVec 12) (s : State), rn ≠ 15 → rd ≠ 15 → rd' ≠ 15 →
    s.plainWord .write (offsetAddress up (s.reg rn) imm12) → s.plainWord .read (offsetAddress up (s.reg rn) imm12) →
    Memory.wf s.mem = true → s.canAdvance 8 →
    ∃ t u, exec (.str .al up rd rn imm12) s = .next t ∧ exec (.ldr .al up rd' rn imm12) t = .next u ∧
      u.reg rd' = s.reg rd ∧ u.mem = t.mem

/-- spec/43_support_instructions.md R190: LDM, each listed register from its word, lowest register from the lowest
address; the base changes only by write-back. -/
def Obligations.LdmLoadsRegisters : Prop :=
  ∀ (c : Cond) (am : AddrMode) (wb : Bool) (rn : RegNum) (list : BitVec 16) (low : Word) (s : State),
    low = lowestAddress am (s.reg rn) (listedRegs list).length → condHolds c s.cpsr = true →
    (Instr.ldm c am wb rn list).wellFormed = true → s.undisturbed (listedRegs list).length →
    (∀ k < (listedRegs list).length, s.plainWord .read (wordAt low k)) → s.canAdvance 4 →
    ∃ t, exec (.ldm c am wb rn list) s = .next t ∧
      (∀ k r, (listedRegs list)[k]? = some r → t.reg r = memWord s.mem s.cpsr.e (wordAt low k)) ∧
      (wb = true → t.reg rn = writtenBack am (s.reg rn) (listedRegs list).length) ∧
      t.pc = s.pc + 4 ∧ t.cpsr = s.cpsr ∧
      keepsAllBut ((listedRegs list).flatMap s.dest ++ if wb then s.dest rn else []) s t

/-- spec/43_support_instructions.md R191: STM, each listed register to its word, read before the write-back. -/
def Obligations.StmStoresRegisters : Prop :=
  ∀ (c : Cond) (am : AddrMode) (wb : Bool) (rn : RegNum) (list : BitVec 16) (low : Word) (s : State),
    low = lowestAddress am (s.reg rn) (listedRegs list).length → condHolds c s.cpsr = true →
    (Instr.stm c am wb rn list).wellFormed = true → s.undisturbed (listedRegs list).length →
    (∀ k < (listedRegs list).length, s.plainWord .write (wordAt low k)) → Memory.wf s.mem = true → s.canAdvance 4 →
    ∃ t, exec (.stm c am wb rn list) s = .next t ∧
      (∀ k r, (listedRegs list)[k]? = some r → memWord t.mem s.cpsr.e (wordAt low k) = s.reg r) ∧
      t.reg rn = (if wb then writtenBack am (s.reg rn) (listedRegs list).length else s.reg rn) ∧
      t.pc = s.pc + 4 ∧ t.cpsr = s.cpsr ∧
      keepsAllButStored (if wb then s.dest rn else [])
        ((List.range (listedRegs list).length).map (wordAt low)) s t

/-- The forms that the spec refuses (spec/93_implementation_defined.md U20 to U26, U29) and that no other statement
holds:
R15 as the destination of MOV, ADD, SUB, ORR, BIC and MRS (spec/43_support_instructions.md R180 (d), R186), as what STR
stores (R189) and as the base of RFE; the lists and bases of LDM and STM (R190, R191); SRS that names User or System
mode or no mode (spec/30_encoding.md R107); RFE in User mode (spec/40_exception_handling_instructions.md R131); MSR to the
CPSR that would write T or J, leave no mode, or enter Secure Monitor mode from the Non-secure world (R187); a return and
RFE of a word with J set, with no mode, or, in the Non-secure world, with Secure Monitor mode (spec/10_state.md R26, R27,
R33 (e)); and going on past the top of memory (spec/92_eei_decisions.md D12, log 24), for every instruction that goes on to
the next one: data processing, MRS, MSR, LDR, STR, LDM, STM, SRS, CPS and Thumb CPS, and any whose condition fails. -/
def Obligations.UnpredictableFormsStop : Prop :=
  ∀ (c : Cond) (am : AddrMode) (up wb r : Bool) (rn : RegNum) (list : BitVec 16) (rot : BitVec 4) (imm8 : BitVec 8)
    (imm12 : BitVec 12) (s : State), condHolds c s.cpsr = true →
    exec (.mov c 15 rn) s = .refused .destinationIsPc ∧ exec (.add c 15 rn rot imm8) s = .refused .destinationIsPc ∧
    exec (.sub c 15 rn rot imm8) s = .refused .destinationIsPc ∧
    exec (.orr c 15 rn rot imm8) s = .refused .destinationIsPc ∧
    exec (.bic c 15 rn rot imm8) s = .refused .destinationIsPc ∧ exec (.mrs c r 15) s = .refused .destinationIsPc ∧
    exec (.str c up 15 rn imm12) s = .refused .storesPc ∧
    (¬s.canAdvance 4 →
      (∀ rd, rd ≠ 15 → ∀ i ∈ [Instr.mov c rd rn, .add c rd rn rot imm8, .sub c rd rn rot imm8, .orr c rd rn rot imm8,
        .bic c rd rn rot imm8], exec i s = .fault .pastTop) ∧
      ∀ i c', condOf i = some c' → condHolds c' s.cpsr = false → exec i s = .fault .pastTop) ∧
    ((Instr.ldm c am wb rn list).wellFormed = false → ∃ e, e ∈ [.registerList, .baseIsPc, .baseInList] ∧
      exec (.ldm c am wb rn list) s = .refused e) ∧
    ((Instr.stm c am wb rn list).wellFormed = false → ∃ e, e ∈ [.registerList, .baseIsPc, .baseInList] ∧
      exec (.stm c am wb rn list) s = .refused e) ∧
    (∀ m ∈ [Mode.user, .system], s.curSpsr ≠ none → exec (.srs am wb m.toBits) s = .refused .srsUserBank) ∧
    (∀ b : BitVec 5, (∀ m : Mode, m.toBits ≠ b) → exec (.srs am wb b) s = .refused .notAMode) ∧
    (s.cpsr.mode = .user → exec (.rfe am wb rn) s = .refused .rfeInUserMode) ∧
    (s.cpsr.mode ≠ .user → exec (.rfe am wb 15) s = .refused .baseIsPc) ∧
    (∀ (fields : BitVec 4) (op bytes : Word), op = (if rn = 15 then s.pc + 8 else s.reg rn) →
      bytes = (if fields.getLsbD 0 then 0x000000FF else 0) ||| (if fields.getLsbD 1 then 0x0000FF00 else 0) |||
        (if fields.getLsbD 2 then 0x00FF0000 else 0) ||| (if fields.getLsbD 3 then 0xFF000000 else 0) →
      (s.cpsr.mode ≠ .user →
        (op &&& bytes &&& 0x01000020 ≠ 0 → exec (.msr c false fields rn) s = .refused .stateBitsWritten) ∧
        (op &&& bytes &&& 0x01000020 = 0 → fields.getLsbD 0 = true →
          ((∀ m : Mode, m.toBits ≠ op.extractLsb' 0 5) → exec (.msr c false fields rn) s = .refused .notAMode) ∧
          (op.extractLsb' 0 5 = 0b10110 → s.world = .nonSecure →
            exec (.msr c false fields rn) s = .refused .monitorFromNonSecure))) ∧
      (¬s.canAdvance 4 →
        (s.cpsr.mode = .user ∨ (op &&& bytes &&& 0x01000020 = 0 ∧ (fields.getLsbD 0 = true →
          ∃ m : Mode, m.toBits = op.extractLsb' 0 5 ∧ ¬(s.world = .nonSecure ∧ m = .monitor)))) →
        exec (.msr c false fields rn) s = .fault .pastTop)) ∧
    (∀ (i : Instr) (len : Nat) (rd : RegNum) (fields : BitVec 4) (imod : BitVec 2) (mmod a it f : Bool) (mode : BitVec 5)
      (m : Mode) (low : Word),
      (len = 4 ∧ i = .mrs c r rd ∧ rd ≠ 15 ∧ (r = true → s.curSpsr ≠ none)) ∨
        (len = 4 ∧ i = .msr c true fields rn ∧ s.curSpsr ≠ none) ∨
        (len = 4 ∧ i = .ldr c up rd rn imm12 ∧ rd ≠ 15 ∧ s.wordCompletes .read (offsetAddress up (operand rn s) imm12)) ∨
        (len = 4 ∧ i = .str c up rd rn imm12 ∧ rd ≠ 15 ∧
          s.wordCompletes .write (offsetAddress up (operand rn s) imm12)) ∨
        (len = 4 ∧ i = .ldm c am wb rn list ∧ i.wellFormed = true ∧ s.undisturbed (listedRegs list).length ∧
          low = lowestAddress am (s.reg rn) (listedRegs list).length ∧
          ∀ k < (listedRegs list).length, s.wordCompletes .read (wordAt low k)) ∨
        (len = 4 ∧ i = .stm c am wb rn list ∧ i.wellFormed = true ∧ s.undisturbed (listedRegs list).length ∧
          low = lowestAddress am (s.reg rn) (listedRegs list).length ∧
          ∀ k < (listedRegs list).length, s.wordCompletes .write (wordAt low k)) ∨
        (len = 4 ∧ i = .srs am wb m.toBits ∧ m ≠ .user ∧ m ≠ .system ∧ ¬(s.world = .nonSecure ∧ m = .monitor) ∧
          s.curSpsr ≠ none ∧ s.undisturbed 2 ∧ low = lowestAddress am (s.regs.sp.get m.bank) 2 ∧
          s.wordCompletes .write low ∧ s.wordCompletes .write (low + 4)) ∨
        (len = 4 ∧ i = .cps imod mmod a it f mode ∧ cpsFieldsOk imod mmod a it f mode = true ∧
          (s.cpsr.mode = .user ∨ (mmod = true → m.toBits = mode ∧ ¬(s.world = .nonSecure ∧ m = .monitor)))) ∨
        (len = 2 ∧ (∃ im, i = .cpsThumb im a it f) ∧ (a = true ∨ it = true ∨ f = true)) →
      ¬s.canAdvance len → exec i s = .fault .pastTop) ∧
    (∀ (i : Instr) (w low : Word),
      (i ∈ [Instr.movsPcLr c, .subsPcLr4 c, .subsPcLr8 c] ∧ s.curSpsr = some w) ∨
        (i = .rfe am wb rn ∧ s.cpsr.mode ≠ .user ∧ rn ≠ 15 ∧ s.undisturbed 2 ∧ low = lowestAddress am (s.reg rn) 2 ∧
          s.plainWord .read low ∧ s.plainWord .read (low + 4) ∧ w = memWord s.mem s.cpsr.e (low + 4)) →
      ((∀ m : Mode, m.toBits ≠ w.extractLsb' 0 5) → exec i s = .refused .notAMode) ∧
      (∀ p : Psr, p.toWord = w →
        (p.j = true → exec i s = .refused .jazelleState) ∧
        (p.j = false → p.mode = .monitor → s.world = .nonSecure → exec i s = .refused .monitorFromNonSecure)))

/-- spec/20_memory.md R78: which cause gives which abort of a data access, a read or a write, and which is imprecise and lets
the access complete (log 19). That such an error is held as one more in a count of unreported ones is the model's choice
(log 20). -/
def Obligations.AbortClassification : Prop :=
  ∀ (s : State) (ty : AccessType) (toPcOrPsr : Bool) (a : Word), ty = .read ∨ ty = .write →
    (∀ f, s.abortCause ty a 4 = some (.mmu f) → s.dataAbort ty toPcOrPsr a = some (.mmu f)) ∧
    (s.abortCause ty a 4 = some .tableWalk → s.dataAbort ty toPcOrPsr a = some .externalPrecise) ∧
    (s.abortCause ty a 4 = some .axiError →
      ((ty = .read ∧ (s.fi = true ∨ toPcOrPsr = true)) ∨ s.stronglyOrderedAt a 4 = true →
        s.dataAbort ty toPcOrPsr a = some .externalPrecise) ∧
      (¬((ty = .read ∧ (s.fi = true ∨ toPcOrPsr = true)) ∨ s.stronglyOrderedAt a 4 = true) →
        s.dataAbort ty toPcOrPsr a = none ∧
        (s.noteImprecise ty toPcOrPsr a).bufferedErrors = s.bufferedErrors + 1)) ∧
    (s.abortCause ty a 4 = none → s.dataAbort ty toPcOrPsr a = none ∧ s.noteImprecise ty toPcOrPsr a = s)

/-- spec/20_memory.md R73, R85, spec/60_exceptions.md R229, R230, R246: LDR and STR whose access is misaligned or takes a
precise abort write nothing and take the Data Abort, R14 = pc + 8; a misaligned access is refused when
`strict_alignment` is false. LDR to the PC is one of them; STR of R15 is refused before any access (`StrStoresWord`). -/
def Obligations.LdrStrTakeDataAbort : Prop :=
  ∀ (c : Cond) (up : Bool) (rd rn : RegNum) (imm12 : BitVec 12) (addr : Word) (ty : AccessType) (i : Instr)
    (src : AbortSource) (s : State),
    addr = offsetAddress up (operand rn s) imm12 → condHolds c s.cpsr = true →
    (i = .ldr c up rd rn imm12 ∧ ty = .read) ∨ (i = .str c up rd rn imm12 ∧ ty = .write ∧ rd ≠ 15) →
    (s.wordAborts ty (ty = .read ∧ rd = 15) addr src →
      ∃ t, exec i s = .next t ∧ t = takeException (.dataAbort src) (s.pc + 8) s ∧ t.lr = s.pc + 8 ∧
        t.curSpsr = some s.cpsr.toWord ∧ sameRegsBut [.lr t.cpsr.mode.bank] s t ∧ t.mem = s.mem ∧
        t.cpsr.mode = (if s.scr.ea = true ∧ abortIsExternal src = true then .monitor else .abort)) ∧
    (wordAligned addr = false → s.params.strictAlignment = false → exec i s = .refused .unalignedData)

/-- spec/20_memory.md R73, R76, spec/60_exceptions.md R229, R230, R246, spec/43_support_instructions.md R191: STM whose word
`k` aborts, as a misaligned first word does with `strict_alignment`, takes the Data Abort with R14 = pc + 8, in Abort mode, or in Secure Monitor mode when the abort is external and
SCR.EA is set. It has stored the words before `k` and nothing else; every register but R14 of the mode entered, the base
among them, keeps its value. A misaligned word is refused when `strict_alignment` is false. -/
def Obligations.StmAbortKeepsPrefixAndBase : Prop :=
  ∀ (c : Cond) (am : AddrMode) (wb : Bool) (rn : RegNum) (list : BitVec 16) (low : Word) (k : Nat)
    (src : AbortSource) (s : State),
    low = lowestAddress am (s.reg rn) (listedRegs list).length → condHolds c s.cpsr = true →
    (Instr.stm c am wb rn list).wellFormed = true → s.undisturbed (listedRegs list).length →
    k < (listedRegs list).length → (∀ j < k, s.plainWord .write (wordAt low j)) → Memory.wf s.mem = true →
    (s.wordAborts .write false (wordAt low k) src →
      ∃ t, exec (.stm c am wb rn list) s = .next t ∧ entersFrom (.dataAbort src) (s.pc + 8) s t ∧
        t.cpsr.mode = (if s.scr.ea = true ∧ abortIsExternal src = true then .monitor else .abort) ∧
        t.lr = s.pc + 8 ∧ t.curSpsr = some s.cpsr.toWord ∧
        (∀ j r, j < k → (listedRegs list)[j]? = some r → memWord t.mem s.cpsr.e (wordAt low j) = s.reg r) ∧
        sameMemoryOutside ((List.range k).map (wordAt low)) s t ∧ sameRegsBut [.lr t.cpsr.mode.bank] s t) ∧
    (wordAligned (wordAt low k) = false → s.params.strictAlignment = false →
      exec (.stm c am wb rn list) s = .refused .unalignedData)

/-- spec/20_memory.md R73, R76, spec/60_exceptions.md R229, R230, spec/40_exception_handling_instructions.md R130: SRS whose
word `k` aborts, the first (0), as a misaligned one does with `strict_alignment`, or the second (1), takes the Data Abort with R14 = pc + 8, in Abort mode, or in Secure Monitor mode
when the abort is external and SCR.EA is set. When the first aborts nothing is stored, when the second, the first is;
R13 of the named mode, as every register but R14 of the mode entered, keeps its value. A misaligned word is refused when
`strict_alignment` is false. -/
def Obligations.SrsAbortKeepsFirstWordAndBase : Prop :=
  ∀ (am : AddrMode) (wb : Bool) (m : Mode) (low saved : Word) (k : Nat) (src : AbortSource) (s : State),
    m ≠ .user → m ≠ .system → ¬(s.world = .nonSecure ∧ m = .monitor) →
    low = lowestAddress am (s.regs.sp.get m.bank) 2 → s.curSpsr = some saved → s.undisturbed 2 →
    Memory.wf s.mem = true → k < 2 → (∀ j < k, s.plainWord .write (wordAt low j)) →
    (s.wordAborts .write false (wordAt low k) src →
      ∃ t, exec (.srs am wb m.toBits) s = .next t ∧ entersFrom (.dataAbort src) (s.pc + 8) s t ∧
        t.cpsr.mode = (if s.scr.ea = true ∧ abortIsExternal src = true then .monitor else .abort) ∧
        t.lr = s.pc + 8 ∧ t.curSpsr = some s.cpsr.toWord ∧
        (k = 0 → sameMemory s t) ∧
        (k = 1 → memWord t.mem s.cpsr.e low = s.lr ∧ sameMemoryOutside [low] s t) ∧
        t.regs.sp = s.regs.sp ∧ sameRegsBut [.lr t.cpsr.mode.bank] s t) ∧
    (wordAligned (wordAt low k) = false → s.params.strictAlignment = false →
      exec (.srs am wb m.toBits) s = .refused .unalignedData)

/-- spec/20_memory.md R73, spec/60_exceptions.md R229, R230, R246, spec/43_support_instructions.md R190,
spec/40_exception_handling_instructions.md R131: LDM and RFE of which a word aborts, as a misaligned first word does with
`strict_alignment`, take the Data Abort with R14 = pc + 8, in Abort mode, or in Secure Monitor mode
when the abort is external and SCR.EA is set. They keep the base register; RFE keeps every register, and LDM every one
that is not listed (what a listed one holds is log 35). R14 of the mode entered is the entry's. A misaligned word is
refused when `strict_alignment` is false. -/
def Obligations.LoadAbortKeepsBase : Prop :=
  ∀ (c : Cond) (am : AddrMode) (wb : Bool) (rn : RegNum) (list : BitVec 16) (low : Word) (k n : Nat) (i : Instr)
    (src : AbortSource) (s : State),
    (i = .ldm c am wb rn list ∧ n = (listedRegs list).length ∧ condHolds c s.cpsr = true ∧ i.wellFormed = true) ∨
      (i = .rfe am wb rn ∧ n = 2 ∧ s.cpsr.mode ≠ .user ∧ rn ≠ 15 ∧ list = 0) →
    low = lowestAddress am (s.reg rn) n → s.undisturbed n →
    k < n → (∀ j < k, s.plainWord .read (wordAt low j)) →
    (s.wordAborts .read (list = 0) (wordAt low k) src →
      ∃ t, exec i s = .next t ∧ entersFrom (.dataAbort src) (s.pc + 8) s t ∧
        t.cpsr.mode = (if s.scr.ea = true ∧ abortIsExternal src = true then .monitor else .abort) ∧
        t.lr = s.pc + 8 ∧ t.curSpsr = some s.cpsr.toWord ∧ t.mem = s.mem ∧
        (∀ q ∈ s.dest rn, q ≠ .lr t.cpsr.mode.bank → t.regs.get q = s.regs.get q) ∧
        sameRegsBut (.lr t.cpsr.mode.bank :: (listedRegs list).flatMap s.dest) s t) ∧
    (wordAligned (wordAt low k) = false → s.params.strictAlignment = false → exec i s = .refused .unalignedData)

/-- spec/20_memory.md R75, spec/60_exceptions.md R222, R237, R248, spec/70_reset_and_hazards.md R300: inside STM, LDM, SRS or
RFE an unmasked FIQ, else an unmasked IRQ, with FI = 1 is taken with R14 = pc + 4, so that `SUBS PC, R14, #4` starts the
instruction again; reset, before both and whatever FI is, holds the machine. With no reset and no interrupt that may be
taken, nothing stops the instruction. Either way the words stored before it stay stored, the base keeps its value, LDM changes
no register that is not listed (log 35) and the others none. That it may arrive after `k` accesses for each `k` up to all of
them, before the write-back, that the interrupt registers then hold the levels signalled, and that reset being held leaves
the registers as they are, is the model's choice (log 37). `rst`, `fiq` and `irq` are what is signalled, `vals` are the words a store stores, `changed` the registers a load may have changed. -/
def Obligations.InterruptedStmIsRestartable : Prop :=
  (∀ (rst : Bool) (fiq irq : Level) (k n : Nat) (s : State), s.signals.midEvent = some ⟨rst, fiq, irq, k⟩ →
    rst = false → (s.fi = false ∨ s.params.lowLatencyInterruptible = false ∨
      ((fiq = .high ∨ s.cpsr.f = true) ∧ (irq = .high ∨ s.cpsr.i = true))) → s.undisturbed n) ∧
  (∀ (c : Cond) (am : AddrMode) (wb : Bool) (rn : RegNum) (list : BitVec 16) (m : Mode) (i : Instr) (ty : AccessType)
    (n k : Nat) (base low : Word) (vals : List Word) (changed : List PhysReg) (rst : Bool) (fiq irq : Level) (s : State),
    (i = .stm c am wb rn list ∧ condHolds c s.cpsr = true ∧ i.wellFormed = true ∧ base = s.reg rn ∧
        n = (listedRegs list).length ∧ ty = .write ∧ vals = (listedRegs list).map s.reg ∧ changed = []) ∨
      (i = .ldm c am wb rn list ∧ condHolds c s.cpsr = true ∧ i.wellFormed = true ∧ base = s.reg rn ∧
        n = (listedRegs list).length ∧ ty = .read ∧ vals = [] ∧ changed = (listedRegs list).flatMap s.dest) ∨
      (i = .srs am wb m.toBits ∧ m ≠ .user ∧ m ≠ .system ∧ ¬(s.world = .nonSecure ∧ m = .monitor) ∧
        base = s.regs.sp.get m.bank ∧ n = 2 ∧ ty = .write ∧ (∃ saved, s.curSpsr = some saved ∧ vals = [s.lr, saved]) ∧
        changed = []) ∨
      (i = .rfe am wb rn ∧ s.cpsr.mode ≠ .user ∧ rn ≠ 15 ∧ base = s.reg rn ∧ n = 2 ∧ ty = .read ∧ vals = [] ∧
        changed = []) →
    low = lowestAddress am base n →
    rst = true ∨ (s.fi = true ∧ s.params.lowLatencyInterruptible = true ∧
      ((fiq = .low ∧ s.cpsr.f = false) ∨ (irq = .low ∧ s.cpsr.i = false))) →
    s.signals.midEvent = some ⟨rst, fiq, irq, k⟩ → k ≤ n → (∀ j < k, s.plainWord ty (wordAt low j)) → Memory.wf s.mem = true →
    ∃ t, exec i s = .next t ∧
      (∀ j v, j < k → vals[j]? = some v → memWord t.mem s.cpsr.e (wordAt low j) = v) ∧
      sameMemoryOutside (if ty = .write then (List.range k).map (wordAt low) else []) s t ∧
      (rst = true → t.inReset = true ∧ t.pc = s.pc ∧ t.cpsr = s.cpsr ∧ t.spsr = s.spsr ∧ sameControl s t ∧
        sameRegsBut changed s t ∧ ∀ q ∈ s.dest rn, t.regs.get q = s.regs.get q) ∧
      (∀ (x : Interrupt) (u : State), rst = false → x = (if fiq = .low ∧ s.cpsr.f = false then .fiq else .irq) →
        u = { s with signals := { s.signals with fiqReg := fiq, irqReg := irq } } →
        entersFrom x.exception (s.pc + 4) u t ∧ t.signals = u.signals ∧
        t.cpsr.mode = (match x with
          | .irq => if s.scr.irq then .monitor else .irq
          | .fiq => if s.scr.fiq then .monitor else .fiq) ∧
        t.lr = s.pc + 4 ∧ t.curSpsr = some s.cpsr.toWord ∧ sameRegsBut (.lr t.cpsr.mode.bank :: changed) s t ∧
        (∀ q ∈ s.dest rn, q ≠ .lr t.cpsr.mode.bank → t.regs.get q = s.regs.get q) ∧
        (s.cpsr.j = false → ∃ u, exec (.subsPcLr4 .al) t = .next u ∧ u.pc = s.pc ∧ u.cpsr = s.cpsr)))

/-- spec/20_memory.md R87, spec/60_exceptions.md R242: LDR, LDR to the PC (spec/43_support_instructions.md R188) and STR at a
device address, and LDM, RFE, STM and SRS of which any words are at device addresses, in the order of their accesses (R74,
spec/70_reset_and_hazards.md R304: `acc` are the accesses with their words, `dev` those at devices); the bus sees the access, memory does not change, and the word read is the environment's next answer
(log 21), the word written the register's (log 34); the store is remembered (R84). An IRQ entry to IRQADDR acknowledges the vector to the VIC, and no
other entry reaches the bus (log 22). -/
def Obligations.DeviceAccessesReachTheBus : Prop :=
  (∀ (c : Cond) (up : Bool) (rd rn : RegNum) (imm12 : BitVec 12) (addr : Word) (s : State),
    addr = offsetAddress up (operand rn s) imm12 → condHolds c s.cpsr = true → wordAligned addr = true →
    s.deviceAt addr 4 = true →
    (s.abortCause .read addr 4 = none → rd ≠ 15 → s.canAdvance 4 →
      ∃ t v, exec (.ldr c up rd rn imm12) s = .next t ∧ t.reg rd = v ∧
        (∀ w rest, s.deviceAnswers = w :: rest → v = w ∧ t.deviceAnswers = rest) ∧
        t.busLog = s.busLog ++ [.deviceRead addr v] ∧ t.mem = s.mem ∧ sameRegsBut (s.dest rd) s t ∧
        t.pc = s.pc + 4 ∧ t.cpsr = s.cpsr) ∧
    (s.abortCause .read addr 4 = none → ∀ v rest, s.deviceAnswers = v :: rest →
      (v.extractLsb' 0 2 ≠ 0b10 → ∃ t, exec (.ldr c up 15 rn imm12) s = .next t ∧ t.pc = v &&& 0xFFFFFFFE ∧
        t.cpsr = { s.cpsr with t := v.getLsbD 0 } ∧ t.deviceAnswers = rest ∧
        t.busLog = s.busLog ++ [.deviceRead addr v] ∧ t.mem = s.mem ∧ t.regs = s.regs) ∧
      (v.extractLsb' 0 2 = 0b10 → exec (.ldr c up 15 rn imm12) s = .refused .loadedPcBits)) ∧
    (s.abortCause .write addr 4 = none → rd ≠ 15 → s.canAdvance 4 →
      ∃ t, exec (.str c up rd rn imm12) s = .next t ∧
        t.busLog = s.busLog ++ [.deviceWrite addr (s.reg rd)] ∧ t.mem = s.mem ∧ t.regs = s.regs ∧
        storedGrowsBy [addr] s t ∧ t.pc = s.pc + 4 ∧ t.cpsr = s.cpsr)) ∧
  (∀ (c : Cond) (am : AddrMode) (wb : Bool) (rn : RegNum) (list : BitVec 16) (m : Mode) (i : Instr) (n : Nat)
    (base low : Word) (vals rest : List Word) (acc dev : List (Word × Word)) (changed : List PhysReg) (s : State),
    low = lowestAddress am base n → s.undisturbed n → vals.length = n →
    acc = ((List.range n).map (wordAt low)).zip vals → dev = acc.filter (fun p => s.deviceAt p.1 4) →
    (∀ p ∈ acc, wordAligned p.1 = true) →
    ((∀ p ∈ acc, s.abortCause .read p.1 4 = none) →
      (∀ p ∈ acc, s.deviceAt p.1 4 = false → p.2 = memWord s.mem s.cpsr.e p.1) →
      s.deviceAnswers = dev.map (·.2) ++ rest →
      (i = .ldm c am wb rn list → base = s.reg rn → n = (listedRegs list).length → condHolds c s.cpsr = true →
        i.wellFormed = true → s.canAdvance 4 →
        ∃ t, exec i s = .next t ∧ (∀ p ∈ (listedRegs list).zip vals, t.reg p.1 = p.2) ∧
          (wb = true → t.reg rn = writtenBack am base n) ∧ t.pc = s.pc + 4 ∧ t.cpsr = s.cpsr ∧ t.mem = s.mem ∧
          t.deviceAnswers = rest ∧ t.busLog = s.busLog ++ dev.map (fun p => .deviceRead p.1 p.2) ∧
          sameRegsBut ((listedRegs list).flatMap s.dest ++ if wb then s.dest rn else []) s t) ∧
      (∀ p : Psr, i = .rfe am wb rn → base = s.reg rn → n = 2 → s.cpsr.mode ≠ .user → rn ≠ 15 →
        vals = [vals.getD 0 0, p.toWord] → p.j = false → (s.world = .nonSecure → p.mode ≠ .monitor) →
        ∃ t, exec i s = .next t ∧ t.pc = (if p.t then vals.getD 0 0 &&& 0xFFFFFFFE else vals.getD 0 0) ∧
          t.cpsr = { p with
            a := (if s.world = .secure ∨ s.scr.aw = true then p.a else s.cpsr.a)
            f := (if s.world = .secure ∨ s.scr.fw = true then p.f else s.cpsr.f) } ∧
          (∀ q ∈ s.dest rn, t.regs.get q = if wb then writtenBack am base 2 else base) ∧ t.mem = s.mem ∧
          t.deviceAnswers = rest ∧ t.busLog = s.busLog ++ dev.map (fun p => .deviceRead p.1 p.2) ∧
          sameRegsBut (s.dest rn) s t)) ∧
    ((∀ p ∈ acc, s.abortCause .write p.1 4 = none) → Memory.wf s.mem = true → s.canAdvance 4 →
      (i = .stm c am wb rn list ∧ base = s.reg rn ∧ n = (listedRegs list).length ∧ condHolds c s.cpsr = true ∧
          i.wellFormed = true ∧ vals = (listedRegs list).map s.reg ∧ changed = s.dest rn) ∨
        (i = .srs am wb m.toBits ∧ m ≠ .user ∧ m ≠ .system ∧ ¬(s.world = .nonSecure ∧ m = .monitor) ∧
          base = s.regs.sp.get m.bank ∧ n = 2 ∧ (∃ saved, s.curSpsr = some saved ∧ vals = [s.lr, saved]) ∧
          changed = [.sp m.bank]) →
      ∃ t, exec i s = .next t ∧ (∀ p ∈ acc, s.deviceAt p.1 4 = false → memWord t.mem s.cpsr.e p.1 = p.2) ∧
        sameMemoryOutside ((acc.filter fun p => !s.deviceAt p.1 4).map (·.1)) s t ∧
        t.busLog = s.busLog ++ dev.map (fun p => .deviceWrite p.1 p.2) ∧ storedGrowsBy (acc.map (·.1)) s t ∧
        (∀ q ∈ changed, t.regs.get q = if wb then writtenBack am base n else base) ∧ sameRegsBut changed s t ∧
        t.pc = s.pc + 4 ∧ t.cpsr = s.cpsr)) ∧
  (∀ (x : Exception) (ret : Word) (s : State),
    (x = .irq ∧ s.scr.irq = false ∧ (s.control s.world).ve = true →
      (takeException x ret s).pc = s.signals.irqAddr ∧
      (takeException x ret s).busLog = s.busLog ++ [.vicAcknowledge s.signals.irqAddr]) ∧
    (¬(x = .irq ∧ s.scr.irq = false ∧ (s.control s.world).ve = true) → (takeException x ret s).busLog = s.busLog))

/-! ## The step -/

/-- spec/60_exceptions.md R221 step 6, spec/20_memory.md R72, R85: at a boundary that asks for nothing else, with the bytes at
the PC fetchable and an instruction, the step is that instruction's meaning on the state the boundary and the fetch have
left; with bytes that are no instruction it refuses (spec/30_encoding.md R106), and where an instruction stored a byte of
it, in memory or at a device, the machine stops (spec/20_memory.md R84, spec/93_implementation_defined.md U33). The bytes are those of memory, and then the
fetch leaves the state as it was, or, at a device address, those of the device's answer `w` (log 21). What the boundary
leaves differs in the signals, the schedule, the map, the held errors and the time in which FI may change (log 15) alone. -/
def Obligations.StepRunsTheDecodedInstruction : Prop :=
  ∀ (s u v : State) (bytes : List Byte), u = s.afterBoundary → s.calmBoundary → interruptTaken u = none →
    u.cpsr.j = false → u.pc.toNat % u.fetchLength = 0 → u.abortCause .fetch u.pc u.fetchLength = none →
    impreciseTaken u = false →
    (u.deviceAt u.pc u.fetchLength = false ∧ v = u ∧
        bytes = u.fetchAddrs.map (readByte u.mem)) ∨
      (u.deviceAt u.pc u.fetchLength = true ∧ ∃ w rest, u.deviceAnswers = w :: rest ∧
        v = { u with deviceAnswers := rest, busLog := u.busLog ++ [.deviceFetch u.pc w] } ∧
        bytes = (List.range u.fetchLength).map fun k => w.extractLsb' (8 * k) 8) →
    ((∀ a ∈ u.fetchAddrs, a ∉ u.stored) →
      (∀ i, decode u.cpsr.t bytes = .instr i → step s = exec i v) ∧
      (∀ e, decode u.cpsr.t bytes = .refused e → step s = .refused (.notInTable e))) ∧
    ((∃ a ∈ u.fetchAddrs, a ∈ u.stored) → step s = .fault .fetchStored) ∧
    u = { s with signals := u.signals, inputs := u.inputs, map := u.map, bufferedErrors := u.bufferedErrors
                 abortPending := u.abortPending, fiWindow := u.fiWindow }

/-- spec/60_exceptions.md R221 steps 2 and 3, R237, R240, R241: at a boundary an unmasked FIQ is taken, else an unmasked
IRQ, with R14 = pc + 4, before anything is fetched. -/
def Obligations.InterruptsAreTakenAtBoundaries : Prop :=
  ∀ s u : State, u = s.afterBoundary → s.calmBoundary →
    (u.signals.fiqReg = .low → u.cpsr.f = false → step s = .next (takeException .fiq (u.pc + 4) u)) ∧
    ((u.signals.fiqReg = .high ∨ u.cpsr.f = true) → u.signals.irqReg = .low → u.cpsr.i = false →
      step s = .next (takeException .irq (u.pc + 4) u))

/-- spec/60_exceptions.md R221 step 4, R227, R228, R237: a fetch that aborts is a Prefetch Abort with R14 = pc + 4, before a
pending imprecise abort, which stays pending. -/
def Obligations.FetchAbortIsTaken : Prop :=
  ∀ (s u : State) (cause : AbortCause) (src : AbortSource), u = s.afterBoundary → s.calmBoundary →
    interruptTaken u = none → u.cpsr.j = false → u.pc.toNat % u.fetchLength = 0 →
    u.abortCause .fetch u.pc u.fetchLength = some cause →
    src = (match cause with | .mmu f => .mmu f | .tableWalk => .externalPrecise | .axiError => .externalPrecise) →
    ∃ t, step s = .next t ∧ t = takeException (.prefetchAbort src) (u.pc + 4) u ∧ t.lr = u.pc + 4 ∧
      t.curSpsr = some u.cpsr.toWord ∧ t.abortPending = u.abortPending ∧
      t.cpsr.mode = (if s.scr.ea = true ∧ abortIsExternal src = true then .monitor else .abort)

/-- spec/10_state.md R46, spec/60_exceptions.md R221 step 5, R229, R236, R243: a pending imprecise abort is taken where A is
clear, with any value `ret` in R14, and cleared; where A is set no step that is not a reset loses it. The entry is made on
the state `v` that the fetch leaves, but for the count `d` of free values. What the fault status then holds is the model's
choice (log 8). -/
def Obligations.ImpreciseAbortIsTakenOrHeld : Prop :=
  ∀ s u : State, u = s.afterBoundary → s.calmBoundary → u.abortPending = true →
    (∀ bytes v, interruptTaken u = none → u.cpsr.a = false → fetch u = .bytes bytes v →
      ∃ t ret d, step s = .next t ∧
        t = takeException (.dataAbort .externalImprecise) ret { v with abortPending := false, draws := d } ∧
        t.abortPending = false ∧ t.lr = ret ∧ t.curSpsr = some u.cpsr.toWord ∧
        t.faultStatus = .dataAbort .externalImprecise ∧
        t.cpsr.mode = (if u.scr.ea = true then .monitor else .abort) ∧
        t.pc = (if u.scr.ea = true then u.monitorBase + 0x10
          else if (u.control u.world).highVectors = true then 0xFFFF0010
          else if u.world = .secure then u.secureBase + 0x10 else u.nonSecureBase + 0x10) ∧
        t.cpsr.i = true ∧ t.cpsr.t = false ∧ (u.world = .secure ∨ u.scr.aw = true → t.cpsr.a = true) ∧
        t.mem = u.mem ∧ sameRegsBut [.lr t.cpsr.mode.bank] u t) ∧
    (u.cpsr.a = true → ∀ t, step s = .next t → t.abortPending = true)

/-- spec/20_memory.md R78, R82, R85, spec/10_state.md R46, R47: STR to ordinary memory, and LDR with FI = 0, whose external
error is imprecise completes and stores or loads its word (that the word loaded is memory's is log 19); the error is held, and becomes pending when the environment reports it, with others or
alone, and at the latest at the next Data Synchronization Barrier. That held errors are counted is the model's choice
(log 20). -/
def Obligations.ImpreciseStoreErrorArrivesLater : Prop :=
  ∀ (c : Cond) (up : Bool) (rd rn : RegNum) (imm12 : BitVec 12) (addr : Word) (i : Instr) (ty : AccessType) (s : State),
    addr = offsetAddress up (operand rn s) imm12 → condHolds c s.cpsr = true → rd ≠ 15 → wordAligned addr = true →
    (i = .str c up rd rn imm12 ∧ ty = .write) ∨ (i = .ldr c up rd rn imm12 ∧ ty = .read ∧ s.fi = false) →
    s.abortCause ty addr 4 = some .axiError → s.stronglyOrderedAt addr 4 = false → s.deviceAt addr 4 = false →
    Memory.wf s.mem = true → s.canAdvance 4 →
    ∃ t, exec i s = .next t ∧ t.pc = s.pc + 4 ∧ t.cpsr = s.cpsr ∧
      (ty = .write → memWord t.mem s.cpsr.e addr = s.reg rd ∧ sameMemoryOutside [addr] s t ∧ t.regs = s.regs) ∧
      (ty = .read → t.reg rd = memWord s.mem s.cpsr.e addr ∧ t.mem = s.mem ∧ sameRegsBut (s.dest rd) s t) ∧
      t.abortPending = s.abortPending ∧ t.bufferedErrors = s.bufferedErrors + 1 ∧
      (∀ n, 0 < n → reportErrors n t =
        { t with abortPending := true, bufferedErrors := s.bufferedErrors + 1 - n }) ∧
      controlWrite .barrier t = .next { t with abortPending := true, bufferedErrors := 0 }

/-- spec/60_exceptions.md R239: after a Data Abort entry that stays out of Secure Monitor mode, an FIQ that is LOW and was
unmasked is taken at the very next boundary, before the handler's first instruction; after one routed to Secure
Monitor mode it is not. -/
def Obligations.DataAbortThenFiq : Prop :=
  ∀ (src : AbortSource) (ret : Word) (s t : State), t = takeException (.dataAbort src) ret s → s.cpsr.f = false →
    t.calmBoundary → t.nextBoundary.signals.fiqReg = .low →
    (¬(s.scr.ea = true ∧ abortIsExternal src = true) →
      ∃ u, step t = .next u ∧ u.lr = t.pc + 4 ∧ u.curSpsr = some t.cpsr.toWord ∧ u.regs.lr.abt = ret ∧
        u.spsr.abt = s.cpsr.toWord ∧ u.cpsr.mode = (if s.scr.fiq then .monitor else .fiq)) ∧
    (s.scr.ea = true ∧ abortIsExternal src = true → t.cpsr.f = true ∧ interruptTaken t.afterBoundary = none)

/-- spec/60_exceptions.md R232, spec/92_eei_decisions.md D5, spec/93_implementation_defined.md U14: a Non-secure FIQ taken in
FIQ mode with SCR.FW = 0 leaves F clear, and while nFIQ stays LOW the entry repeats at every boundary. -/
def Obligations.NonSecureFiqRepeats : Prop :=
  ∀ s t : State, s.world = .nonSecure → s.scr.fiq = false → s.scr.fw = false → s.cpsr.f = false →
    s.calmBoundary → s.nextBoundary.signals.fiqReg = .low → step s = .next t →
    t.cpsr.mode = .fiq ∧ t.cpsr.f = false ∧ t.world = .nonSecure ∧
      (t.calmBoundary → t.nextBoundary.signals.fiqReg = .low →
        ∃ u, step t = .next u ∧ u.cpsr = t.cpsr ∧ u.pc = t.pc ∧ u.regs.lr.fiq = t.pc + 4 ∧
          u.spsr.fiq = t.cpsr.toWord)

/-! ## Reset and control writes -/

/-- spec/70_reset_and_hazards.md R300, R301, spec/10_state.md R44: both pins LOW hold the machine, which does nothing; when
both are HIGH again the reset sequence forces the state R301 lists and leaves memory alone. -/
def Obligations.ResetHoldsThenForces : Prop :=
  ∀ s : State, legacyBigEndian s.params = false →
    (s.nextBoundary.signals.nRESETIN = .low → s.nextBoundary.signals.nVFPRESETIN = .low →
      ∃ t, step s = .next t ∧ t.inReset = true ∧ t.regs = s.regs ∧ t.pc = s.pc ∧ t.cpsr = s.cpsr ∧ t.spsr = s.spsr ∧
        t.mem = s.mem ∧ sameControl s t) ∧
    (s.inReset = true → s.nextBoundary.signals.nRESETIN = .high → s.nextBoundary.signals.nVFPRESETIN = .high →
      ∃ t, step s = .next t ∧ t.inReset = false ∧ t.scr.ns = false ∧ t.cpsr.mode = .supervisor ∧
        t.world = .secure ∧ t.cpsr.t = false ∧ t.cpsr.j = false ∧ t.cpsr.a = true ∧ t.cpsr.i = true ∧
        t.cpsr.f = true ∧ t.cpsr.e = resetEE s.params ∧ t.secureCtrl.ee = t.cpsr.e ∧
        t.pc = (if s.params.resetHighVectors then 0xFFFF0000 else 0x00000000) ∧ t.mem = s.mem ∧
        t.abortPending = false)

/-- spec/10_state.md R44: what the spec itself says of the state after reset, for `State.reset`, whose parameters are the
model's (log 4). -/
def Obligations.ResetStateValues : Prop :=
  State.reset.scr.ns = false ∧ State.reset.world = .secure ∧ State.reset.cpsr.mode = .supervisor ∧
    State.reset.cpsr.t = false ∧ State.reset.cpsr.j = false ∧ State.reset.cpsr.f = true ∧
    State.reset.cpsr.i = true ∧ State.reset.cpsr.a = true ∧
    State.reset.cpsr.e = resetEE State.reset.params ∧ State.reset.secureCtrl.ee = State.reset.cpsr.e ∧
    State.reset.secureCtrl.highVectors = State.reset.params.resetHighVectors ∧
    State.reset.pc = (if State.reset.params.resetHighVectors then 0xFFFF0000 else 0x00000000) ∧
    State.reset.abortPending = false ∧ State.reset.inReset = false

/-- spec/10_state.md R35, R36, spec/20_memory.md R82, spec/70_reset_and_hazards.md R303, spec/93_implementation_defined.md U9:
a step changes FI only by reset or by the prescribed sequence, in the Secure world, with IRQ and FIQ masked, shortly
after reset (log 15 says how long that is). A control write that the mode and world may make lands, and the step goes on
from there; one that they may not make has no effect; an FI change out of sequence or too late is refused; a barrier makes
held errors pending. Who may write what, privilege among it, is the model's choice (log 14), as is the event itself
(log 16). -/
def Obligations.FiChangesOnlyInSequence : Prop :=
  (∀ s t : State, step s = .next t → t.fi ≠ s.fi →
    (s.inReset = true ∧ t.fi = false) ∨
    (s.nextBoundary.control = some (.fi t.fi true) ∧ s.world = .secure ∧ s.cpsr.mode.privileged = true ∧
      s.cpsr.i = true ∧ s.cpsr.f = true ∧ s.fiWindow = true)) ∧
  (∀ (s d : State) (privileged secure : Prop), (privileged ↔ s.cpsr.mode ≠ .user) →
    (secure ↔ privileged ∧ (s.scr.ns = false ∨ s.cpsr.mode = .monitor)) →
    d = { s with bufferedErrors := 0, abortPending := s.abortPending || s.bufferedErrors ≠ 0 } →
    (∀ v, (secure → controlWrite (.scr v) s = .next { s with scr := v }) ∧
      (¬secure → controlWrite (.scr v) s = .next s)) ∧
    (∀ v, (secure → controlWrite (.controlBits .secure v) s = .next { s with secureCtrl := v }) ∧
      (¬secure → controlWrite (.controlBits .secure v) s = .next s)) ∧
    (∀ v, (privileged → controlWrite (.controlBits .nonSecure v) s = .next { s with nonSecureCtrl := v }) ∧
      (¬privileged → controlWrite (.controlBits .nonSecure v) s = .next s)) ∧
    (∀ v, (secure → controlWrite (.base .secure v) s = .next { s with secureBase := v }) ∧
      (secure → controlWrite (.base .monitor v) s = .next { s with monitorBase := v }) ∧
      (¬secure → controlWrite (.base .secure v) s = .next s ∧ controlWrite (.base .monitor v) s = .next s)) ∧
    (∀ v, (privileged → controlWrite (.base .nonSecure v) s = .next { s with nonSecureBase := v }) ∧
      (¬privileged → controlWrite (.base .nonSecure v) s = .next s)) ∧
    (∀ v, (¬secure ∨ v = s.fi → controlWrite (.fi v true) s = .next d ∧ controlWrite (.fi v false) s = .next s) ∧
      (secure → s.cpsr.i = true → s.cpsr.f = true → s.fiWindow = true →
        controlWrite (.fi v true) s = .next { d with fi := v }) ∧
      (secure → v ≠ s.fi → controlWrite (.fi v false) s = .refused .fiOutOfSequence) ∧
      (secure → v ≠ s.fi → ¬(s.cpsr.i = true ∧ s.cpsr.f = true ∧ s.fiWindow = true) →
        controlWrite (.fi v true) s = .refused .fiOutOfSequence)) ∧
    controlWrite .barrier s = .next d) ∧
  (∀ (s u : State) (c : ControlWrite), legacyBigEndian s.params = false → s.inReset = false →
    s.nextBoundary.signals.nRESETIN = .high → s.nextBoundary.signals.nVFPRESETIN = .high →
    s.nextBoundary.control = some c → u = closeFiWindow (sample s.nextBoundary s) →
    (∀ t, controlWrite c u = .next t → step s = attend (reportErrors s.nextBoundary.errorReports t)) ∧
    (∀ r, controlWrite c u = .refused r → step s = .refused r))

/-! ## Whole-machine statements -/

/-- Every step keeps the invariant: memory and the set of stored addresses stay canonical, and no step enters Jazelle
state (spec/10_state.md R27, spec/42_exception_generating.md R167). -/
def Obligations.StepKeepsInv : Prop :=
  ∀ s t : State, s.Inv → step s = .next t → t.Inv

/-- The invariant holds at reset. -/
def Obligations.InvHoldsAtReset : Prop := State.reset.Inv

/-- spec/60_exceptions.md R250, spec/10_state.md R33 (e), R35, R36: a step of the Non-secure world that is not a reset changes
none of the Secure world's configuration, and leaves the Non-secure world only by an entry to Secure Monitor mode
through the Monitor vector table, in ARM state with everything masked. -/
def Obligations.NonSecureReachesSecureOnlyByMonitorEntry : Prop :=
  ∀ s t : State, s.world = .nonSecure → s.inReset = false → step s = .next t →
    t.scr = s.scr ∧ t.fi = s.fi ∧ t.secureCtrl = s.secureCtrl ∧ t.secureBase = s.secureBase ∧
    t.monitorBase = s.monitorBase ∧
    (t.world = .nonSecure ∨
      (t.cpsr.mode = .monitor ∧ t.cpsr.a = true ∧ t.cpsr.i = true ∧ t.cpsr.f = true ∧ t.cpsr.t = false ∧
        t.curSpsr = some s.cpsr.toWord ∧
        ∃ x : Exception, x.toMonitor s.scr = true ∧ t.pc = s.monitorBase + x.offset))

/-- spec/10_state.md R28, R42, spec/60_exceptions.md R249: a step in User mode that is not a reset either stays in User mode
and leaves the masks, every SPSR, the control registers and the other modes' R13 and R14 as they were, or is an
exception entry: a privileged mode, the old CPSR in its SPSR, the PC at a vector. -/
def Obligations.UserModeLeavesOnlyByException : Prop :=
  ∀ s t : State, s.cpsr.mode = .user → s.inReset = false → step s = .next t →
    t.scr = s.scr ∧ t.fi = s.fi ∧ t.secureCtrl = s.secureCtrl ∧ t.nonSecureCtrl = s.nonSecureCtrl ∧
    t.nonSecureBase = s.nonSecureBase ∧ t.secureBase = s.secureBase ∧ t.monitorBase = s.monitorBase ∧
    ((t.cpsr.mode = .user ∧ t.cpsr.a = s.cpsr.a ∧ t.cpsr.i = s.cpsr.i ∧ t.cpsr.f = s.cpsr.f ∧ t.spsr = s.spsr ∧
        t.regs.fiqHigh = s.regs.fiqHigh ∧
        ∀ b, b ≠ .usr → t.regs.sp.get b = s.regs.sp.get b ∧ t.regs.lr.get b = s.regs.lr.get b) ∨
      (t.cpsr.mode ≠ .user ∧ t.curSpsr = some s.cpsr.toWord ∧
        ∃ x : Exception, t.pc = vector x (x.toMonitor s.scr) s.world s.afterBoundary))

/-- spec/10_state.md R28, R29, spec/92_eei_decisions.md D5, D6: a step that starts and ends in the Non-secure world does not
change F when SCR.FW = 0, nor A when SCR.AW = 0. -/
def Obligations.NonSecureCannotChangeFOrA : Prop :=
  ∀ s t : State, s.world = .nonSecure → step s = .next t → t.world = .nonSecure →
    (s.scr.fw = false → t.cpsr.f = s.cpsr.f) ∧ (s.scr.aw = false → t.cpsr.a = s.cpsr.a)
end

