-- ==== Sys2Proof/Laws/Memory.lean ====
section
/-! SUPPORT. Memory cells: what a read gives after a write, the canonical form, words as four bytes in either order
(spec/20_memory.md R70, R71), and the set of stored addresses (R84). -/

namespace Sys2Proof.Machine

/-! ### Bytes -/

/-- All of a canonical memory's addresses lie above a bound that its first one lies above. -/
theorem readByte_of_head_gt {m : List Host.Cell} (hm : Memory.wf m = true) {a : Nat}
    (h : ∀ c ∈ m.head?, a < c.1) : readByte m a = unlistedByte := by
  induction m with
  | nil => rfl
  | cons c rest ih =>
    obtain ⟨k, v⟩ := c
    have hk : a < k := h (k, v) rfl
    simp only [Memory.wf, Bool.and_eq_true, decide_eq_true_eq, Option.all_eq_true] at hm
    obtain ⟨⟨_, hhead⟩, hrest⟩ := hm
    have hne : k ≠ a := by omega
    simp only [readByte, if_neg hne]
    exact ih hrest fun c hc => Nat.lt_trans hk (hhead c hc)

/-- A read after a write of one byte (R81). -/
theorem readByte_writeByte {m : List Host.Cell} (hm : Memory.wf m = true) (a b : Nat) (v : Byte) :
    readByte (writeByte m a v) b = if b = a then v else readByte m b := by
  induction m with
  | nil =>
    unfold writeByte
    split
    · next hv => by_cases hb : b = a <;> simp [readByte, hb, hv]
    · by_cases hb : b = a
      · simp [readByte, hb]
      · simp [readByte, hb, Ne.symm hb]
  | cons c rest ih =>
    obtain ⟨k, w⟩ := c
    have hm' := hm
    simp only [Memory.wf, Bool.and_eq_true, decide_eq_true_eq, Option.all_eq_true] at hm'
    obtain ⟨⟨_, hhead⟩, hrest⟩ := hm'
    have habove : ∀ b, b ≤ k → readByte rest b = unlistedByte := fun b hb =>
      readByte_of_head_gt hrest fun c hc => Nat.lt_of_le_of_lt hb (hhead c hc)
    have hall : ∀ b, b < k → readByte ((k, w) :: rest) b = unlistedByte := fun b hb => by
      have : k ≠ b := by omega
      simp only [readByte, if_neg this]
      exact habove b (by omega)
    unfold writeByte
    split
    · next hlt =>
      split
      · next hv =>
        split
        · next hb => rw [hb, hall a hlt, hv]
        · rfl
      · by_cases hb : b = a
        · simp [readByte, hb]
        · simp [readByte, hb, Ne.symm hb]
    · split
      · next _ hak =>
        subst hak
        split
        · next hv =>
          by_cases hb : b = a
          · rw [if_pos hb, hb, habove a (Nat.le_refl a), hv]
          · simp [readByte, hb, Ne.symm hb]
        · by_cases hb : b = a
          · simp [readByte, hb]
          · simp [readByte, hb, Ne.symm hb]
      · next hnlt hne =>
        simp only [readByte]
        rw [ih hrest]
        by_cases hb : b = a
        · subst hb
          rw [if_pos rfl, if_pos rfl, if_neg (Ne.symm hne)]
        · rw [if_neg hb, if_neg hb]

/-- The first address of a memory after a write is the written one or the first it had. -/
theorem head_writeByte {m : List Host.Cell} {a k : Nat} {v : Byte} (hk : k < a)
    (h : ∀ c ∈ m.head?, k < c.1) (hm : Memory.wf m = true) : ∀ c ∈ (writeByte m a v).head?, k < c.1 := by
  cases m with
  | nil =>
    unfold writeByte
    split <;> simp [hk]
  | cons c rest =>
    obtain ⟨j, w⟩ := c
    have hj : k < j := h (j, w) rfl
    simp only [Memory.wf, Bool.and_eq_true, decide_eq_true_eq, Option.all_eq_true] at hm
    unfold writeByte
    split
    · split <;> simp [hk, hj]
    · split
      · split
        · intro c hc
          exact Nat.lt_trans hj (hm.1.2 c hc)
        · simp [hk]
      · simp [hj]

/-- A write keeps the canonical form. -/
theorem wf_writeByte {m : List Host.Cell} (hm : Memory.wf m = true) {a : Nat} (ha : a < 2 ^ 32) (v : Byte) :
    Memory.wf (writeByte m a v) = true := by
  induction m with
  | nil =>
    unfold writeByte
    split
    · rfl
    · next hv => simpa [Memory.wf, hv] using ha
  | cons c rest ih =>
    obtain ⟨k, w⟩ := c
    have hm' := hm
    simp only [Memory.wf, Bool.and_eq_true, decide_eq_true_eq, Option.all_eq_true] at hm'
    obtain ⟨⟨⟨hk, hw⟩, hhead⟩, hrest⟩ := hm'
    unfold writeByte
    split
    · next hlt =>
      split
      · exact hm
      · next hv =>
        simp only [Memory.wf, Bool.and_eq_true, decide_eq_true_eq, Option.all_eq_true, List.head?_cons]
        exact ⟨⟨⟨ha, hv⟩, fun c hc => by simp at hc; simp [← hc, hlt]⟩, ⟨⟨hk, hw⟩, hhead⟩, hrest⟩
    · split
      · next _ hak =>
        subst hak
        split
        · exact hrest
        · next hv =>
          simp only [Memory.wf, Bool.and_eq_true, decide_eq_true_eq, Option.all_eq_true]
          exact ⟨⟨⟨ha, hv⟩, hhead⟩, hrest⟩
      · next hnlt hne =>
        simp only [Memory.wf, Bool.and_eq_true, decide_eq_true_eq, Option.all_eq_true]
        exact ⟨⟨⟨hk, hw⟩, head_writeByte (by omega) hhead hrest⟩, ih hrest⟩

/-- Two canonical memories that read alike everywhere are equal data. -/
theorem Memory.ext {m n : List Host.Cell} (hm : Memory.wf m = true) (hn : Memory.wf n = true)
    (h : ∀ a, readByte m a = readByte n a) : m = n := by
  induction m generalizing n with
  | nil =>
    cases n with
    | nil => rfl
    | cons c rest =>
      obtain ⟨k, v⟩ := c
      simp only [Memory.wf, Bool.and_eq_true, decide_eq_true_eq] at hn
      have := h k
      simp only [readByte, if_true] at this
      exact absurd this.symm hn.1.1.2
  | cons c rest ih =>
    obtain ⟨k, v⟩ := c
    have hm' := hm
    simp only [Memory.wf, Bool.and_eq_true, decide_eq_true_eq, Option.all_eq_true] at hm'
    obtain ⟨⟨⟨_, hv⟩, hhead⟩, hrest⟩ := hm'
    cases n with
    | nil =>
      have := h k
      simp only [readByte, if_true] at this
      exact absurd this hv
    | cons d rest' =>
      obtain ⟨j, w⟩ := d
      have hn' := hn
      simp only [Memory.wf, Bool.and_eq_true, decide_eq_true_eq, Option.all_eq_true] at hn'
      obtain ⟨⟨⟨_, hw⟩, hhead'⟩, hrest'⟩ := hn'
      have hkj : k = j := by
        rcases Nat.lt_trichotomy k j with hlt | heq | hgt
        · have h1 := h k
          rw [readByte_of_head_gt hn (a := k) (fun c hc => by simp at hc; simp [← hc, hlt])] at h1
          simp only [readByte, if_true] at h1
          exact absurd h1 hv
        · exact heq
        · have h1 := h j
          rw [readByte_of_head_gt hm (a := j) (fun c hc => by simp at hc; simp [← hc, hgt])] at h1
          simp only [readByte, if_true] at h1
          exact absurd h1.symm hw
      subst hkj
      have hvw : v = w := by
        have := h k
        simpa only [readByte, if_true] using this
      subst hvw
      have : rest = rest' := ih hrest hrest' fun a => by
        by_cases ha : k = a
        · subst ha
          rw [readByte_of_head_gt hrest hhead, readByte_of_head_gt hrest' hhead']
        · have := h a
          simpa only [readByte, if_neg ha] using this
      rw [this]

/-! ### The stored addresses -/

theorem mem_insertAddr (l : List Nat) (a b : Nat) : b ∈ insertAddr l a ↔ b = a ∨ b ∈ l := by
  induction l with
  | nil => simp [insertAddr]
  | cons k rest ih =>
    unfold insertAddr
    split
    · simp
    · split
      · next h => subst h; simp
      · simp only [List.mem_cons, ih]; tauto

theorem head_insertAddr {l : List Nat} {a k : Nat} (hk : k < a) (h : ∀ c ∈ l.head?, k < c) :
    ∀ c ∈ (insertAddr l a).head?, k < c := by
  cases l with
  | nil => simp [insertAddr, hk]
  | cons j rest =>
    have hj : k < j := h j rfl
    unfold insertAddr
    split
    · simp [hk]
    · split <;> simp [hj]

theorem storedWf_insertAddr {l : List Nat} (hl : storedWf l = true) {a : Nat} (ha : a < 2 ^ 32) :
    storedWf (insertAddr l a) = true := by
  induction l with
  | nil => simpa [insertAddr, storedWf] using ha
  | cons k rest ih =>
    have hl' := hl
    simp only [storedWf, Bool.and_eq_true, decide_eq_true_eq, Option.all_eq_true] at hl'
    obtain ⟨⟨hk, hhead⟩, hrest⟩ := hl'
    unfold insertAddr
    split
    · next hlt =>
      simp only [storedWf, Bool.and_eq_true, decide_eq_true_eq, Option.all_eq_true, List.head?_cons]
      exact ⟨⟨ha, fun c hc => by simp at hc; simp [← hc, hlt]⟩, ⟨hk, hhead⟩, hrest⟩
    · split
      · exact hl
      · next hnlt hne =>
        simp only [storedWf, Bool.and_eq_true, decide_eq_true_eq, Option.all_eq_true]
        exact ⟨⟨hk, head_insertAddr (by omega) hhead⟩, ih hrest⟩

/-! ### Words -/

theorem byteAddr_lt (a : Word) (k : Nat) : byteAddr a k < 2 ^ 32 := (a + BitVec.ofNat 32 k).isLt

theorem byteAddr_inj {a : Word} {j k : Nat} (hj : j < 4) (hk : k < 4) (h : byteAddr a j = byteAddr a k) : j = k := by
  have h1 : a + BitVec.ofNat 32 j = a + BitVec.ofNat 32 k := BitVec.eq_of_toNat_eq h
  have h2 : BitVec.ofNat 32 j = BitVec.ofNat 32 k := by
    have := congrArg (fun x => x - a) h1
    simpa [BitVec.add_sub_cancel, BitVec.add_comm] using this
  have h3 := congrArg BitVec.toNat h2
  simp only [BitVec.toNat_ofNat] at h3
  omega

/-- The bytes of an aligned word do not wrap. -/
theorem byteAddr_of_aligned {a : Word} (h : wordAligned a = true) {k : Nat} (hk : k < 4) :
    byteAddr a k = a.toNat + k := by
  simp only [wordAligned, decide_eq_true_eq] at h
  have h2 := congrArg BitVec.toNat h
  simp [BitVec.extractLsb'_toNat] at h2
  have := a.isLt
  simp only [byteAddr, BitVec.toNat_add, BitVec.toNat_ofNat]
  omega

theorem wf_memSetWord {m : List Host.Cell} (hm : Memory.wf m = true) (big : Bool) (a v : Word) :
    Memory.wf (memSetWord m big a v) = true := by
  unfold memSetWord
  exact wf_writeByte (wf_writeByte (wf_writeByte (wf_writeByte hm (byteAddr_lt _ _) _) (byteAddr_lt _ _) _)
    (byteAddr_lt _ _) _) (byteAddr_lt _ _) _

/-- Each byte of memory after a word is written. -/
theorem readByte_memSetWord {m : List Host.Cell} (hm : Memory.wf m = true) (big : Bool) (a v : Word) (b : Nat) :
    readByte (memSetWord m big a v) b =
      if b = byteAddr a 3 then wordByte big v 3 else if b = byteAddr a 2 then wordByte big v 2
      else if b = byteAddr a 1 then wordByte big v 1 else if b = byteAddr a 0 then wordByte big v 0
      else readByte m b := by
  unfold memSetWord
  have h0 := wf_writeByte hm (byteAddr_lt a 0) (wordByte big v 0)
  have h1 := wf_writeByte h0 (byteAddr_lt a 1) (wordByte big v 1)
  have h2 := wf_writeByte h1 (byteAddr_lt a 2) (wordByte big v 2)
  simp only [readByte_writeByte h2, readByte_writeByte h1, readByte_writeByte h0, readByte_writeByte hm]

/-- A byte outside the word written keeps its value. -/
theorem readByte_memSetWord_outside {m : List Host.Cell} (hm : Memory.wf m = true) (big : Bool) (a v : Word) {b : Nat}
    (hb : ∀ k < 4, b ≠ byteAddr a k) : readByte (memSetWord m big a v) b = readByte m b := by
  rw [readByte_memSetWord hm, if_neg (hb 3 (by omega)), if_neg (hb 2 (by omega)), if_neg (hb 1 (by omega)),
    if_neg (hb 0 (by omega))]

/-- Byte `k` of the word written (R71). -/
theorem readByte_memSetWord_inside {m : List Host.Cell} (hm : Memory.wf m = true) (big : Bool) (a v : Word) {k : Nat}
    (hk : k < 4) : readByte (memSetWord m big a v) (byteAddr a k) = wordByte big v k := by
  rw [readByte_memSetWord hm]
  have inj : ∀ {i : Nat}, i < 4 → byteAddr a k = byteAddr a i → k = i := fun hi h => byteAddr_inj hk hi h
  split
  · next h => rw [inj (by omega) h]
  · split
    · next h => rw [inj (by omega) h]
    · split
      · next h => rw [inj (by omega) h]
      · split
        · next h => rw [inj (by omega) h]
        · next h3 h2 h1 h0 => interval_cases k <;> contradiction

/-- The four bytes of a word, put together again, are the word. -/
theorem wordBytes_append (v : Word) :
    wordByte false v 3 ++ wordByte false v 2 ++ wordByte false v 1 ++ wordByte false v 0 = v ∧
      wordByte true v 0 ++ wordByte true v 1 ++ wordByte true v 2 ++ wordByte true v 3 = v := by
  constructor <;>
  · apply BitVec.eq_of_getLsbD_eq
    intro i hi
    simp only [wordByte, BitVec.getLsbD_append, BitVec.getLsbD_extractLsb']
    interval_cases i <;> simp

/-- A word read after it was written, in the same byte order (R71, R81). -/
theorem memWord_memSetWord {m : List Host.Cell} (hm : Memory.wf m = true) (big : Bool) (a v : Word) :
    memWord (memSetWord m big a v) big a = v := by
  have h := fun k hk => readByte_memSetWord_inside hm big a v (k := k) hk
  unfold memWord
  simp only [h 0 (by omega), h 1 (by omega), h 2 (by omega), h 3 (by omega)]
  cases big
  · exact (wordBytes_append v).1
  · exact (wordBytes_append v).2

/-- A word that shares no byte with the one written keeps its value. -/
theorem memWord_memSetWord_apart {m : List Host.Cell} (hm : Memory.wf m = true) (big big' : Bool) {a b : Word}
    (v : Word) (h : ∀ j < 4, ∀ k < 4, byteAddr b j ≠ byteAddr a k) :
    memWord (memSetWord m big a v) big' b = memWord m big' b := by
  unfold memWord
  simp only [readByte_memSetWord_outside hm big a v (h 0 (by omega)),
    readByte_memSetWord_outside hm big a v (h 1 (by omega)), readByte_memSetWord_outside hm big a v (h 2 (by omega)),
    readByte_memSetWord_outside hm big a v (h 3 (by omega))]

theorem storedWf_storedSetWord {l : List Nat} (hl : storedWf l = true) (a : Word) :
    storedWf (storedSetWord l a) = true := by
  unfold storedSetWord
  exact storedWf_insertAddr (storedWf_insertAddr (storedWf_insertAddr (storedWf_insertAddr hl (byteAddr_lt _ _))
    (byteAddr_lt _ _)) (byteAddr_lt _ _)) (byteAddr_lt _ _)

/-- Two aligned words at different addresses share no byte. -/
theorem byteAddr_ne_of_aligned {a b : Word} (ha : wordAligned a = true) (hb : wordAligned b = true) (h : b ≠ a) :
    ∀ j < 4, ∀ k < 4, byteAddr b j ≠ byteAddr a k := by
  intro j hj k hk
  rw [byteAddr_of_aligned ha hk, byteAddr_of_aligned hb hj]
  simp only [wordAligned, decide_eq_true_eq] at ha hb
  have h1 := congrArg BitVec.toNat ha
  have h2 := congrArg BitVec.toNat hb
  simp [BitVec.extractLsb'_toNat] at h1 h2
  have h3 : b.toNat ≠ a.toNat := fun e => h (BitVec.eq_of_toNat_eq e)
  omega

end Sys2Proof.Machine
end

