-- ==== Sys2Proof/Laws/State.lean ====
section
/-! SUPPORT. For every named update of State, one lemma per field that it leaves as it is. -/

namespace Sys2Proof.Machine

/-! ### Writing a register of the current mode -/

@[simp] theorem setReg_cpsr (s : State) (n : RegNum) (v : Word) : (s.setReg n v).cpsr = s.cpsr := by
  unfold State.setReg; split <;> rfl

@[simp] theorem setReg_spsr (s : State) (n : RegNum) (v : Word) : (s.setReg n v).spsr = s.spsr := by
  unfold State.setReg; split <;> rfl

@[simp] theorem setReg_scr (s : State) (n : RegNum) (v : Word) : (s.setReg n v).scr = s.scr := by
  unfold State.setReg; split <;> rfl

@[simp] theorem setReg_fi (s : State) (n : RegNum) (v : Word) : (s.setReg n v).fi = s.fi := by
  unfold State.setReg; split <;> rfl

@[simp] theorem setReg_fiWindow (s : State) (n : RegNum) (v : Word) : (s.setReg n v).fiWindow = s.fiWindow := by
  unfold State.setReg; split <;> rfl

@[simp] theorem setReg_secureCtrl (s : State) (n : RegNum) (v : Word) : (s.setReg n v).secureCtrl = s.secureCtrl := by
  unfold State.setReg; split <;> rfl

@[simp] theorem setReg_nonSecureCtrl (s : State) (n : RegNum) (v : Word) : (s.setReg n v).nonSecureCtrl = s.nonSecureCtrl := by
  unfold State.setReg; split <;> rfl

@[simp] theorem setReg_nonSecureBase (s : State) (n : RegNum) (v : Word) : (s.setReg n v).nonSecureBase = s.nonSecureBase := by
  unfold State.setReg; split <;> rfl

@[simp] theorem setReg_secureBase (s : State) (n : RegNum) (v : Word) : (s.setReg n v).secureBase = s.secureBase := by
  unfold State.setReg; split <;> rfl

@[simp] theorem setReg_monitorBase (s : State) (n : RegNum) (v : Word) : (s.setReg n v).monitorBase = s.monitorBase := by
  unfold State.setReg; split <;> rfl

@[simp] theorem setReg_faultStatus (s : State) (n : RegNum) (v : Word) : (s.setReg n v).faultStatus = s.faultStatus := by
  unfold State.setReg; split <;> rfl

@[simp] theorem setReg_abortPending (s : State) (n : RegNum) (v : Word) : (s.setReg n v).abortPending = s.abortPending := by
  unfold State.setReg; split <;> rfl

@[simp] theorem setReg_bufferedErrors (s : State) (n : RegNum) (v : Word) : (s.setReg n v).bufferedErrors = s.bufferedErrors := by
  unfold State.setReg; split <;> rfl

@[simp] theorem setReg_inReset (s : State) (n : RegNum) (v : Word) : (s.setReg n v).inReset = s.inReset := by
  unfold State.setReg; split <;> rfl

@[simp] theorem setReg_signals (s : State) (n : RegNum) (v : Word) : (s.setReg n v).signals = s.signals := by
  unfold State.setReg; split <;> rfl

@[simp] theorem setReg_inputs (s : State) (n : RegNum) (v : Word) : (s.setReg n v).inputs = s.inputs := by
  unfold State.setReg; split <;> rfl

@[simp] theorem setReg_mem (s : State) (n : RegNum) (v : Word) : (s.setReg n v).mem = s.mem := by
  unfold State.setReg; split <;> rfl

@[simp] theorem setReg_stored (s : State) (n : RegNum) (v : Word) : (s.setReg n v).stored = s.stored := by
  unfold State.setReg; split <;> rfl

@[simp] theorem setReg_map (s : State) (n : RegNum) (v : Word) : (s.setReg n v).map = s.map := by
  unfold State.setReg; split <;> rfl

@[simp] theorem setReg_deviceAnswers (s : State) (n : RegNum) (v : Word) : (s.setReg n v).deviceAnswers = s.deviceAnswers := by
  unfold State.setReg; split <;> rfl

@[simp] theorem setReg_busLog (s : State) (n : RegNum) (v : Word) : (s.setReg n v).busLog = s.busLog := by
  unfold State.setReg; split <;> rfl

@[simp] theorem setReg_params (s : State) (n : RegNum) (v : Word) : (s.setReg n v).params = s.params := by
  unfold State.setReg; split <;> rfl

@[simp] theorem setReg_draws (s : State) (n : RegNum) (v : Word) : (s.setReg n v).draws = s.draws := by
  unfold State.setReg; split <;> rfl


/-! ### Holding an imprecise error -/

@[simp] theorem noteImprecise_regs (s : State) (ty : AccessType) (b : Bool) (a : Word) : (s.noteImprecise ty b a).regs = s.regs := by
  unfold State.noteImprecise; split <;> rfl

@[simp] theorem noteImprecise_pc (s : State) (ty : AccessType) (b : Bool) (a : Word) : (s.noteImprecise ty b a).pc = s.pc := by
  unfold State.noteImprecise; split <;> rfl

@[simp] theorem noteImprecise_cpsr (s : State) (ty : AccessType) (b : Bool) (a : Word) : (s.noteImprecise ty b a).cpsr = s.cpsr := by
  unfold State.noteImprecise; split <;> rfl

@[simp] theorem noteImprecise_spsr (s : State) (ty : AccessType) (b : Bool) (a : Word) : (s.noteImprecise ty b a).spsr = s.spsr := by
  unfold State.noteImprecise; split <;> rfl

@[simp] theorem noteImprecise_scr (s : State) (ty : AccessType) (b : Bool) (a : Word) : (s.noteImprecise ty b a).scr = s.scr := by
  unfold State.noteImprecise; split <;> rfl

@[simp] theorem noteImprecise_fi (s : State) (ty : AccessType) (b : Bool) (a : Word) : (s.noteImprecise ty b a).fi = s.fi := by
  unfold State.noteImprecise; split <;> rfl

@[simp] theorem noteImprecise_fiWindow (s : State) (ty : AccessType) (b : Bool) (a : Word) : (s.noteImprecise ty b a).fiWindow = s.fiWindow := by
  unfold State.noteImprecise; split <;> rfl

@[simp] theorem noteImprecise_secureCtrl (s : State) (ty : AccessType) (b : Bool) (a : Word) : (s.noteImprecise ty b a).secureCtrl = s.secureCtrl := by
  unfold State.noteImprecise; split <;> rfl

@[simp] theorem noteImprecise_nonSecureCtrl (s : State) (ty : AccessType) (b : Bool) (a : Word) : (s.noteImprecise ty b a).nonSecureCtrl = s.nonSecureCtrl := by
  unfold State.noteImprecise; split <;> rfl

@[simp] theorem noteImprecise_nonSecureBase (s : State) (ty : AccessType) (b : Bool) (a : Word) : (s.noteImprecise ty b a).nonSecureBase = s.nonSecureBase := by
  unfold State.noteImprecise; split <;> rfl

@[simp] theorem noteImprecise_secureBase (s : State) (ty : AccessType) (b : Bool) (a : Word) : (s.noteImprecise ty b a).secureBase = s.secureBase := by
  unfold State.noteImprecise; split <;> rfl

@[simp] theorem noteImprecise_monitorBase (s : State) (ty : AccessType) (b : Bool) (a : Word) : (s.noteImprecise ty b a).monitorBase = s.monitorBase := by
  unfold State.noteImprecise; split <;> rfl

@[simp] theorem noteImprecise_faultStatus (s : State) (ty : AccessType) (b : Bool) (a : Word) : (s.noteImprecise ty b a).faultStatus = s.faultStatus := by
  unfold State.noteImprecise; split <;> rfl

@[simp] theorem noteImprecise_abortPending (s : State) (ty : AccessType) (b : Bool) (a : Word) : (s.noteImprecise ty b a).abortPending = s.abortPending := by
  unfold State.noteImprecise; split <;> rfl

@[simp] theorem noteImprecise_inReset (s : State) (ty : AccessType) (b : Bool) (a : Word) : (s.noteImprecise ty b a).inReset = s.inReset := by
  unfold State.noteImprecise; split <;> rfl

@[simp] theorem noteImprecise_signals (s : State) (ty : AccessType) (b : Bool) (a : Word) : (s.noteImprecise ty b a).signals = s.signals := by
  unfold State.noteImprecise; split <;> rfl

@[simp] theorem noteImprecise_inputs (s : State) (ty : AccessType) (b : Bool) (a : Word) : (s.noteImprecise ty b a).inputs = s.inputs := by
  unfold State.noteImprecise; split <;> rfl

@[simp] theorem noteImprecise_mem (s : State) (ty : AccessType) (b : Bool) (a : Word) : (s.noteImprecise ty b a).mem = s.mem := by
  unfold State.noteImprecise; split <;> rfl

@[simp] theorem noteImprecise_stored (s : State) (ty : AccessType) (b : Bool) (a : Word) : (s.noteImprecise ty b a).stored = s.stored := by
  unfold State.noteImprecise; split <;> rfl

@[simp] theorem noteImprecise_map (s : State) (ty : AccessType) (b : Bool) (a : Word) : (s.noteImprecise ty b a).map = s.map := by
  unfold State.noteImprecise; split <;> rfl

@[simp] theorem noteImprecise_deviceAnswers (s : State) (ty : AccessType) (b : Bool) (a : Word) : (s.noteImprecise ty b a).deviceAnswers = s.deviceAnswers := by
  unfold State.noteImprecise; split <;> rfl

@[simp] theorem noteImprecise_busLog (s : State) (ty : AccessType) (b : Bool) (a : Word) : (s.noteImprecise ty b a).busLog = s.busLog := by
  unfold State.noteImprecise; split <;> rfl

@[simp] theorem noteImprecise_params (s : State) (ty : AccessType) (b : Bool) (a : Word) : (s.noteImprecise ty b a).params = s.params := by
  unfold State.noteImprecise; split <;> rfl

@[simp] theorem noteImprecise_draws (s : State) (ty : AccessType) (b : Bool) (a : Word) : (s.noteImprecise ty b a).draws = s.draws := by
  unfold State.noteImprecise; split <;> rfl


/-! ### A device's answer -/

@[simp] theorem deviceAnswer_regs (s : State) : ((deviceAnswer s).2).regs = s.regs := by
  unfold deviceAnswer; split <;> rfl

@[simp] theorem deviceAnswer_pc (s : State) : ((deviceAnswer s).2).pc = s.pc := by
  unfold deviceAnswer; split <;> rfl

@[simp] theorem deviceAnswer_cpsr (s : State) : ((deviceAnswer s).2).cpsr = s.cpsr := by
  unfold deviceAnswer; split <;> rfl

@[simp] theorem deviceAnswer_spsr (s : State) : ((deviceAnswer s).2).spsr = s.spsr := by
  unfold deviceAnswer; split <;> rfl

@[simp] theorem deviceAnswer_scr (s : State) : ((deviceAnswer s).2).scr = s.scr := by
  unfold deviceAnswer; split <;> rfl

@[simp] theorem deviceAnswer_fi (s : State) : ((deviceAnswer s).2).fi = s.fi := by
  unfold deviceAnswer; split <;> rfl

@[simp] theorem deviceAnswer_fiWindow (s : State) : ((deviceAnswer s).2).fiWindow = s.fiWindow := by
  unfold deviceAnswer; split <;> rfl

@[simp] theorem deviceAnswer_secureCtrl (s : State) : ((deviceAnswer s).2).secureCtrl = s.secureCtrl := by
  unfold deviceAnswer; split <;> rfl

@[simp] theorem deviceAnswer_nonSecureCtrl (s : State) : ((deviceAnswer s).2).nonSecureCtrl = s.nonSecureCtrl := by
  unfold deviceAnswer; split <;> rfl

@[simp] theorem deviceAnswer_nonSecureBase (s : State) : ((deviceAnswer s).2).nonSecureBase = s.nonSecureBase := by
  unfold deviceAnswer; split <;> rfl

@[simp] theorem deviceAnswer_secureBase (s : State) : ((deviceAnswer s).2).secureBase = s.secureBase := by
  unfold deviceAnswer; split <;> rfl

@[simp] theorem deviceAnswer_monitorBase (s : State) : ((deviceAnswer s).2).monitorBase = s.monitorBase := by
  unfold deviceAnswer; split <;> rfl

@[simp] theorem deviceAnswer_faultStatus (s : State) : ((deviceAnswer s).2).faultStatus = s.faultStatus := by
  unfold deviceAnswer; split <;> rfl

@[simp] theorem deviceAnswer_abortPending (s : State) : ((deviceAnswer s).2).abortPending = s.abortPending := by
  unfold deviceAnswer; split <;> rfl

@[simp] theorem deviceAnswer_bufferedErrors (s : State) : ((deviceAnswer s).2).bufferedErrors = s.bufferedErrors := by
  unfold deviceAnswer; split <;> rfl

@[simp] theorem deviceAnswer_inReset (s : State) : ((deviceAnswer s).2).inReset = s.inReset := by
  unfold deviceAnswer; split <;> rfl

@[simp] theorem deviceAnswer_signals (s : State) : ((deviceAnswer s).2).signals = s.signals := by
  unfold deviceAnswer; split <;> rfl

@[simp] theorem deviceAnswer_inputs (s : State) : ((deviceAnswer s).2).inputs = s.inputs := by
  unfold deviceAnswer; split <;> rfl

@[simp] theorem deviceAnswer_mem (s : State) : ((deviceAnswer s).2).mem = s.mem := by
  unfold deviceAnswer; split <;> rfl

@[simp] theorem deviceAnswer_stored (s : State) : ((deviceAnswer s).2).stored = s.stored := by
  unfold deviceAnswer; split <;> rfl

@[simp] theorem deviceAnswer_map (s : State) : ((deviceAnswer s).2).map = s.map := by
  unfold deviceAnswer; split <;> rfl

@[simp] theorem deviceAnswer_params (s : State) : ((deviceAnswer s).2).params = s.params := by
  unfold deviceAnswer; split <;> rfl

@[simp] theorem deviceAnswer_busLog (s : State) : ((deviceAnswer s).2).busLog = s.busLog := by
  unfold deviceAnswer; split <;> rfl


/-! ### Reading a device -/

@[simp] theorem deviceRead_regs (s : State) (a : Word) : ((deviceRead s a).2).regs = s.regs := by
  simp [deviceRead]

@[simp] theorem deviceRead_pc (s : State) (a : Word) : ((deviceRead s a).2).pc = s.pc := by
  simp [deviceRead]

@[simp] theorem deviceRead_cpsr (s : State) (a : Word) : ((deviceRead s a).2).cpsr = s.cpsr := by
  simp [deviceRead]

@[simp] theorem deviceRead_spsr (s : State) (a : Word) : ((deviceRead s a).2).spsr = s.spsr := by
  simp [deviceRead]

@[simp] theorem deviceRead_scr (s : State) (a : Word) : ((deviceRead s a).2).scr = s.scr := by
  simp [deviceRead]

@[simp] theorem deviceRead_fi (s : State) (a : Word) : ((deviceRead s a).2).fi = s.fi := by
  simp [deviceRead]

@[simp] theorem deviceRead_fiWindow (s : State) (a : Word) : ((deviceRead s a).2).fiWindow = s.fiWindow := by
  simp [deviceRead]

@[simp] theorem deviceRead_secureCtrl (s : State) (a : Word) : ((deviceRead s a).2).secureCtrl = s.secureCtrl := by
  simp [deviceRead]

@[simp] theorem deviceRead_nonSecureCtrl (s : State) (a : Word) : ((deviceRead s a).2).nonSecureCtrl = s.nonSecureCtrl := by
  simp [deviceRead]

@[simp] theorem deviceRead_nonSecureBase (s : State) (a : Word) : ((deviceRead s a).2).nonSecureBase = s.nonSecureBase := by
  simp [deviceRead]

@[simp] theorem deviceRead_secureBase (s : State) (a : Word) : ((deviceRead s a).2).secureBase = s.secureBase := by
  simp [deviceRead]

@[simp] theorem deviceRead_monitorBase (s : State) (a : Word) : ((deviceRead s a).2).monitorBase = s.monitorBase := by
  simp [deviceRead]

@[simp] theorem deviceRead_faultStatus (s : State) (a : Word) : ((deviceRead s a).2).faultStatus = s.faultStatus := by
  simp [deviceRead]

@[simp] theorem deviceRead_abortPending (s : State) (a : Word) : ((deviceRead s a).2).abortPending = s.abortPending := by
  simp [deviceRead]

@[simp] theorem deviceRead_bufferedErrors (s : State) (a : Word) : ((deviceRead s a).2).bufferedErrors = s.bufferedErrors := by
  simp [deviceRead]

@[simp] theorem deviceRead_inReset (s : State) (a : Word) : ((deviceRead s a).2).inReset = s.inReset := by
  simp [deviceRead]

@[simp] theorem deviceRead_signals (s : State) (a : Word) : ((deviceRead s a).2).signals = s.signals := by
  simp [deviceRead]

@[simp] theorem deviceRead_inputs (s : State) (a : Word) : ((deviceRead s a).2).inputs = s.inputs := by
  simp [deviceRead]

@[simp] theorem deviceRead_mem (s : State) (a : Word) : ((deviceRead s a).2).mem = s.mem := by
  simp [deviceRead]

@[simp] theorem deviceRead_stored (s : State) (a : Word) : ((deviceRead s a).2).stored = s.stored := by
  simp [deviceRead]

@[simp] theorem deviceRead_map (s : State) (a : Word) : ((deviceRead s a).2).map = s.map := by
  simp [deviceRead]

@[simp] theorem deviceRead_params (s : State) (a : Word) : ((deviceRead s a).2).params = s.params := by
  simp [deviceRead]


/-! ### Fetching from a device -/

@[simp] theorem deviceFetch_regs (s : State) : ((deviceFetch s).2).regs = s.regs := by
  simp [deviceFetch]

@[simp] theorem deviceFetch_pc (s : State) : ((deviceFetch s).2).pc = s.pc := by
  simp [deviceFetch]

@[simp] theorem deviceFetch_cpsr (s : State) : ((deviceFetch s).2).cpsr = s.cpsr := by
  simp [deviceFetch]

@[simp] theorem deviceFetch_spsr (s : State) : ((deviceFetch s).2).spsr = s.spsr := by
  simp [deviceFetch]

@[simp] theorem deviceFetch_scr (s : State) : ((deviceFetch s).2).scr = s.scr := by
  simp [deviceFetch]

@[simp] theorem deviceFetch_fi (s : State) : ((deviceFetch s).2).fi = s.fi := by
  simp [deviceFetch]

@[simp] theorem deviceFetch_fiWindow (s : State) : ((deviceFetch s).2).fiWindow = s.fiWindow := by
  simp [deviceFetch]

@[simp] theorem deviceFetch_secureCtrl (s : State) : ((deviceFetch s).2).secureCtrl = s.secureCtrl := by
  simp [deviceFetch]

@[simp] theorem deviceFetch_nonSecureCtrl (s : State) : ((deviceFetch s).2).nonSecureCtrl = s.nonSecureCtrl := by
  simp [deviceFetch]

@[simp] theorem deviceFetch_nonSecureBase (s : State) : ((deviceFetch s).2).nonSecureBase = s.nonSecureBase := by
  simp [deviceFetch]

@[simp] theorem deviceFetch_secureBase (s : State) : ((deviceFetch s).2).secureBase = s.secureBase := by
  simp [deviceFetch]

@[simp] theorem deviceFetch_monitorBase (s : State) : ((deviceFetch s).2).monitorBase = s.monitorBase := by
  simp [deviceFetch]

@[simp] theorem deviceFetch_faultStatus (s : State) : ((deviceFetch s).2).faultStatus = s.faultStatus := by
  simp [deviceFetch]

@[simp] theorem deviceFetch_abortPending (s : State) : ((deviceFetch s).2).abortPending = s.abortPending := by
  simp [deviceFetch]

@[simp] theorem deviceFetch_bufferedErrors (s : State) : ((deviceFetch s).2).bufferedErrors = s.bufferedErrors := by
  simp [deviceFetch]

@[simp] theorem deviceFetch_inReset (s : State) : ((deviceFetch s).2).inReset = s.inReset := by
  simp [deviceFetch]

@[simp] theorem deviceFetch_signals (s : State) : ((deviceFetch s).2).signals = s.signals := by
  simp [deviceFetch]

@[simp] theorem deviceFetch_inputs (s : State) : ((deviceFetch s).2).inputs = s.inputs := by
  simp [deviceFetch]

@[simp] theorem deviceFetch_mem (s : State) : ((deviceFetch s).2).mem = s.mem := by
  simp [deviceFetch]

@[simp] theorem deviceFetch_stored (s : State) : ((deviceFetch s).2).stored = s.stored := by
  simp [deviceFetch]

@[simp] theorem deviceFetch_map (s : State) : ((deviceFetch s).2).map = s.map := by
  simp [deviceFetch]

@[simp] theorem deviceFetch_params (s : State) : ((deviceFetch s).2).params = s.params := by
  simp [deviceFetch]


/-! ### Clearing NS on an entry in Secure Monitor mode -/

@[simp] theorem leaveNonSecure_regs (s : State) : (leaveNonSecure s).regs = s.regs := by
  unfold leaveNonSecure; split <;> rfl

@[simp] theorem leaveNonSecure_pc (s : State) : (leaveNonSecure s).pc = s.pc := by
  unfold leaveNonSecure; split <;> rfl

@[simp] theorem leaveNonSecure_cpsr (s : State) : (leaveNonSecure s).cpsr = s.cpsr := by
  unfold leaveNonSecure; split <;> rfl

@[simp] theorem leaveNonSecure_spsr (s : State) : (leaveNonSecure s).spsr = s.spsr := by
  unfold leaveNonSecure; split <;> rfl

@[simp] theorem leaveNonSecure_fi (s : State) : (leaveNonSecure s).fi = s.fi := by
  unfold leaveNonSecure; split <;> rfl

@[simp] theorem leaveNonSecure_fiWindow (s : State) : (leaveNonSecure s).fiWindow = s.fiWindow := by
  unfold leaveNonSecure; split <;> rfl

@[simp] theorem leaveNonSecure_secureCtrl (s : State) : (leaveNonSecure s).secureCtrl = s.secureCtrl := by
  unfold leaveNonSecure; split <;> rfl

@[simp] theorem leaveNonSecure_nonSecureCtrl (s : State) : (leaveNonSecure s).nonSecureCtrl = s.nonSecureCtrl := by
  unfold leaveNonSecure; split <;> rfl

@[simp] theorem leaveNonSecure_nonSecureBase (s : State) : (leaveNonSecure s).nonSecureBase = s.nonSecureBase := by
  unfold leaveNonSecure; split <;> rfl

@[simp] theorem leaveNonSecure_secureBase (s : State) : (leaveNonSecure s).secureBase = s.secureBase := by
  unfold leaveNonSecure; split <;> rfl

@[simp] theorem leaveNonSecure_monitorBase (s : State) : (leaveNonSecure s).monitorBase = s.monitorBase := by
  unfold leaveNonSecure; split <;> rfl

@[simp] theorem leaveNonSecure_faultStatus (s : State) : (leaveNonSecure s).faultStatus = s.faultStatus := by
  unfold leaveNonSecure; split <;> rfl

@[simp] theorem leaveNonSecure_abortPending (s : State) : (leaveNonSecure s).abortPending = s.abortPending := by
  unfold leaveNonSecure; split <;> rfl

@[simp] theorem leaveNonSecure_bufferedErrors (s : State) : (leaveNonSecure s).bufferedErrors = s.bufferedErrors := by
  unfold leaveNonSecure; split <;> rfl

@[simp] theorem leaveNonSecure_inReset (s : State) : (leaveNonSecure s).inReset = s.inReset := by
  unfold leaveNonSecure; split <;> rfl

@[simp] theorem leaveNonSecure_signals (s : State) : (leaveNonSecure s).signals = s.signals := by
  unfold leaveNonSecure; split <;> rfl

@[simp] theorem leaveNonSecure_inputs (s : State) : (leaveNonSecure s).inputs = s.inputs := by
  unfold leaveNonSecure; split <;> rfl

@[simp] theorem leaveNonSecure_mem (s : State) : (leaveNonSecure s).mem = s.mem := by
  unfold leaveNonSecure; split <;> rfl

@[simp] theorem leaveNonSecure_stored (s : State) : (leaveNonSecure s).stored = s.stored := by
  unfold leaveNonSecure; split <;> rfl

@[simp] theorem leaveNonSecure_map (s : State) : (leaveNonSecure s).map = s.map := by
  unfold leaveNonSecure; split <;> rfl

@[simp] theorem leaveNonSecure_deviceAnswers (s : State) : (leaveNonSecure s).deviceAnswers = s.deviceAnswers := by
  unfold leaveNonSecure; split <;> rfl

@[simp] theorem leaveNonSecure_busLog (s : State) : (leaveNonSecure s).busLog = s.busLog := by
  unfold leaveNonSecure; split <;> rfl

@[simp] theorem leaveNonSecure_params (s : State) : (leaveNonSecure s).params = s.params := by
  unfold leaveNonSecure; split <;> rfl

@[simp] theorem leaveNonSecure_draws (s : State) : (leaveNonSecure s).draws = s.draws := by
  unfold leaveNonSecure; split <;> rfl


/-! ### Taking an exception -/

@[simp] theorem takeException_fi (x : Exception) (ret : Word) (s : State) : (takeException x ret s).fi = s.fi := by
  simp [takeException]

@[simp] theorem takeException_fiWindow (x : Exception) (ret : Word) (s : State) : (takeException x ret s).fiWindow = s.fiWindow := by
  simp [takeException]

@[simp] theorem takeException_secureCtrl (x : Exception) (ret : Word) (s : State) : (takeException x ret s).secureCtrl = s.secureCtrl := by
  simp [takeException]

@[simp] theorem takeException_nonSecureCtrl (x : Exception) (ret : Word) (s : State) : (takeException x ret s).nonSecureCtrl = s.nonSecureCtrl := by
  simp [takeException]

@[simp] theorem takeException_nonSecureBase (x : Exception) (ret : Word) (s : State) : (takeException x ret s).nonSecureBase = s.nonSecureBase := by
  simp [takeException]

@[simp] theorem takeException_secureBase (x : Exception) (ret : Word) (s : State) : (takeException x ret s).secureBase = s.secureBase := by
  simp [takeException]

@[simp] theorem takeException_monitorBase (x : Exception) (ret : Word) (s : State) : (takeException x ret s).monitorBase = s.monitorBase := by
  simp [takeException]

@[simp] theorem takeException_abortPending (x : Exception) (ret : Word) (s : State) : (takeException x ret s).abortPending = s.abortPending := by
  simp [takeException]

@[simp] theorem takeException_bufferedErrors (x : Exception) (ret : Word) (s : State) : (takeException x ret s).bufferedErrors = s.bufferedErrors := by
  simp [takeException]

@[simp] theorem takeException_inReset (x : Exception) (ret : Word) (s : State) : (takeException x ret s).inReset = s.inReset := by
  simp [takeException]

@[simp] theorem takeException_signals (x : Exception) (ret : Word) (s : State) : (takeException x ret s).signals = s.signals := by
  simp [takeException]

@[simp] theorem takeException_inputs (x : Exception) (ret : Word) (s : State) : (takeException x ret s).inputs = s.inputs := by
  simp [takeException]

@[simp] theorem takeException_mem (x : Exception) (ret : Word) (s : State) : (takeException x ret s).mem = s.mem := by
  simp [takeException]

@[simp] theorem takeException_stored (x : Exception) (ret : Word) (s : State) : (takeException x ret s).stored = s.stored := by
  simp [takeException]

@[simp] theorem takeException_map (x : Exception) (ret : Word) (s : State) : (takeException x ret s).map = s.map := by
  simp [takeException]

@[simp] theorem takeException_deviceAnswers (x : Exception) (ret : Word) (s : State) : (takeException x ret s).deviceAnswers = s.deviceAnswers := by
  simp [takeException]

@[simp] theorem takeException_params (x : Exception) (ret : Word) (s : State) : (takeException x ret s).params = s.params := by
  simp [takeException]

@[simp] theorem takeException_draws (x : Exception) (ret : Word) (s : State) : (takeException x ret s).draws = s.draws := by
  simp [takeException]


/-! ### The interrupt registers inside a multi-access instruction -/

@[simp] theorem sampleMidEvent_regs (s : State) : (sampleMidEvent s).regs = s.regs := by
  unfold sampleMidEvent; split <;> rfl

@[simp] theorem sampleMidEvent_pc (s : State) : (sampleMidEvent s).pc = s.pc := by
  unfold sampleMidEvent; split <;> rfl

@[simp] theorem sampleMidEvent_cpsr (s : State) : (sampleMidEvent s).cpsr = s.cpsr := by
  unfold sampleMidEvent; split <;> rfl

@[simp] theorem sampleMidEvent_spsr (s : State) : (sampleMidEvent s).spsr = s.spsr := by
  unfold sampleMidEvent; split <;> rfl

@[simp] theorem sampleMidEvent_fi (s : State) : (sampleMidEvent s).fi = s.fi := by
  unfold sampleMidEvent; split <;> rfl

@[simp] theorem sampleMidEvent_fiWindow (s : State) : (sampleMidEvent s).fiWindow = s.fiWindow := by
  unfold sampleMidEvent; split <;> rfl

@[simp] theorem sampleMidEvent_secureCtrl (s : State) : (sampleMidEvent s).secureCtrl = s.secureCtrl := by
  unfold sampleMidEvent; split <;> rfl

@[simp] theorem sampleMidEvent_nonSecureCtrl (s : State) : (sampleMidEvent s).nonSecureCtrl = s.nonSecureCtrl := by
  unfold sampleMidEvent; split <;> rfl

@[simp] theorem sampleMidEvent_nonSecureBase (s : State) : (sampleMidEvent s).nonSecureBase = s.nonSecureBase := by
  unfold sampleMidEvent; split <;> rfl

@[simp] theorem sampleMidEvent_secureBase (s : State) : (sampleMidEvent s).secureBase = s.secureBase := by
  unfold sampleMidEvent; split <;> rfl

@[simp] theorem sampleMidEvent_monitorBase (s : State) : (sampleMidEvent s).monitorBase = s.monitorBase := by
  unfold sampleMidEvent; split <;> rfl

@[simp] theorem sampleMidEvent_faultStatus (s : State) : (sampleMidEvent s).faultStatus = s.faultStatus := by
  unfold sampleMidEvent; split <;> rfl

@[simp] theorem sampleMidEvent_abortPending (s : State) : (sampleMidEvent s).abortPending = s.abortPending := by
  unfold sampleMidEvent; split <;> rfl

@[simp] theorem sampleMidEvent_bufferedErrors (s : State) : (sampleMidEvent s).bufferedErrors = s.bufferedErrors := by
  unfold sampleMidEvent; split <;> rfl

@[simp] theorem sampleMidEvent_inReset (s : State) : (sampleMidEvent s).inReset = s.inReset := by
  unfold sampleMidEvent; split <;> rfl

@[simp] theorem sampleMidEvent_inputs (s : State) : (sampleMidEvent s).inputs = s.inputs := by
  unfold sampleMidEvent; split <;> rfl

@[simp] theorem sampleMidEvent_mem (s : State) : (sampleMidEvent s).mem = s.mem := by
  unfold sampleMidEvent; split <;> rfl

@[simp] theorem sampleMidEvent_stored (s : State) : (sampleMidEvent s).stored = s.stored := by
  unfold sampleMidEvent; split <;> rfl

@[simp] theorem sampleMidEvent_map (s : State) : (sampleMidEvent s).map = s.map := by
  unfold sampleMidEvent; split <;> rfl

@[simp] theorem sampleMidEvent_deviceAnswers (s : State) : (sampleMidEvent s).deviceAnswers = s.deviceAnswers := by
  unfold sampleMidEvent; split <;> rfl

@[simp] theorem sampleMidEvent_busLog (s : State) : (sampleMidEvent s).busLog = s.busLog := by
  unfold sampleMidEvent; split <;> rfl

@[simp] theorem sampleMidEvent_params (s : State) : (sampleMidEvent s).params = s.params := by
  unfold sampleMidEvent; split <;> rfl

@[simp] theorem sampleMidEvent_draws (s : State) : (sampleMidEvent s).draws = s.draws := by
  unfold sampleMidEvent; split <;> rfl

@[simp] theorem sampleMidEvent_scr (s : State) : (sampleMidEvent s).scr = s.scr := by
  unfold sampleMidEvent; split <;> rfl

@[simp] theorem sampleMidEvent_irqAddr (s : State) : (sampleMidEvent s).signals.irqAddr = s.signals.irqAddr := by
  unfold sampleMidEvent; split <;> rfl

/-! ### Sampling a boundary -/

@[simp] theorem sample_regs (b : Boundary) (s : State) : (sample b s).regs = s.regs := by
  rfl

@[simp] theorem sample_pc (b : Boundary) (s : State) : (sample b s).pc = s.pc := by
  rfl

@[simp] theorem sample_cpsr (b : Boundary) (s : State) : (sample b s).cpsr = s.cpsr := by
  rfl

@[simp] theorem sample_spsr (b : Boundary) (s : State) : (sample b s).spsr = s.spsr := by
  rfl

@[simp] theorem sample_scr (b : Boundary) (s : State) : (sample b s).scr = s.scr := by
  rfl

@[simp] theorem sample_fi (b : Boundary) (s : State) : (sample b s).fi = s.fi := by
  rfl

@[simp] theorem sample_fiWindow (b : Boundary) (s : State) : (sample b s).fiWindow = s.fiWindow := by
  rfl

@[simp] theorem sample_secureCtrl (b : Boundary) (s : State) : (sample b s).secureCtrl = s.secureCtrl := by
  rfl

@[simp] theorem sample_nonSecureCtrl (b : Boundary) (s : State) : (sample b s).nonSecureCtrl = s.nonSecureCtrl := by
  rfl

@[simp] theorem sample_nonSecureBase (b : Boundary) (s : State) : (sample b s).nonSecureBase = s.nonSecureBase := by
  rfl

@[simp] theorem sample_secureBase (b : Boundary) (s : State) : (sample b s).secureBase = s.secureBase := by
  rfl

@[simp] theorem sample_monitorBase (b : Boundary) (s : State) : (sample b s).monitorBase = s.monitorBase := by
  rfl

@[simp] theorem sample_faultStatus (b : Boundary) (s : State) : (sample b s).faultStatus = s.faultStatus := by
  rfl

@[simp] theorem sample_abortPending (b : Boundary) (s : State) : (sample b s).abortPending = s.abortPending := by
  rfl

@[simp] theorem sample_bufferedErrors (b : Boundary) (s : State) : (sample b s).bufferedErrors = s.bufferedErrors := by
  rfl

@[simp] theorem sample_inReset (b : Boundary) (s : State) : (sample b s).inReset = s.inReset := by
  rfl

@[simp] theorem sample_mem (b : Boundary) (s : State) : (sample b s).mem = s.mem := by
  rfl

@[simp] theorem sample_stored (b : Boundary) (s : State) : (sample b s).stored = s.stored := by
  rfl

@[simp] theorem sample_deviceAnswers (b : Boundary) (s : State) : (sample b s).deviceAnswers = s.deviceAnswers := by
  rfl

@[simp] theorem sample_busLog (b : Boundary) (s : State) : (sample b s).busLog = s.busLog := by
  rfl

@[simp] theorem sample_params (b : Boundary) (s : State) : (sample b s).params = s.params := by
  rfl

@[simp] theorem sample_draws (b : Boundary) (s : State) : (sample b s).draws = s.draws := by
  rfl


/-! ### Closing the time in which FI may change -/

@[simp] theorem closeFiWindow_regs (s : State) : (closeFiWindow s).regs = s.regs := by
  rfl

@[simp] theorem closeFiWindow_pc (s : State) : (closeFiWindow s).pc = s.pc := by
  rfl

@[simp] theorem closeFiWindow_cpsr (s : State) : (closeFiWindow s).cpsr = s.cpsr := by
  rfl

@[simp] theorem closeFiWindow_spsr (s : State) : (closeFiWindow s).spsr = s.spsr := by
  rfl

@[simp] theorem closeFiWindow_scr (s : State) : (closeFiWindow s).scr = s.scr := by
  rfl

@[simp] theorem closeFiWindow_fi (s : State) : (closeFiWindow s).fi = s.fi := by
  rfl

@[simp] theorem closeFiWindow_secureCtrl (s : State) : (closeFiWindow s).secureCtrl = s.secureCtrl := by
  rfl

@[simp] theorem closeFiWindow_nonSecureCtrl (s : State) : (closeFiWindow s).nonSecureCtrl = s.nonSecureCtrl := by
  rfl

@[simp] theorem closeFiWindow_nonSecureBase (s : State) : (closeFiWindow s).nonSecureBase = s.nonSecureBase := by
  rfl

@[simp] theorem closeFiWindow_secureBase (s : State) : (closeFiWindow s).secureBase = s.secureBase := by
  rfl

@[simp] theorem closeFiWindow_monitorBase (s : State) : (closeFiWindow s).monitorBase = s.monitorBase := by
  rfl

@[simp] theorem closeFiWindow_faultStatus (s : State) : (closeFiWindow s).faultStatus = s.faultStatus := by
  rfl

@[simp] theorem closeFiWindow_abortPending (s : State) : (closeFiWindow s).abortPending = s.abortPending := by
  rfl

@[simp] theorem closeFiWindow_bufferedErrors (s : State) : (closeFiWindow s).bufferedErrors = s.bufferedErrors := by
  rfl

@[simp] theorem closeFiWindow_inReset (s : State) : (closeFiWindow s).inReset = s.inReset := by
  rfl

@[simp] theorem closeFiWindow_signals (s : State) : (closeFiWindow s).signals = s.signals := by
  rfl

@[simp] theorem closeFiWindow_inputs (s : State) : (closeFiWindow s).inputs = s.inputs := by
  rfl

@[simp] theorem closeFiWindow_mem (s : State) : (closeFiWindow s).mem = s.mem := by
  rfl

@[simp] theorem closeFiWindow_stored (s : State) : (closeFiWindow s).stored = s.stored := by
  rfl

@[simp] theorem closeFiWindow_map (s : State) : (closeFiWindow s).map = s.map := by
  rfl

@[simp] theorem closeFiWindow_deviceAnswers (s : State) : (closeFiWindow s).deviceAnswers = s.deviceAnswers := by
  rfl

@[simp] theorem closeFiWindow_busLog (s : State) : (closeFiWindow s).busLog = s.busLog := by
  rfl

@[simp] theorem closeFiWindow_params (s : State) : (closeFiWindow s).params = s.params := by
  rfl

@[simp] theorem closeFiWindow_draws (s : State) : (closeFiWindow s).draws = s.draws := by
  rfl


/-! ### Draining held errors -/

@[simp] theorem drainErrors_regs (s : State) : (drainErrors s).regs = s.regs := by
  unfold drainErrors; split <;> rfl

@[simp] theorem drainErrors_pc (s : State) : (drainErrors s).pc = s.pc := by
  unfold drainErrors; split <;> rfl

@[simp] theorem drainErrors_cpsr (s : State) : (drainErrors s).cpsr = s.cpsr := by
  unfold drainErrors; split <;> rfl

@[simp] theorem drainErrors_spsr (s : State) : (drainErrors s).spsr = s.spsr := by
  unfold drainErrors; split <;> rfl

@[simp] theorem drainErrors_scr (s : State) : (drainErrors s).scr = s.scr := by
  unfold drainErrors; split <;> rfl

@[simp] theorem drainErrors_fi (s : State) : (drainErrors s).fi = s.fi := by
  unfold drainErrors; split <;> rfl

@[simp] theorem drainErrors_fiWindow (s : State) : (drainErrors s).fiWindow = s.fiWindow := by
  unfold drainErrors; split <;> rfl

@[simp] theorem drainErrors_secureCtrl (s : State) : (drainErrors s).secureCtrl = s.secureCtrl := by
  unfold drainErrors; split <;> rfl

@[simp] theorem drainErrors_nonSecureCtrl (s : State) : (drainErrors s).nonSecureCtrl = s.nonSecureCtrl := by
  unfold drainErrors; split <;> rfl

@[simp] theorem drainErrors_nonSecureBase (s : State) : (drainErrors s).nonSecureBase = s.nonSecureBase := by
  unfold drainErrors; split <;> rfl

@[simp] theorem drainErrors_secureBase (s : State) : (drainErrors s).secureBase = s.secureBase := by
  unfold drainErrors; split <;> rfl

@[simp] theorem drainErrors_monitorBase (s : State) : (drainErrors s).monitorBase = s.monitorBase := by
  unfold drainErrors; split <;> rfl

@[simp] theorem drainErrors_faultStatus (s : State) : (drainErrors s).faultStatus = s.faultStatus := by
  unfold drainErrors; split <;> rfl

@[simp] theorem drainErrors_inReset (s : State) : (drainErrors s).inReset = s.inReset := by
  unfold drainErrors; split <;> rfl

@[simp] theorem drainErrors_signals (s : State) : (drainErrors s).signals = s.signals := by
  unfold drainErrors; split <;> rfl

@[simp] theorem drainErrors_inputs (s : State) : (drainErrors s).inputs = s.inputs := by
  unfold drainErrors; split <;> rfl

@[simp] theorem drainErrors_mem (s : State) : (drainErrors s).mem = s.mem := by
  unfold drainErrors; split <;> rfl

@[simp] theorem drainErrors_stored (s : State) : (drainErrors s).stored = s.stored := by
  unfold drainErrors; split <;> rfl

@[simp] theorem drainErrors_map (s : State) : (drainErrors s).map = s.map := by
  unfold drainErrors; split <;> rfl

@[simp] theorem drainErrors_deviceAnswers (s : State) : (drainErrors s).deviceAnswers = s.deviceAnswers := by
  unfold drainErrors; split <;> rfl

@[simp] theorem drainErrors_busLog (s : State) : (drainErrors s).busLog = s.busLog := by
  unfold drainErrors; split <;> rfl

@[simp] theorem drainErrors_params (s : State) : (drainErrors s).params = s.params := by
  unfold drainErrors; split <;> rfl

@[simp] theorem drainErrors_draws (s : State) : (drainErrors s).draws = s.draws := by
  unfold drainErrors; split <;> rfl


/-! ### Reporting held errors -/

@[simp] theorem reportErrors_regs (n : Nat) (s : State) : (reportErrors n s).regs = s.regs := by
  unfold reportErrors; split <;> rfl

@[simp] theorem reportErrors_pc (n : Nat) (s : State) : (reportErrors n s).pc = s.pc := by
  unfold reportErrors; split <;> rfl

@[simp] theorem reportErrors_cpsr (n : Nat) (s : State) : (reportErrors n s).cpsr = s.cpsr := by
  unfold reportErrors; split <;> rfl

@[simp] theorem reportErrors_spsr (n : Nat) (s : State) : (reportErrors n s).spsr = s.spsr := by
  unfold reportErrors; split <;> rfl

@[simp] theorem reportErrors_scr (n : Nat) (s : State) : (reportErrors n s).scr = s.scr := by
  unfold reportErrors; split <;> rfl

@[simp] theorem reportErrors_fi (n : Nat) (s : State) : (reportErrors n s).fi = s.fi := by
  unfold reportErrors; split <;> rfl

@[simp] theorem reportErrors_fiWindow (n : Nat) (s : State) : (reportErrors n s).fiWindow = s.fiWindow := by
  unfold reportErrors; split <;> rfl

@[simp] theorem reportErrors_secureCtrl (n : Nat) (s : State) : (reportErrors n s).secureCtrl = s.secureCtrl := by
  unfold reportErrors; split <;> rfl

@[simp] theorem reportErrors_nonSecureCtrl (n : Nat) (s : State) : (reportErrors n s).nonSecureCtrl = s.nonSecureCtrl := by
  unfold reportErrors; split <;> rfl

@[simp] theorem reportErrors_nonSecureBase (n : Nat) (s : State) : (reportErrors n s).nonSecureBase = s.nonSecureBase := by
  unfold reportErrors; split <;> rfl

@[simp] theorem reportErrors_secureBase (n : Nat) (s : State) : (reportErrors n s).secureBase = s.secureBase := by
  unfold reportErrors; split <;> rfl

@[simp] theorem reportErrors_monitorBase (n : Nat) (s : State) : (reportErrors n s).monitorBase = s.monitorBase := by
  unfold reportErrors; split <;> rfl

@[simp] theorem reportErrors_faultStatus (n : Nat) (s : State) : (reportErrors n s).faultStatus = s.faultStatus := by
  unfold reportErrors; split <;> rfl

@[simp] theorem reportErrors_inReset (n : Nat) (s : State) : (reportErrors n s).inReset = s.inReset := by
  unfold reportErrors; split <;> rfl

@[simp] theorem reportErrors_signals (n : Nat) (s : State) : (reportErrors n s).signals = s.signals := by
  unfold reportErrors; split <;> rfl

@[simp] theorem reportErrors_inputs (n : Nat) (s : State) : (reportErrors n s).inputs = s.inputs := by
  unfold reportErrors; split <;> rfl

@[simp] theorem reportErrors_mem (n : Nat) (s : State) : (reportErrors n s).mem = s.mem := by
  unfold reportErrors; split <;> rfl

@[simp] theorem reportErrors_stored (n : Nat) (s : State) : (reportErrors n s).stored = s.stored := by
  unfold reportErrors; split <;> rfl

@[simp] theorem reportErrors_map (n : Nat) (s : State) : (reportErrors n s).map = s.map := by
  unfold reportErrors; split <;> rfl

@[simp] theorem reportErrors_deviceAnswers (n : Nat) (s : State) : (reportErrors n s).deviceAnswers = s.deviceAnswers := by
  unfold reportErrors; split <;> rfl

@[simp] theorem reportErrors_busLog (n : Nat) (s : State) : (reportErrors n s).busLog = s.busLog := by
  unfold reportErrors; split <;> rfl

@[simp] theorem reportErrors_params (n : Nat) (s : State) : (reportErrors n s).params = s.params := by
  unfold reportErrors; split <;> rfl

@[simp] theorem reportErrors_draws (n : Nat) (s : State) : (reportErrors n s).draws = s.draws := by
  unfold reportErrors; split <;> rfl


/-! ### The reset sequence -/

@[simp] theorem resetSequence_bufferedErrors (s : State) : (resetSequence s).bufferedErrors = s.bufferedErrors := by
  rfl

@[simp] theorem resetSequence_signals (s : State) : (resetSequence s).signals = s.signals := by
  rfl

@[simp] theorem resetSequence_inputs (s : State) : (resetSequence s).inputs = s.inputs := by
  rfl

@[simp] theorem resetSequence_mem (s : State) : (resetSequence s).mem = s.mem := by
  rfl

@[simp] theorem resetSequence_stored (s : State) : (resetSequence s).stored = s.stored := by
  rfl

@[simp] theorem resetSequence_map (s : State) : (resetSequence s).map = s.map := by
  rfl

@[simp] theorem resetSequence_deviceAnswers (s : State) : (resetSequence s).deviceAnswers = s.deviceAnswers := by
  rfl

@[simp] theorem resetSequence_busLog (s : State) : (resetSequence s).busLog = s.busLog := by
  rfl

@[simp] theorem resetSequence_params (s : State) : (resetSequence s).params = s.params := by
  rfl


/-! ### The destinations of a load multiple -/

@[simp] theorem setRegs_cpsr (l : List (RegNum × Word)) (s : State) : (setRegs l s).cpsr = s.cpsr := by
  induction l generalizing s with
  | nil => rfl
  | cons x l ih => simp [setRegs, ih]

@[simp] theorem setRegs_spsr (l : List (RegNum × Word)) (s : State) : (setRegs l s).spsr = s.spsr := by
  induction l generalizing s with
  | nil => rfl
  | cons x l ih => simp [setRegs, ih]

@[simp] theorem setRegs_scr (l : List (RegNum × Word)) (s : State) : (setRegs l s).scr = s.scr := by
  induction l generalizing s with
  | nil => rfl
  | cons x l ih => simp [setRegs, ih]

@[simp] theorem setRegs_fi (l : List (RegNum × Word)) (s : State) : (setRegs l s).fi = s.fi := by
  induction l generalizing s with
  | nil => rfl
  | cons x l ih => simp [setRegs, ih]

@[simp] theorem setRegs_fiWindow (l : List (RegNum × Word)) (s : State) : (setRegs l s).fiWindow = s.fiWindow := by
  induction l generalizing s with
  | nil => rfl
  | cons x l ih => simp [setRegs, ih]

@[simp] theorem setRegs_secureCtrl (l : List (RegNum × Word)) (s : State) : (setRegs l s).secureCtrl = s.secureCtrl := by
  induction l generalizing s with
  | nil => rfl
  | cons x l ih => simp [setRegs, ih]

@[simp] theorem setRegs_nonSecureCtrl (l : List (RegNum × Word)) (s : State) : (setRegs l s).nonSecureCtrl = s.nonSecureCtrl := by
  induction l generalizing s with
  | nil => rfl
  | cons x l ih => simp [setRegs, ih]

@[simp] theorem setRegs_nonSecureBase (l : List (RegNum × Word)) (s : State) : (setRegs l s).nonSecureBase = s.nonSecureBase := by
  induction l generalizing s with
  | nil => rfl
  | cons x l ih => simp [setRegs, ih]

@[simp] theorem setRegs_secureBase (l : List (RegNum × Word)) (s : State) : (setRegs l s).secureBase = s.secureBase := by
  induction l generalizing s with
  | nil => rfl
  | cons x l ih => simp [setRegs, ih]

@[simp] theorem setRegs_monitorBase (l : List (RegNum × Word)) (s : State) : (setRegs l s).monitorBase = s.monitorBase := by
  induction l generalizing s with
  | nil => rfl
  | cons x l ih => simp [setRegs, ih]

@[simp] theorem setRegs_faultStatus (l : List (RegNum × Word)) (s : State) : (setRegs l s).faultStatus = s.faultStatus := by
  induction l generalizing s with
  | nil => rfl
  | cons x l ih => simp [setRegs, ih]

@[simp] theorem setRegs_abortPending (l : List (RegNum × Word)) (s : State) : (setRegs l s).abortPending = s.abortPending := by
  induction l generalizing s with
  | nil => rfl
  | cons x l ih => simp [setRegs, ih]

@[simp] theorem setRegs_bufferedErrors (l : List (RegNum × Word)) (s : State) : (setRegs l s).bufferedErrors = s.bufferedErrors := by
  induction l generalizing s with
  | nil => rfl
  | cons x l ih => simp [setRegs, ih]

@[simp] theorem setRegs_inReset (l : List (RegNum × Word)) (s : State) : (setRegs l s).inReset = s.inReset := by
  induction l generalizing s with
  | nil => rfl
  | cons x l ih => simp [setRegs, ih]

@[simp] theorem setRegs_signals (l : List (RegNum × Word)) (s : State) : (setRegs l s).signals = s.signals := by
  induction l generalizing s with
  | nil => rfl
  | cons x l ih => simp [setRegs, ih]

@[simp] theorem setRegs_inputs (l : List (RegNum × Word)) (s : State) : (setRegs l s).inputs = s.inputs := by
  induction l generalizing s with
  | nil => rfl
  | cons x l ih => simp [setRegs, ih]

@[simp] theorem setRegs_mem (l : List (RegNum × Word)) (s : State) : (setRegs l s).mem = s.mem := by
  induction l generalizing s with
  | nil => rfl
  | cons x l ih => simp [setRegs, ih]

@[simp] theorem setRegs_stored (l : List (RegNum × Word)) (s : State) : (setRegs l s).stored = s.stored := by
  induction l generalizing s with
  | nil => rfl
  | cons x l ih => simp [setRegs, ih]

@[simp] theorem setRegs_map (l : List (RegNum × Word)) (s : State) : (setRegs l s).map = s.map := by
  induction l generalizing s with
  | nil => rfl
  | cons x l ih => simp [setRegs, ih]

@[simp] theorem setRegs_deviceAnswers (l : List (RegNum × Word)) (s : State) : (setRegs l s).deviceAnswers = s.deviceAnswers := by
  induction l generalizing s with
  | nil => rfl
  | cons x l ih => simp [setRegs, ih]

@[simp] theorem setRegs_busLog (l : List (RegNum × Word)) (s : State) : (setRegs l s).busLog = s.busLog := by
  induction l generalizing s with
  | nil => rfl
  | cons x l ih => simp [setRegs, ih]

@[simp] theorem setRegs_params (l : List (RegNum × Word)) (s : State) : (setRegs l s).params = s.params := by
  induction l generalizing s with
  | nil => rfl
  | cons x l ih => simp [setRegs, ih]

@[simp] theorem setRegs_draws (l : List (RegNum × Word)) (s : State) : (setRegs l s).draws = s.draws := by
  induction l generalizing s with
  | nil => rfl
  | cons x l ih => simp [setRegs, ih]


/-! ### The destinations of a stopped load multiple -/

@[simp] theorem spoilRegs_cpsr (base : RegNum) (l : List (RegNum × Word)) (s : State) : (spoilRegs base l s).cpsr = s.cpsr := by
  induction l generalizing s with
  | nil => rfl
  | cons x l ih => simp only [spoilRegs, ih]; split <;> simp

@[simp] theorem spoilRegs_spsr (base : RegNum) (l : List (RegNum × Word)) (s : State) : (spoilRegs base l s).spsr = s.spsr := by
  induction l generalizing s with
  | nil => rfl
  | cons x l ih => simp only [spoilRegs, ih]; split <;> simp

@[simp] theorem spoilRegs_scr (base : RegNum) (l : List (RegNum × Word)) (s : State) : (spoilRegs base l s).scr = s.scr := by
  induction l generalizing s with
  | nil => rfl
  | cons x l ih => simp only [spoilRegs, ih]; split <;> simp

@[simp] theorem spoilRegs_fi (base : RegNum) (l : List (RegNum × Word)) (s : State) : (spoilRegs base l s).fi = s.fi := by
  induction l generalizing s with
  | nil => rfl
  | cons x l ih => simp only [spoilRegs, ih]; split <;> simp

@[simp] theorem spoilRegs_fiWindow (base : RegNum) (l : List (RegNum × Word)) (s : State) : (spoilRegs base l s).fiWindow = s.fiWindow := by
  induction l generalizing s with
  | nil => rfl
  | cons x l ih => simp only [spoilRegs, ih]; split <;> simp

@[simp] theorem spoilRegs_secureCtrl (base : RegNum) (l : List (RegNum × Word)) (s : State) : (spoilRegs base l s).secureCtrl = s.secureCtrl := by
  induction l generalizing s with
  | nil => rfl
  | cons x l ih => simp only [spoilRegs, ih]; split <;> simp

@[simp] theorem spoilRegs_nonSecureCtrl (base : RegNum) (l : List (RegNum × Word)) (s : State) : (spoilRegs base l s).nonSecureCtrl = s.nonSecureCtrl := by
  induction l generalizing s with
  | nil => rfl
  | cons x l ih => simp only [spoilRegs, ih]; split <;> simp

@[simp] theorem spoilRegs_nonSecureBase (base : RegNum) (l : List (RegNum × Word)) (s : State) : (spoilRegs base l s).nonSecureBase = s.nonSecureBase := by
  induction l generalizing s with
  | nil => rfl
  | cons x l ih => simp only [spoilRegs, ih]; split <;> simp

@[simp] theorem spoilRegs_secureBase (base : RegNum) (l : List (RegNum × Word)) (s : State) : (spoilRegs base l s).secureBase = s.secureBase := by
  induction l generalizing s with
  | nil => rfl
  | cons x l ih => simp only [spoilRegs, ih]; split <;> simp

@[simp] theorem spoilRegs_monitorBase (base : RegNum) (l : List (RegNum × Word)) (s : State) : (spoilRegs base l s).monitorBase = s.monitorBase := by
  induction l generalizing s with
  | nil => rfl
  | cons x l ih => simp only [spoilRegs, ih]; split <;> simp

@[simp] theorem spoilRegs_faultStatus (base : RegNum) (l : List (RegNum × Word)) (s : State) : (spoilRegs base l s).faultStatus = s.faultStatus := by
  induction l generalizing s with
  | nil => rfl
  | cons x l ih => simp only [spoilRegs, ih]; split <;> simp

@[simp] theorem spoilRegs_abortPending (base : RegNum) (l : List (RegNum × Word)) (s : State) : (spoilRegs base l s).abortPending = s.abortPending := by
  induction l generalizing s with
  | nil => rfl
  | cons x l ih => simp only [spoilRegs, ih]; split <;> simp

@[simp] theorem spoilRegs_bufferedErrors (base : RegNum) (l : List (RegNum × Word)) (s : State) : (spoilRegs base l s).bufferedErrors = s.bufferedErrors := by
  induction l generalizing s with
  | nil => rfl
  | cons x l ih => simp only [spoilRegs, ih]; split <;> simp

@[simp] theorem spoilRegs_inReset (base : RegNum) (l : List (RegNum × Word)) (s : State) : (spoilRegs base l s).inReset = s.inReset := by
  induction l generalizing s with
  | nil => rfl
  | cons x l ih => simp only [spoilRegs, ih]; split <;> simp

@[simp] theorem spoilRegs_signals (base : RegNum) (l : List (RegNum × Word)) (s : State) : (spoilRegs base l s).signals = s.signals := by
  induction l generalizing s with
  | nil => rfl
  | cons x l ih => simp only [spoilRegs, ih]; split <;> simp

@[simp] theorem spoilRegs_inputs (base : RegNum) (l : List (RegNum × Word)) (s : State) : (spoilRegs base l s).inputs = s.inputs := by
  induction l generalizing s with
  | nil => rfl
  | cons x l ih => simp only [spoilRegs, ih]; split <;> simp

@[simp] theorem spoilRegs_mem (base : RegNum) (l : List (RegNum × Word)) (s : State) : (spoilRegs base l s).mem = s.mem := by
  induction l generalizing s with
  | nil => rfl
  | cons x l ih => simp only [spoilRegs, ih]; split <;> simp

@[simp] theorem spoilRegs_stored (base : RegNum) (l : List (RegNum × Word)) (s : State) : (spoilRegs base l s).stored = s.stored := by
  induction l generalizing s with
  | nil => rfl
  | cons x l ih => simp only [spoilRegs, ih]; split <;> simp

@[simp] theorem spoilRegs_map (base : RegNum) (l : List (RegNum × Word)) (s : State) : (spoilRegs base l s).map = s.map := by
  induction l generalizing s with
  | nil => rfl
  | cons x l ih => simp only [spoilRegs, ih]; split <;> simp

@[simp] theorem spoilRegs_deviceAnswers (base : RegNum) (l : List (RegNum × Word)) (s : State) : (spoilRegs base l s).deviceAnswers = s.deviceAnswers := by
  induction l generalizing s with
  | nil => rfl
  | cons x l ih => simp only [spoilRegs, ih]; split <;> simp

@[simp] theorem spoilRegs_busLog (base : RegNum) (l : List (RegNum × Word)) (s : State) : (spoilRegs base l s).busLog = s.busLog := by
  induction l generalizing s with
  | nil => rfl
  | cons x l ih => simp only [spoilRegs, ih]; split <;> simp

@[simp] theorem spoilRegs_params (base : RegNum) (l : List (RegNum × Word)) (s : State) : (spoilRegs base l s).params = s.params := by
  induction l generalizing s with
  | nil => rfl
  | cons x l ih => simp only [spoilRegs, ih]; split <;> simp

end Sys2Proof.Machine
end

