-- ==== Sys2Proof/Laws/Access.lean ====
section
/-! SUPPORT. What the memory primitives of spec/20_memory.md R85 can do: which fields an access may change, that it
keeps the canonical forms, and what it comes to on ordinary memory. -/

namespace Sys2Proof.Machine

/-- `t` differs from `s` at most in what a data access may change: memory, the stored addresses, the bus, the
device answers, the held errors and the draw counter. -/
def accessOnly (s t : State) : Prop :=
  t = { s with
    mem := t.mem, stored := t.stored, busLog := t.busLog, deviceAnswers := t.deviceAnswers
    bufferedErrors := t.bufferedErrors, draws := t.draws }

theorem accessOnly.refl (s : State) : accessOnly s s := rfl

theorem accessOnly.trans {s t u : State} (h : accessOnly s t) (h' : accessOnly t u) : accessOnly s u := by
  unfold accessOnly at *
  rw [h', h]

theorem accessOnly.regs {s t : State} (h : accessOnly s t) : t.regs = s.regs := by rw [h]
theorem accessOnly.pc {s t : State} (h : accessOnly s t) : t.pc = s.pc := by rw [h]
theorem accessOnly.cpsr {s t : State} (h : accessOnly s t) : t.cpsr = s.cpsr := by rw [h]
theorem accessOnly.spsr {s t : State} (h : accessOnly s t) : t.spsr = s.spsr := by rw [h]
theorem accessOnly.scr {s t : State} (h : accessOnly s t) : t.scr = s.scr := by rw [h]
theorem accessOnly.fi {s t : State} (h : accessOnly s t) : t.fi = s.fi := by rw [h]
theorem accessOnly.fiWindow {s t : State} (h : accessOnly s t) : t.fiWindow = s.fiWindow := by rw [h]
theorem accessOnly.secureCtrl {s t : State} (h : accessOnly s t) : t.secureCtrl = s.secureCtrl := by rw [h]
theorem accessOnly.nonSecureCtrl {s t : State} (h : accessOnly s t) : t.nonSecureCtrl = s.nonSecureCtrl := by rw [h]
theorem accessOnly.nonSecureBase {s t : State} (h : accessOnly s t) : t.nonSecureBase = s.nonSecureBase := by rw [h]
theorem accessOnly.secureBase {s t : State} (h : accessOnly s t) : t.secureBase = s.secureBase := by rw [h]
theorem accessOnly.monitorBase {s t : State} (h : accessOnly s t) : t.monitorBase = s.monitorBase := by rw [h]
theorem accessOnly.faultStatus {s t : State} (h : accessOnly s t) : t.faultStatus = s.faultStatus := by rw [h]
theorem accessOnly.abortPending {s t : State} (h : accessOnly s t) : t.abortPending = s.abortPending := by rw [h]
theorem accessOnly.inReset {s t : State} (h : accessOnly s t) : t.inReset = s.inReset := by rw [h]
theorem accessOnly.signals {s t : State} (h : accessOnly s t) : t.signals = s.signals := by rw [h]
theorem accessOnly.inputs {s t : State} (h : accessOnly s t) : t.inputs = s.inputs := by rw [h]
theorem accessOnly.map {s t : State} (h : accessOnly s t) : t.map = s.map := by rw [h]
theorem accessOnly.params {s t : State} (h : accessOnly s t) : t.params = s.params := by rw [h]

theorem accessOnly.world {s t : State} (h : accessOnly s t) : t.world = s.world := by
  simp [State.world, h.scr, h.cpsr]

/-- The oracle's answer for a state depends on the map, the mode and the world alone. -/
theorem accessOnly.abortCause {s t : State} (h : accessOnly s t) (ty : AccessType) (a : Word) (n : Nat) :
    t.abortCause ty a n = s.abortCause ty a n := by
  simp [State.abortCause, AbortRegion.applies, h.map, h.cpsr, h.world]

theorem accessOnly.deviceAt {s t : State} (h : accessOnly s t) (a : Word) (n : Nat) :
    t.deviceAt a n = s.deviceAt a n := by
  simp [State.deviceAt, h.map]

theorem accessOnly.externalIsPrecise {s t : State} (h : accessOnly s t) (ty : AccessType) (b : Bool) (a : Word) :
    t.externalIsPrecise ty b a = s.externalIsPrecise ty b a := by
  cases ty <;> simp [State.externalIsPrecise, State.stronglyOrderedAt, h.map, h.fi]

theorem accessOnly.dataAbort {s t : State} (h : accessOnly s t) (ty : AccessType) (b : Bool) (a : Word) :
    t.dataAbort ty b a = s.dataAbort ty b a := by
  simp [State.dataAbort, h.abortCause, h.externalIsPrecise]

theorem noteImprecise_accessOnly (s : State) (ty : AccessType) (b : Bool) (a : Word) :
    accessOnly s (s.noteImprecise ty b a) := by
  unfold accessOnly State.noteImprecise; split <;> rfl

theorem deviceAnswer_accessOnly (s : State) : accessOnly s (deviceAnswer s).2 := by
  unfold accessOnly deviceAnswer; split <;> rfl

theorem deviceRead_accessOnly (s : State) (a : Word) : accessOnly s (deviceRead s a).2 :=
  (deviceAnswer_accessOnly s).trans rfl

/-- What a data access does to the two canonical forms: it keeps them. -/
def keepsForms (s t : State) : Prop :=
  (Memory.wf s.mem = true → Memory.wf t.mem = true) ∧ (storedWf s.stored = true → storedWf t.stored = true)

theorem keepsForms.trans {s t u : State} (h : keepsForms s t) (h' : keepsForms t u) : keepsForms s u :=
  ⟨h'.1 ∘ h.1, h'.2 ∘ h.2⟩

theorem keepsForms_of_eq {s t : State} (h : t.mem = s.mem) (h' : t.stored = s.stored) : keepsForms s t := by
  unfold keepsForms; rw [h, h']; exact ⟨id, id⟩

/-- Everything a word read can come to (R73, R78, R85). -/
theorem readWord_cases (b : Bool) (a : Word) (s : State) :
    (wordAligned a = false ∧ readWord b a s = misaligned s Word) ∨
    (wordAligned a = true ∧ ∃ src, s.dataAbort .read b a = some src ∧ readWord b a s = .abort src s) ∨
    (wordAligned a = true ∧ s.dataAbort .read b a = none ∧
      ∃ v t, readWord b a s = .done v t ∧ accessOnly s t ∧ t.mem = s.mem ∧ t.stored = s.stored ∧
        (s.deviceAt a 4 = false → v = memWord s.mem s.cpsr.e a ∧ t = s.noteImprecise .read b a)) := by
  unfold readWord
  cases hal : wordAligned a
  · exact .inl ⟨rfl, by simp⟩
  · refine .inr ?_
    cases hda : s.dataAbort .read b a with
    | some src => exact .inl ⟨rfl, src, rfl, by simp⟩
    | none =>
      refine .inr ⟨rfl, rfl, ?_⟩
      have hn := noteImprecise_accessOnly s .read b a
      cases hdev : s.deviceAt a 4
      · exact ⟨memWord s.mem s.cpsr.e a, s.noteImprecise .read b a, by simp [hn.deviceAt, hdev], hn, by simp, by simp,
          fun _ => ⟨rfl, rfl⟩⟩
      · exact ⟨(deviceRead (s.noteImprecise .read b a) a).1, (deviceRead (s.noteImprecise .read b a) a).2,
          by simp [hn.deviceAt, hdev], hn.trans (deviceRead_accessOnly _ _), by simp, by simp,
          fun h => absurd h (by simp)⟩

/-- Everything a word write can come to (R73, R78, R85). -/
theorem writeWord_cases (a v : Word) (s : State) :
    (wordAligned a = false ∧ writeWord a v s = misaligned s Unit) ∨
    (wordAligned a = true ∧ ∃ src, s.dataAbort .write false a = some src ∧ writeWord a v s = .abort src s) ∨
    (wordAligned a = true ∧ s.dataAbort .write false a = none ∧
      ∃ t, writeWord a v s = .done () t ∧ accessOnly s t ∧ keepsForms s t ∧
        (s.deviceAt a 4 = true → t.mem = s.mem ∧ t.stored = storedSetWord s.stored a) ∧
        (s.deviceAt a 4 = false → t =
          { s.noteImprecise .write false a with
            mem := memSetWord s.mem s.cpsr.e a v, stored := storedSetWord s.stored a })) := by
  unfold writeWord
  cases hal : wordAligned a
  · exact .inl ⟨rfl, by simp⟩
  · refine .inr ?_
    cases hda : s.dataAbort .write false a with
    | some src => exact .inl ⟨rfl, src, rfl, by simp⟩
    | none =>
      refine .inr ⟨rfl, rfl, ?_⟩
      have hn := noteImprecise_accessOnly s .write false a
      cases hdev : s.deviceAt a 4
      · refine ⟨_, by simp [hn.deviceAt, hdev]; rfl, ?_, ?_, fun h => absurd h (by simp), fun _ => by simp⟩
        · simp [accessOnly]
        · exact ⟨fun h => wf_memSetWord (by simpa using h) _ _ _, fun h => storedWf_storedSetWord (by simpa using h) _⟩
      · refine ⟨_, by simp [hn.deviceAt, hdev]; rfl, ?_, ?_, fun _ => by simp, fun h => absurd h (by simp)⟩
        · simp [accessOnly]
        · exact ⟨fun h => by simpa using h, fun h => storedWf_storedSetWord (by simpa using h) _⟩

theorem misaligned_not_done (s t : State) (α : Type) (v : α) : misaligned s α ≠ .done v t := by
  unfold misaligned; split <;> simp

theorem misaligned_abort {s t : State} {α : Type} {src : AbortSource} (h : misaligned s α = .abort src t) :
    src = .mmu .alignment ∧ t = s ∧ s.params.strictAlignment = true := by
  unfold misaligned at h
  split at h
  · next hs => simp only [Access.abort.injEq] at h; exact ⟨h.1.symm, h.2.symm, hs⟩
  · simp at h

/-- A read that completes changes only what an access may, and no memory. -/
theorem readWord_done {b : Bool} {a v : Word} {s t : State} (h : readWord b a s = .done v t) :
    accessOnly s t ∧ t.mem = s.mem ∧ t.stored = s.stored := by
  rcases readWord_cases b a s with ⟨_, h1⟩ | ⟨_, src, _, h1⟩ | ⟨_, _, w, u, h1, h2, h3, h4, _⟩ <;> rw [h1] at h
  · exact absurd h (misaligned_not_done _ _ _ _)
  · simp at h
  · simp only [Access.done.injEq] at h
    obtain ⟨rfl, rfl⟩ := h
    exact ⟨h2, h3, h4⟩

/-- A read that aborts leaves the state as it was. -/
theorem readWord_abort {b : Bool} {a : Word} {s t : State} {src : AbortSource} (h : readWord b a s = .abort src t) :
    t = s := by
  rcases readWord_cases b a s with ⟨_, h1⟩ | ⟨_, src', _, h1⟩ | ⟨_, _, w, u, h1, _⟩ <;> rw [h1] at h
  · exact (misaligned_abort h).2.1
  · simp only [Access.abort.injEq] at h; exact h.2.symm
  · simp at h

theorem writeWord_done {a v : Word} {s t : State} {u : Unit} (h : writeWord a v s = .done u t) :
    accessOnly s t ∧ keepsForms s t := by
  rcases writeWord_cases a v s with ⟨_, h1⟩ | ⟨_, src, _, h1⟩ | ⟨_, _, w, h1, h2, h3, _⟩ <;> rw [h1] at h
  · exact absurd h (misaligned_not_done _ _ _ _)
  · simp at h
  · simp only [Access.done.injEq] at h
    obtain ⟨_, rfl⟩ := h
    exact ⟨h2, h3⟩

theorem writeWord_abort {a v : Word} {s t : State} {src : AbortSource} (h : writeWord a v s = .abort src t) : t = s := by
  rcases writeWord_cases a v s with ⟨_, h1⟩ | ⟨_, src', _, h1⟩ | ⟨_, _, w, h1, _⟩ <;> rw [h1] at h
  · exact (misaligned_abort h).2.1
  · simp only [Access.abort.injEq] at h; exact h.2.symm
  · simp at h

/-- No byte outside the word written differs. -/
theorem writeWord_outside {a v : Word} {s t : State} {u : Unit} (hm : Memory.wf s.mem = true)
    (h : writeWord a v s = .done u t) {b : Nat} (hb : ∀ k < 4, b ≠ byteAddr a k) :
    readByte t.mem b = readByte s.mem b := by
  rcases writeWord_cases a v s with ⟨_, h1⟩ | ⟨_, src, _, h1⟩ | ⟨_, _, w, h1, _, _, h4, h5⟩ <;> rw [h1] at h
  · exact absurd h (misaligned_not_done _ _ _ _)
  · simp at h
  · simp only [Access.done.injEq] at h
    obtain ⟨_, rfl⟩ := h
    cases hd : s.deviceAt a 4
    · rw [h5 hd]; exact readByte_memSetWord_outside hm _ _ _ hb
    · rw [(h4 hd).1]

/-! ### Several words -/

theorem readWords_done {b : Bool} {as vs : List Word} {s t : State} (h : readWords b as s = .done vs t) :
    accessOnly s t ∧ t.mem = s.mem ∧ t.stored = s.stored ∧ vs.length = as.length := by
  induction as generalizing s vs t with
  | nil =>
    simp only [readWords, Loads.done.injEq] at h
    obtain ⟨rfl, rfl⟩ := h
    exact ⟨.refl _, rfl, rfl, rfl⟩
  | cons a rest ih =>
    simp only [readWords] at h
    split at h
    · next v s1 h1 =>
      obtain ⟨e1, m1, d1⟩ := readWord_done h1
      split at h
      · next ws s2 h2 =>
        obtain ⟨e2, m2, d2, l2⟩ := ih h2
        simp only [Loads.done.injEq] at h
        obtain ⟨rfl, rfl⟩ := h
        exact ⟨e1.trans e2, m2.trans m1, d2.trans d1, by simp [l2]⟩
      · simp at h
      · simp at h
    · simp at h
    · simp at h

theorem readWords_abort {b : Bool} {as got : List Word} {s t : State} {src : AbortSource}
    (h : readWords b as s = .abort src got t) :
    accessOnly s t ∧ t.mem = s.mem ∧ t.stored = s.stored ∧ got.length < as.length := by
  induction as generalizing s got t src with
  | nil => simp [readWords] at h
  | cons a rest ih =>
    simp only [readWords] at h
    split at h
    · next v s1 h1 =>
      obtain ⟨e1, m1, d1⟩ := readWord_done h1
      split at h
      · simp at h
      · next src2 ws s2 h2 =>
        obtain ⟨e2, m2, d2, l2⟩ := ih h2
        simp only [Loads.abort.injEq] at h
        obtain ⟨_, rfl, rfl⟩ := h
        exact ⟨e1.trans e2, m2.trans m1, d2.trans d1, by simpa using l2⟩
      · simp at h
    · next src1 s1 h1 =>
      simp only [Loads.abort.injEq] at h
      obtain ⟨_, rfl, rfl⟩ := h
      rw [readWord_abort h1]
      exact ⟨.refl _, rfl, rfl, by simp⟩
    · simp at h

theorem writeWords_done {l : List (Word × Word)} {s t : State} {u : Unit} (h : writeWords l s = .done u t) :
    accessOnly s t ∧ keepsForms s t := by
  induction l generalizing s with
  | nil =>
    simp only [writeWords, Access.done.injEq] at h
    rw [h.2]; exact ⟨.refl _, keepsForms_of_eq rfl rfl⟩
  | cons p rest ih =>
    obtain ⟨a, v⟩ := p
    simp only [writeWords] at h
    split at h
    · next s1 h1 =>
      obtain ⟨e1, k1⟩ := writeWord_done h1
      obtain ⟨e2, k2⟩ := ih h
      exact ⟨e1.trans e2, k1.trans k2⟩
    · simp at h
    · simp at h

theorem writeWords_abort {l : List (Word × Word)} {s t : State} {src : AbortSource}
    (h : writeWords l s = .abort src t) : accessOnly s t ∧ keepsForms s t := by
  induction l generalizing s with
  | nil => simp [writeWords] at h
  | cons p rest ih =>
    obtain ⟨a, v⟩ := p
    simp only [writeWords] at h
    split at h
    · next s1 h1 =>
      obtain ⟨e1, k1⟩ := writeWord_done h1
      obtain ⟨e2, k2⟩ := ih h
      exact ⟨e1.trans e2, k1.trans k2⟩
    · next src1 s1 h1 =>
      simp only [Access.abort.injEq] at h
      rw [← h.2, writeWord_abort h1]
      exact ⟨.refl _, keepsForms_of_eq rfl rfl⟩
    · simp at h

/-- No byte outside the words written differs, whether the last access completed or aborted (R76). -/
theorem writeWords_outside {l : List (Word × Word)} {s t : State} (hm : Memory.wf s.mem = true)
    (h : (∃ u, writeWords l s = .done u t) ∨ ∃ src, writeWords l s = .abort src t) {b : Nat}
    (hb : ∀ p ∈ l, ∀ k < 4, b ≠ byteAddr p.1 k) : readByte t.mem b = readByte s.mem b := by
  induction l generalizing s with
  | nil =>
    simp only [writeWords, Access.done.injEq] at h
    rcases h with ⟨_, _, h⟩ | ⟨_, h⟩
    · rw [h]
    · simp at h
  | cons p rest ih =>
    obtain ⟨a, v⟩ := p
    have hb1 : ∀ k < 4, b ≠ byteAddr a k := hb (a, v) (by simp)
    have hb2 : ∀ p ∈ rest, ∀ k < 4, b ≠ byteAddr p.1 k := fun p hp => hb p (by simp [hp])
    cases h1 : writeWord a v s with
    | done u1 s1 =>
      simp only [writeWords, h1] at h
      rw [ih ((writeWord_done h1).2.1 hm) h hb2, writeWord_outside hm h1 hb1]
    | abort src1 s1 =>
      simp only [writeWords, h1] at h
      rcases h with ⟨_, h⟩ | ⟨_, h⟩
      · simp at h
      · simp only [Access.abort.injEq] at h
        rw [← h.2, writeWord_abort h1]
    | refused r =>
      simp only [writeWords, h1] at h
      rcases h with ⟨_, h⟩ | ⟨_, h⟩ <;> simp at h

end Sys2Proof.Machine
end

