-- ==== Sys2Proof/Laws/Decode.lean ====
section
/-! SUPPORT. The decoder's tests bit by bit, and the field extractions (spec/30_encoding.md R102 to R106). -/

namespace Sys2Proof

/-- A row's test holds when every bit under the mask has the row's value and the value has no other bit. -/
theorem fits_iff {w m v : Word} :
    fits w m v = true ↔ ∀ k, k < 32 → (w.getLsbD k && m.getLsbD k) = v.getLsbD k := by
  unfold fits
  rw [beq_iff_eq]
  constructor
  · intro h k _
    rw [← h, BitVec.getLsbD_and]
  · intro h
    apply BitVec.eq_of_getLsbD_eq
    intro k hk
    rw [BitVec.getLsbD_and]
    exact h k hk

/-- One bit under the mask with the other value refutes a row. -/
theorem fits_false {w m v : Word} (k : Nat) (hm : m.getLsbD k = true) (h : w.getLsbD k = !v.getLsbD k) :
    fits w m v = false := by
  cases hf : fits w m v
  · rfl
  · exfalso
    by_cases hk : k < 32
    · have := fits_iff.1 hf k hk
      rw [hm, h, Bool.and_true] at this
      cases hv : v.getLsbD k <;> simp [hv] at this
    · rw [BitVec.getLsbD_of_ge _ _ (by omega)] at hm
      simp at hm

theorem fitsHalf_iff {w m v : Half} :
    fitsHalf w m v = true ↔ ∀ k, k < 16 → (w.getLsbD k && m.getLsbD k) = v.getLsbD k := by
  unfold fitsHalf
  rw [beq_iff_eq]
  constructor
  · intro h k _
    rw [← h, BitVec.getLsbD_and]
  · intro h
    apply BitVec.eq_of_getLsbD_eq
    intro k hk
    rw [BitVec.getLsbD_and]
    exact h k hk

theorem fitsHalf_false {w m v : Half} (k : Nat) (hm : m.getLsbD k = true) (h : w.getLsbD k = !v.getLsbD k) :
    fitsHalf w m v = false := by
  cases hf : fitsHalf w m v
  · rfl
  · exfalso
    by_cases hk : k < 16
    · have := fitsHalf_iff.1 hf k hk
      rw [hm, h, Bool.and_true] at this
      cases hv : v.getLsbD k <;> simp [hv] at this
    · rw [BitVec.getLsbD_of_ge _ _ (by omega)] at hm
      simp at hm

@[simp] theorem Cond.ofBits?_toBits (c : Cond) : Cond.ofBits? c.toBits = some c := by cases c <;> rfl

theorem Cond.toBits_of_ofBits? {b : BitVec 4} {c : Cond} (h : Cond.ofBits? b = some c) : c.toBits = b := by
  revert h; revert b; cases c <;> decide

theorem Cond.toBits_ne (c : Cond) : c.toBits ≠ 0b1111 := by cases c <;> decide

@[simp] theorem AddrMode.ofPU_pu (am : AddrMode) : AddrMode.ofPU am.p am.u = am := by cases am <;> rfl

@[simp] theorem AddrMode.p_ofPU (p u : Bool) : (AddrMode.ofPU p u).p = p := by cases p <;> cases u <;> rfl

@[simp] theorem AddrMode.u_ofPU (p u : Bool) : (AddrMode.ofPU p u).u = u := by cases p <;> cases u <;> rfl

@[simp] theorem regBits_toFin (n : RegNum) : (regBits n).toFin = n := rfl

@[simp] theorem regBits_of_toFin (b : BitVec 4) : regBits b.toFin = b := rfl

/-- Four bytes laid out and put together again. -/
theorem bytes_append (w : Word) :
    w.extractLsb' 24 8 ++ w.extractLsb' 16 8 ++ w.extractLsb' 8 8 ++ w.extractLsb' 0 8 = w := by
  apply BitVec.eq_of_getLsbD_eq
  intro i hi
  simp only [BitVec.getLsbD_append, BitVec.getLsbD_extractLsb']
  interval_cases i <;> simp

theorem halfBytes_append (h : Half) : h.extractLsb' 8 8 ++ h.extractLsb' 0 8 = h := by
  apply BitVec.eq_of_getLsbD_eq
  intro i hi
  simp only [BitVec.getLsbD_append, BitVec.getLsbD_extractLsb']
  interval_cases i <;> simp

/-- One test of the decoder. -/
theorem ite_instr {b : Bool} {x y : Decoded} {i : Instr} (h : (if b = true then x else y) = .instr i) :
    (b = true ∧ x = .instr i) ∨ (b = false ∧ y = .instr i) := by
  cases b
  · exact .inr ⟨rfl, by simpa using h⟩
  · exact .inl ⟨rfl, by simpa using h⟩

/-- The bytes of an ARM word decode as the word does (R72). -/
theorem decode_arm_bytes (w : Word) : decode false (Encoding.arm w).bytes = decodeArm w := by
  simp only [Encoding.bytes, decode]
  rw [bytes_append]

/-- The bytes of a Thumb halfword decode as the halfword does (R72). -/
theorem decode_thumb_bytes (h : Half) : decode true (Encoding.thumb h).bytes = decodeThumb h := by
  simp only [Encoding.bytes, decode]
  rw [halfBytes_append]

end Sys2Proof
end

