-- ==== Sys2Proof/Laws/Registers.lean ====
section
/-! SUPPORT. The register file: what a read gives after a write, and which physical register a number denotes
(spec/10_state.md R21 to R23). -/

namespace Sys2Proof.Machine

theorem Banked.get_set (x : Banked) (b c : Bank) (v : Word) : (x.set b v).get c = if c = b then v else x.get c := by
  cases b <;> cases c <;> rfl

theorem RegFile.get_set (x : RegFile) (p q : PhysReg) (v : Word) :
    (x.set p v).get q = if q = p then v else x.get q := by
  cases p <;> cases q <;> simp [RegFile.set, RegFile.get, Banked.get_set, Vector.getElem_set, Fin.ext_iff, eq_comm]

@[simp] theorem RegFile.get_set_same (x : RegFile) (p : PhysReg) (v : Word) : (x.set p v).get p = v := by
  simp [RegFile.get_set]

theorem RegFile.get_set_other (x : RegFile) {p q : PhysReg} (v : Word) (h : q ≠ p) : (x.set p v).get q = x.get q := by
  simp [RegFile.get_set, h]

theorem SavedPsrs.get?_set (x : SavedPsrs) (b c : Bank) (v : Word) :
    (x.set b v).get? c = if c = b ∧ b ≠ .usr then some v else x.get? c := by
  cases b <;> cases c <;> rfl

theorem SavedPsrs.get?_set_other (x : SavedPsrs) {b c : Bank} (v : Word) (h : c ≠ b) : (x.set b v).get? c = x.get? c := by
  simp [SavedPsrs.get?_set, h]

theorem SavedPsrs.get?_eq_none {x : SavedPsrs} {b : Bank} : x.get? b = none ↔ b = .usr := by
  cases b <;> simp [SavedPsrs.get?]

/-- User and System mode alone have no SPSR (R32). -/
theorem curSpsr_isSome (s : State) : s.curSpsr.isSome = s.cpsr.mode.hasSpsr := by
  cases h : s.cpsr.mode <;> simp [State.curSpsr, h, Mode.bank, SavedPsrs.get?, Mode.hasSpsr]

@[simp] theorem physReg_pc (m : Mode) : physReg m 15 = none := rfl

@[simp] theorem physReg_sp (m : Mode) : physReg m 13 = some (.sp m.bank) := rfl

@[simp] theorem physReg_lr (m : Mode) : physReg m 14 = some (.lr m.bank) := rfl

theorem physReg_eq_none {m : Mode} {n : RegNum} : physReg m n = none ↔ n = 15 := by
  revert n; cases m <;> decide

/-- Two register numbers of one mode never denote one physical register. -/
theorem physReg_injective {m : Mode} {n k : RegNum} (h : physReg m n = physReg m k) : n = k := by
  revert n k; cases m <;> decide

theorem setReg_regs {s : State} {n : RegNum} {p : PhysReg} (h : physReg s.cpsr.mode n = some p) (v : Word) :
    (s.setReg n v).regs = s.regs.set p v := by
  simp [State.setReg, h]

@[simp] theorem setReg_pc_of_ne (s : State) {n : RegNum} (h : n ≠ 15) (v : Word) : (s.setReg n v).pc = s.pc := by
  unfold State.setReg; split
  · rfl
  · next h' => exact absurd (physReg_eq_none.1 h') h

theorem setReg_eq {s : State} {n : RegNum} {p : PhysReg} (h : physReg s.cpsr.mode n = some p) (v : Word) :
    s.setReg n v = { s with regs := s.regs.set p v } := by
  simp [State.setReg, h]

theorem reg_eq {s : State} {n : RegNum} {p : PhysReg} (h : physReg s.cpsr.mode n = some p) :
    s.reg n = s.regs.get p := by
  simp [State.reg, h]

/-- Reading a register number after writing one, in the same mode (R23). -/
theorem reg_setReg (s : State) (n k : RegNum) (v : Word) :
    (s.setReg n v).reg k = if k = n then v else s.reg k := by
  by_cases hk : k = n
  · subst hk
    cases h : physReg s.cpsr.mode k <;> simp [State.reg, State.setReg, h]
  · have hp : physReg s.cpsr.mode k ≠ physReg s.cpsr.mode n := fun h => hk (physReg_injective h)
    cases hn : physReg s.cpsr.mode n <;> cases hq : physReg s.cpsr.mode k <;>
      simp_all [State.reg, State.setReg, RegFile.get_set]

theorem setReg_get_other {s : State} {n : RegNum} {v : Word} {p : PhysReg}
    (h : physReg s.cpsr.mode n ≠ some p) : (s.setReg n v).regs.get p = s.regs.get p := by
  unfold State.setReg; split
  · next q hq => exact RegFile.get_set_other _ _ (fun e => h (e ▸ hq))
  · rfl

@[simp] theorem lr_def (s : State) : s.reg 14 = s.lr := rfl

end Sys2Proof.Machine
end

