-- ==== Sys2Proof/Laws/Status.lean ====
section
/-! SUPPORT. The status registers as words (spec/10_state.md R25, R26). -/

namespace Sys2Proof.Machine

@[simp] theorem Mode.ofBits?_toBits (m : Mode) : Mode.ofBits? m.toBits = some m := by cases m <;> rfl

theorem Mode.toBits_of_ofBits? {b : BitVec 5} {m : Mode} (h : Mode.ofBits? b = some m) : m.toBits = b := by
  revert h; revert b; cases m <;> decide

theorem Mode.toBits_injective {m n : Mode} (h : m.toBits = n.toBits) : m = n := by
  have := congrArg Mode.ofBits? h
  simpa using this

/-- The place of every field of the CPSR in its word (R25). -/
theorem Psr.toWord_getLsbD (p : Psr) (k : Nat) :
    p.toWord.getLsbD k =
      if k < 5 then p.mode.toBits.getLsbD k else if k = 5 then p.t else if k = 6 then p.f else if k = 7 then p.i
      else if k = 8 then p.a else if k = 9 then p.e else if k < 16 then p.reserved15.getLsbD (k - 10)
      else if k < 20 then p.ge.getLsbD (k - 16) else if k < 24 then p.reserved23.getLsbD (k - 20)
      else if k = 24 then p.j else if k < 27 then p.reserved26.getLsbD (k - 25) else if k = 27 then p.q
      else if k = 28 then p.v else if k = 29 then p.c else if k = 30 then p.z else if k = 31 then p.n else false := by
  by_cases hk : k < 32
  · interval_cases k <;> simp only [Psr.toWord, flag, BitVec.getLsbD_append, BitVec.getLsbD_ofBool] <;> rfl
  · rw [BitVec.getLsbD_of_ge _ _ (by omega)]
    repeat rw [if_neg (by omega)]

/-- The field of `len` bits at `lo`, bit by bit. -/
theorem extractLsb'_eq_of_bits {w lo len : Nat} {x : BitVec w} {y : BitVec len}
    (h : ∀ i, i < len → x.getLsbD (lo + i) = y.getLsbD i) : x.extractLsb' lo len = y := by
  apply BitVec.eq_of_getLsbD_eq
  intro i hi
  simp only [BitVec.getLsbD_extractLsb', hi, decide_true, Bool.true_and, h i hi]

@[simp] theorem Psr.toWord_mode (p : Psr) : p.toWord.extractLsb' 0 5 = p.mode.toBits :=
  extractLsb'_eq_of_bits fun i hi => by
    rw [Psr.toWord_getLsbD, if_pos (by omega), Nat.zero_add]

/-- A CPSR survives becoming a word. -/
@[simp] theorem Psr.withMode_toWord (p : Psr) (m : Mode) : Psr.withMode p.toWord m = { p with mode := m } := by
  have h15 : p.toWord.extractLsb' 10 6 = p.reserved15 :=
    extractLsb'_eq_of_bits fun i hi => by
      rw [Psr.toWord_getLsbD]
      interval_cases i <;> rfl
  have hge : p.toWord.extractLsb' 16 4 = p.ge :=
    extractLsb'_eq_of_bits fun i hi => by
      rw [Psr.toWord_getLsbD]
      interval_cases i <;> rfl
  have h23 : p.toWord.extractLsb' 20 4 = p.reserved23 :=
    extractLsb'_eq_of_bits fun i hi => by
      rw [Psr.toWord_getLsbD]
      interval_cases i <;> rfl
  have h26 : p.toWord.extractLsb' 25 2 = p.reserved26 :=
    extractLsb'_eq_of_bits fun i hi => by
      rw [Psr.toWord_getLsbD]
      interval_cases i <;> rfl
  simp only [Psr.withMode, h15, hge, h23, h26, Psr.toWord_getLsbD]
  rfl

@[simp] theorem Psr.ofWord?_toWord (p : Psr) : Psr.ofWord? p.toWord = some p := by
  simp [Psr.ofWord?]

/-- A word whose mode field names a mode survives becoming a CPSR. -/
theorem Psr.toWord_withMode {w : Word} {m : Mode} (h : m.toBits = w.extractLsb' 0 5) :
    (Psr.withMode w m).toWord = w := by
  apply BitVec.eq_of_getLsbD_eq
  intro i hi
  rw [Psr.toWord_getLsbD]
  simp only [Psr.withMode, h, BitVec.getLsbD_extractLsb']
  interval_cases i <;> simp only [reduceIte, Nat.reduceLT, Nat.reduceEqDiff, Nat.reduceAdd, Nat.reduceSub,
    Nat.zero_add, decide_true, Bool.true_and]

theorem Psr.toWord_of_ofWord? {w : Word} {p : Psr} (h : Psr.ofWord? w = some p) : p.toWord = w := by
  simp only [Psr.ofWord?, Option.map_eq_some_iff] at h
  obtain ⟨m, hm, rfl⟩ := h
  exact Psr.toWord_withMode (Mode.toBits_of_ofBits? hm)

theorem Psr.ofWord?_eq_some {w : Word} {p : Psr} : Psr.ofWord? w = some p ↔ p.toWord = w :=
  ⟨Psr.toWord_of_ofWord?, fun h => h ▸ Psr.ofWord?_toWord p⟩

/-- Two CPSRs with one word are one. -/
theorem Psr.toWord_injective {p q : Psr} (h : p.toWord = q.toWord) : p = q := by
  have := congrArg Psr.ofWord? h
  simpa using this

/-- Each bit of a merge comes from the new word inside the mask and from the old one outside. -/
theorem merge_getLsbD (mask old new : Word) {k : Nat} (hk : k < 32) :
    (merge mask old new).getLsbD k = if mask.getLsbD k then new.getLsbD k else old.getLsbD k := by
  simp only [merge, BitVec.getLsbD_or, BitVec.getLsbD_and, BitVec.getLsbD_not, hk, decide_true, Bool.true_and]
  cases mask.getLsbD k <;> simp

end Sys2Proof.Machine
end

