-- ==== Sys2Proof/Laws/Exceptions.lean ====
section
/-! SUPPORT. What taking an exception writes (spec/60_exceptions.md R223), what a return restores
(spec/41_exception_return.md R150, R155), and what can end an instruction. -/

namespace Sys2Proof.Machine

/-! ### The next instruction -/

theorem advance_next {len : Nat} {s t : State} (h : advance len s = .next t) :
    s.pc.toNat + len < 2 ^ 32 ∧ t = { s with pc := s.pc + BitVec.ofNat 32 len } := by
  unfold advance at h
  split at h
  · next hlt => simp only [Host.Outcome.next.injEq] at h; exact ⟨hlt, h.symm⟩
  · simp at h

theorem advance_of_lt {len : Nat} {s : State} (h : s.pc.toNat + len < 2 ^ 32) :
    advance len s = .next { s with pc := s.pc + BitVec.ofNat 32 len } := by
  unfold advance; rw [if_pos h]

theorem conditional_of_holds {c : Cond} {s : State} (h : condHolds c s.cpsr = true)
    (body : State → Host.Outcome State Fault Refusal) : conditional c s body = body s := by
  simp [conditional, h]

theorem conditional_of_fails {c : Cond} {s : State} (h : condHolds c s.cpsr = false)
    (body : State → Host.Outcome State Fault Refusal) : conditional c s body = advance 4 s := by
  simp [conditional, h]

/-! ### The mode an entry leaves -/

/-- The mode that the exception enters (R220, R223). -/
def Exception.enters (x : Exception) (s : State) : Mode := if x.toMonitor s.scr then .monitor else x.mode

theorem leaveNonSecure_toMonitor (x : Exception) (s : State) :
    x.toMonitor (leaveNonSecure s).scr = x.toMonitor s.scr := by
  unfold leaveNonSecure; split <;> cases x <;> rfl

@[simp] theorem takeException_mode (x : Exception) (ret : Word) (s : State) :
    (takeException x ret s).cpsr.mode = x.enters s := by
  simp only [takeException, entryPsr, leaveNonSecure_toMonitor, Exception.enters]
  split <;> rfl

theorem Exception.enters_hasSpsr (x : Exception) (s : State) : (x.enters s).bank ≠ .usr := by
  unfold Exception.enters; split
  · simp [Mode.bank]
  · cases x <;> simp [Exception.mode, Mode.bank]

theorem Exception.enters_privileged (x : Exception) (s : State) : (x.enters s).privileged = true := by
  unfold Exception.enters; split
  · rfl
  · cases x <;> rfl

theorem takeException_regs (x : Exception) (ret : Word) (s : State) :
    (takeException x ret s).regs = s.regs.set (.lr (x.enters s).bank) ret := by
  simp only [takeException, leaveNonSecure_toMonitor, Exception.enters]
  simp

theorem takeException_spsr (x : Exception) (ret : Word) (s : State) :
    (takeException x ret s).spsr = s.spsr.set (x.enters s).bank s.cpsr.toWord := by
  simp only [takeException, leaveNonSecure_toMonitor, Exception.enters]
  simp

/-- R14 of the mode entered is the return address (R223). -/
@[simp] theorem takeException_lr (x : Exception) (ret : Word) (s : State) : (takeException x ret s).lr = ret := by
  have h := RegFile.get_set_same s.regs (.lr (x.enters s).bank) ret
  unfold State.lr
  rw [takeException_regs, takeException_mode]
  exact h

/-- The SPSR of the mode entered is the old CPSR (R223). -/
@[simp] theorem takeException_curSpsr (x : Exception) (ret : Word) (s : State) :
    (takeException x ret s).curSpsr = some s.cpsr.toWord := by
  unfold State.curSpsr
  rw [takeException_spsr, takeException_mode, SavedPsrs.get?_set]
  simp [x.enters_hasSpsr s]

theorem takeException_scr (x : Exception) (ret : Word) (s : State) :
    (takeException x ret s).scr = (leaveNonSecure s).scr := rfl

@[simp] theorem takeException_t (x : Exception) (ret : Word) (s : State) : (takeException x ret s).cpsr.t = false := by
  simp only [takeException, entryPsr]; split <;> rfl

@[simp] theorem takeException_j (x : Exception) (ret : Word) (s : State) : (takeException x ret s).cpsr.j = false := by
  simp only [takeException, entryPsr]; split <;> rfl

@[simp] theorem takeException_i (x : Exception) (ret : Word) (s : State) : (takeException x ret s).cpsr.i = true := by
  simp only [takeException, entryPsr]; split <;> rfl

/-- Outside Secure Monitor mode nothing of the SCR changes. -/
theorem leaveNonSecure_of_ne {s : State} (h : s.cpsr.mode ≠ .monitor) : leaveNonSecure s = s := by
  simp [leaveNonSecure, h]

theorem world_eq_secure {s : State} : s.world = .secure ↔ s.scr.ns = false ∨ s.cpsr.mode = .monitor := by
  unfold State.world
  cases s.scr.ns <;> cases s.cpsr.mode <;> simp

theorem world_eq_nonSecure {s : State} : s.world = .nonSecure ↔ s.scr.ns = true ∧ s.cpsr.mode ≠ .monitor := by
  unfold State.world
  cases s.scr.ns <;> cases s.cpsr.mode <;> simp

@[simp] theorem leaveNonSecure_world_secure {s : State} :
    (leaveNonSecure s).world = .secure ↔ s.world = .secure := by
  rw [world_eq_secure, world_eq_secure]
  unfold leaveNonSecure
  split <;> simp_all

@[simp] theorem leaveNonSecure_control (s : State) (w : World) : (leaveNonSecure s).control w = s.control w := by
  cases w <;> by_cases h : s.cpsr.mode = .monitor <;> simp [State.control, leaveNonSecure, h]

@[simp] theorem vector_leaveNonSecure (x : Exception) (mon : Bool) (w : World) (s : State) :
    vector x mon w (leaveNonSecure s) = vector x mon w s := by
  unfold vector
  rw [leaveNonSecure_control]
  by_cases h : s.cpsr.mode = .monitor <;> simp [leaveNonSecure, h]

/-- The PC after an entry (R236). -/
theorem takeException_pc (x : Exception) (ret : Word) (s : State) :
    (takeException x ret s).pc = vector x (x.toMonitor s.scr) (leaveNonSecure s).world s := by
  simp only [takeException, leaveNonSecure_toMonitor, vector_leaveNonSecure]

/-- The CPSR after an entry (R223). -/
theorem takeException_cpsr (x : Exception) (ret : Word) (s : State) :
    (takeException x ret s).cpsr = entryPsr x (x.toMonitor s.scr)
      (if x.toMonitor s.scr then s.secureCtrl.ee else (s.control (leaveNonSecure s).world).ee)
      (leaveNonSecure s).mayChangeA (leaveNonSecure s).mayChangeF s.cpsr := by
  simp only [takeException, leaveNonSecure_toMonitor, leaveNonSecure_control]
  simp

/-! ### Returning -/

theorem restoredPsr_ok {s : State} {w : Word} {p : Psr} (h : restoredPsr s w = .ok p) :
    ∃ q, Psr.ofWord? w = some q ∧ q.j = false ∧ (s.world = .nonSecure → q.mode ≠ .monitor) ∧
      p = { q with
        a := (if s.mayChangeA then q.a else s.cpsr.a)
        f := (if s.mayChangeF then q.f else s.cpsr.f) } := by
  unfold restoredPsr at h
  cases hq : Psr.ofWord? w with
  | none => rw [hq] at h; simp at h
  | some q =>
    rw [hq] at h
    simp only at h
    split at h
    · simp at h
    · next hj =>
      split at h
      · simp at h
      · next hm =>
        simp only [Except.ok.injEq] at h
        refine ⟨q, rfl, by simpa using hj, fun hw e => ?_, h.symm⟩
        simp [hw, e] at hm

theorem restoredPsr_of_word {s : State} {w : Word} {q : Psr} (hq : Psr.ofWord? w = some q) (hj : q.j = false)
    (hm : s.world = .nonSecure → q.mode ≠ .monitor) :
    restoredPsr s w = .ok { q with
      a := (if s.mayChangeA then q.a else s.cpsr.a)
      f := (if s.mayChangeF then q.f else s.cpsr.f) } := by
  unfold restoredPsr
  rw [hq]
  simp only [hj, Bool.false_eq_true, if_false]
  rw [if_neg]
  simp only [Bool.and_eq_true, decide_eq_true_eq, not_and]
  exact hm

theorem exceptionReturn_next {r : Word} {s t : State} (h : exceptionReturn r s = .next t) :
    ∃ w p, s.curSpsr = some w ∧ restoredPsr s w = .ok p ∧ t = { s with cpsr := p, pc := r } := by
  unfold exceptionReturn at h
  cases hw : s.curSpsr with
  | none => rw [hw] at h; simp at h
  | some w =>
    rw [hw] at h
    cases hp : restoredPsr s w with
    | error e => simp only [hp] at h; simp at h
    | ok p => simp only [hp, Host.Outcome.next.injEq] at h; exact ⟨w, p, rfl, hp, h.symm⟩

theorem exceptionReturn_of {r w : Word} {s : State} {p : Psr} (hw : s.curSpsr = some w) (hp : restoredPsr s w = .ok p) :
    exceptionReturn r s = .next { s with cpsr := p, pc := r } := by
  simp only [exceptionReturn, hw, hp]

/-! ### Multi-access instructions -/

theorem cut_of_undisturbed {s : State} (h : s.signals.midEvent = none) (n : Nat) : s.cut n = none := by
  simp [State.cut, h]

end Sys2Proof.Machine
end

