-- ==== Sys2Proof/Laws/Exec.lean ====
section
/-! SUPPORT. What any instruction can do when it gives a next state: run to its end, take an exception part-way, or be
cut by reset; and what it can never do. The statements about every step rest on `exec_next`. -/

namespace Sys2Proof.Machine

/-- `t` differs from `s` at most in what an instruction may change outside an exception: registers, PC, status
registers, what a data access may change, and the interrupt registers, when it is stopped part-way. -/
def execOnly (s t : State) : Prop :=
  t = { s with
    regs := t.regs, pc := t.pc, cpsr := t.cpsr, spsr := t.spsr, mem := t.mem, stored := t.stored
    busLog := t.busLog, deviceAnswers := t.deviceAnswers, bufferedErrors := t.bufferedErrors, draws := t.draws
    signals := { s.signals with fiqReg := t.signals.fiqReg, irqReg := t.signals.irqReg } }

theorem execOnly.scr {s t : State} (h : execOnly s t) : t.scr = s.scr := by rw [h]
theorem execOnly.fiWindow {s t : State} (h : execOnly s t) : t.fiWindow = s.fiWindow := by rw [h]
theorem execOnly.fi {s t : State} (h : execOnly s t) : t.fi = s.fi := by rw [h]
theorem execOnly.secureCtrl {s t : State} (h : execOnly s t) : t.secureCtrl = s.secureCtrl := by rw [h]
theorem execOnly.nonSecureCtrl {s t : State} (h : execOnly s t) : t.nonSecureCtrl = s.nonSecureCtrl := by rw [h]
theorem execOnly.nonSecureBase {s t : State} (h : execOnly s t) : t.nonSecureBase = s.nonSecureBase := by rw [h]
theorem execOnly.secureBase {s t : State} (h : execOnly s t) : t.secureBase = s.secureBase := by rw [h]
theorem execOnly.monitorBase {s t : State} (h : execOnly s t) : t.monitorBase = s.monitorBase := by rw [h]
theorem execOnly.params {s t : State} (h : execOnly s t) : t.params = s.params := by rw [h]
theorem execOnly.inReset {s t : State} (h : execOnly s t) : t.inReset = s.inReset := by rw [h]
theorem execOnly.abortPending {s t : State} (h : execOnly s t) : t.abortPending = s.abortPending := by rw [h]
theorem execOnly.faultStatus {s t : State} (h : execOnly s t) : t.faultStatus = s.faultStatus := by rw [h]
theorem execOnly.map {s t : State} (h : execOnly s t) : t.map = s.map := by rw [h]
theorem execOnly.inputs {s t : State} (h : execOnly s t) : t.inputs = s.inputs := by rw [h]
theorem execOnly.irqAddr {s t : State} (h : execOnly s t) : t.signals.irqAddr = s.signals.irqAddr := by rw [h]

theorem accessOnly.exec {s t : State} (h : accessOnly s t) : execOnly s t := by
  unfold accessOnly at h; unfold execOnly; rw [h]

/-- What an instruction may do to the status registers (R28, R29, R33): it never enters Jazelle state; from the
Non-secure world it never enters Secure Monitor mode, and changes A and F only where the SCR lets it; in User
mode it changes neither mode nor masks nor an SPSR. -/
structure psrStep (s t : State) : Prop where
  jazelle : s.cpsr.j = false → t.cpsr.j = false
  monitor : s.world = .nonSecure → t.cpsr.mode ≠ .monitor
  maskA : s.mayChangeA = false → t.cpsr.a = s.cpsr.a
  maskF : s.mayChangeF = false → t.cpsr.f = s.cpsr.f
  user : s.cpsr.mode = .user → t.cpsr.mode = .user ∧ t.cpsr.i = s.cpsr.i ∧ t.cpsr.a = s.cpsr.a ∧
    t.cpsr.f = s.cpsr.f ∧ t.spsr = s.spsr

theorem nonSecure_mode {s : State} (h : s.world = .nonSecure) : s.cpsr.mode ≠ .monitor := by
  intro e; simp [State.world, e] at h

theorem psrStep.of_eq {s t : State} (h : t.cpsr = s.cpsr) (h' : t.spsr = s.spsr) : psrStep s t where
  jazelle := by rw [h]; exact id
  monitor := by rw [h]; exact nonSecure_mode
  maskA _ := by rw [h]
  maskF _ := by rw [h]
  user hu := by rw [h, h']; exact ⟨hu, rfl, rfl, rfl, rfl⟩

/-- The registers that the current mode does not see keep their values (R23). -/
def hiddenKept (s t : State) : Prop :=
  ∀ p, (∀ n, physReg s.cpsr.mode n ≠ some p) → t.regs.get p = s.regs.get p

theorem hiddenKept.of_eq {s t : State} (h : t.regs = s.regs) : hiddenKept s t := fun p _ => by rw [h]

theorem hiddenKept.trans {s t u : State} (h : hiddenKept s t) (hm : t.cpsr.mode = s.cpsr.mode) (h' : hiddenKept t u) :
    hiddenKept s u := fun p hp => (h' p (by rw [hm]; exact hp)).trans (h p hp)

theorem hiddenKept_setReg (s : State) (n : RegNum) (v : Word) : hiddenKept s (s.setReg n v) :=
  fun _ hp => setReg_get_other (hp n)

/-- Whether the instruction is SRS, the one that reaches a bank other than the current one (R23). -/
def isSrs : Instr → Bool
  | .srs .. => true
  | _ => false

/-- An instruction that ran to its end. -/
structure completed (srs : Bool) (s t : State) : Prop where
  only : execOnly s t
  forms : keepsForms s t
  psr : psrStep s t
  hidden : srs = false → hiddenKept s t
  notUser : srs = true → s.cpsr.mode ≠ .user

/-- What stood when an instruction stopped part-way: no status register has changed. -/
structure partWay (s u : State) : Prop where
  only : execOnly s u
  forms : keepsForms s u
  cpsr : u.cpsr = s.cpsr
  spsr : u.spsr = s.spsr
  pc : u.pc = s.pc
  hidden : hiddenKept s u

/-- Everything an instruction that gives a next state can have come to. -/
def outcomes (srs : Bool) (s t : State) : Prop :=
  completed srs s t ∨ ∃ u, partWay s u ∧ ((∃ x ret, t = takeException x ret u) ∨ t = { u with inReset := true })

theorem partWay.refl (s : State) : partWay s s where
  only := rfl
  forms := keepsForms_of_eq rfl rfl
  cpsr := rfl
  spsr := rfl
  pc := rfl
  hidden := .of_eq rfl

theorem outcomes_entry {srs : Bool} (x : Exception) (ret : Word) (s : State) : outcomes srs s (takeException x ret s) :=
  .inr ⟨s, .refl s, .inl ⟨x, ret, rfl⟩⟩

theorem completed_advance {srs : Bool} {len : Nat} {s u t : State} (h : advance len u = .next t)
    (hu : completed srs s u) : completed srs s t := by
  obtain ⟨_, rfl⟩ := advance_next h
  refine ⟨?_, hu.forms, ⟨hu.psr.jazelle, hu.psr.monitor, hu.psr.maskA, hu.psr.maskF, hu.psr.user⟩, hu.hidden, hu.notUser⟩
  have := hu.only
  unfold execOnly at *
  rw [this]

theorem completed_refl (s : State) : completed false s s where
  only := rfl
  forms := keepsForms_of_eq rfl rfl
  psr := .of_eq rfl rfl
  hidden _ := .of_eq rfl
  notUser h := by simp at h

theorem completed_of_access {s t : State} (h : accessOnly s t) (hf : keepsForms s t) : completed false s t where
  only := h.exec
  forms := hf
  psr := .of_eq h.cpsr h.spsr
  hidden _ := .of_eq h.regs
  notUser h := by simp at h

theorem setReg_execOnly (s : State) (n : RegNum) (v : Word) : execOnly s (s.setReg n v) := by
  unfold execOnly State.setReg; split <;> rfl

theorem completed_setReg {s u : State} (hu : completed false s u) (hm : u.cpsr.mode = s.cpsr.mode) (n : RegNum) (v : Word) :
    completed false s (u.setReg n v) where
  only := by
    have h1 := hu.only
    have h2 := setReg_execOnly u n v
    unfold execOnly at *
    rw [h2, h1]
  forms := hu.forms.trans (keepsForms_of_eq (by simp) (by simp))
  psr := ⟨by simpa using hu.psr.jazelle, by simpa using hu.psr.monitor, by simpa using hu.psr.maskA,
    by simpa using hu.psr.maskF, by simpa using hu.psr.user⟩
  hidden _ := (hu.hidden rfl).trans hm (hiddenKept_setReg u n v)
  notUser h := by simp at h

theorem partWay_of_access {s t : State} (h : accessOnly s t) (hf : keepsForms s t) : partWay s t where
  only := h.exec
  forms := hf
  cpsr := h.cpsr
  spsr := h.spsr
  pc := h.pc
  hidden := .of_eq h.regs

theorem partWay_sampleMidEvent {s u : State} (h : partWay s u) : partWay s (sampleMidEvent u) where
  only := by
    have h1 := h.only
    unfold sampleMidEvent
    split
    · exact h1
    · unfold execOnly at *; rw [h1]
  forms := h.forms.trans (keepsForms_of_eq (by simp) (by simp))
  cpsr := by simpa using h.cpsr
  spsr := by simpa using h.spsr
  pc := by simpa using h.pc
  hidden := fun p hp => by simpa using h.hidden p hp

theorem partWay_stop {srs : Bool} {s u : State} (h : partWay s u) (m : MidSource) : outcomes srs s (stopPartWay m u) := by
  cases m with
  | interrupt x => exact .inr ⟨_, partWay_sampleMidEvent h, .inl ⟨_, _, rfl⟩⟩
  | reset => exact .inr ⟨u, h, .inr rfl⟩

theorem conditional_next {c : Cond} {s t : State} {body : State → Host.Outcome State Fault Refusal}
    (h : conditional c s body = .next t) (hb : body s = .next t → outcomes false s t) : outcomes false s t := by
  unfold conditional at h
  split at h
  · exact hb h
  · exact .inl (completed_advance h (completed_refl s))

theorem multiStore_next {srs : Bool} {l : List (Word × Word)} {s t : State}
    {finish : State → Host.Outcome State Fault Refusal} (h : multiStore l s finish = .next t)
    (hf : ∀ u, accessOnly s u → keepsForms s u → finish u = .next t → outcomes srs s t) : outcomes srs s t := by
  unfold multiStore at h
  split at h
  · next x k _ =>
    split at h
    · next _ u hw =>
      simp only [Host.Outcome.next.injEq] at h
      obtain ⟨h1, h2⟩ := writeWords_done hw
      exact h ▸ partWay_stop (partWay_of_access h1 h2) x
    · next src u hw =>
      simp only [Host.Outcome.next.injEq] at h
      obtain ⟨h1, h2⟩ := writeWords_abort hw
      exact .inr ⟨u, partWay_of_access h1 h2, .inl ⟨_, _, h.symm⟩⟩
    · simp at h
  · split at h
    · next _ u hw =>
      obtain ⟨h1, h2⟩ := writeWords_done hw
      exact hf u h1 h2 h
    · next src u hw =>
      simp only [Host.Outcome.next.injEq] at h
      obtain ⟨h1, h2⟩ := writeWords_abort hw
      exact .inr ⟨u, partWay_of_access h1 h2, .inl ⟨_, _, h.symm⟩⟩
    · simp at h

theorem multiLoad_next {srs b : Bool} {as : List Word} {s t : State} {spoil : List Word → State → State}
    {finish : List Word → State → Host.Outcome State Fault Refusal} (h : multiLoad b as s spoil finish = .next t)
    (hs : ∀ vs u, accessOnly s u → keepsForms s u → partWay s (spoil vs u))
    (hf : ∀ vs u, accessOnly s u → keepsForms s u → vs.length = as.length → finish vs u = .next t → outcomes srs s t) :
    outcomes srs s t := by
  unfold multiLoad at h
  split at h
  · next x k _ =>
    split at h
    · next vs u hr =>
      simp only [Host.Outcome.next.injEq] at h
      obtain ⟨h1, h2, h3, _⟩ := readWords_done hr
      exact h ▸ partWay_stop (hs vs u h1 (keepsForms_of_eq h2 h3)) x
    · next src got u hr =>
      simp only [Host.Outcome.next.injEq] at h
      obtain ⟨h1, h2, h3, _⟩ := readWords_abort hr
      exact .inr ⟨_, hs got u h1 (keepsForms_of_eq h2 h3), .inl ⟨_, _, h.symm⟩⟩
    · simp at h
  · split at h
    · next vs u hr =>
      obtain ⟨h1, h2, h3, h4⟩ := readWords_done hr
      exact hf vs u h1 (keepsForms_of_eq h2 h3) h4 h
    · next src got u hr =>
      simp only [Host.Outcome.next.injEq] at h
      obtain ⟨h1, h2, h3, _⟩ := readWords_abort hr
      exact .inr ⟨_, hs got u h1 (keepsForms_of_eq h2 h3), .inl ⟨_, _, h.symm⟩⟩
    · simp at h

theorem mayChangeA_access {s t : State} (h : accessOnly s t) : t.mayChangeA = s.mayChangeA := by
  simp [State.mayChangeA, h.world, h.scr]

theorem mayChangeF_access {s t : State} (h : accessOnly s t) : t.mayChangeF = s.mayChangeF := by
  simp [State.mayChangeF, h.world, h.scr]

/-- A whole CPSR loaded by a return or RFE, from a privileged mode. -/
theorem psrStep_restored {s u t : State} {w : Word} {p : Psr} (hu : accessOnly s u) (hp : restoredPsr u w = .ok p)
    (ht : t.cpsr = p) (hm : s.cpsr.mode ≠ .user) : psrStep s t := by
  obtain ⟨q, _, hj, hmon, rfl⟩ := restoredPsr_ok hp
  rw [hu.world] at hmon
  rw [mayChangeA_access hu, mayChangeF_access hu, hu.cpsr] at ht
  constructor
  · intro _; rw [ht]; exact hj
  · intro hw; rw [ht]; exact hmon hw
  · intro ha; rw [ht]; simp [ha]
  · intro hf; rw [ht]; simp [hf]
  · intro h; exact absurd h hm

theorem curSpsr_ne_user {s : State} {w : Word} (h : s.curSpsr = some w) : s.cpsr.mode ≠ .user := by
  intro e; simp [State.curSpsr, e, Mode.bank, SavedPsrs.get?] at h

theorem exceptionReturn_completed {r : Word} {s t : State} (h : exceptionReturn r s = .next t) : completed false s t := by
  obtain ⟨w, p, hw, hp, rfl⟩ := exceptionReturn_next h
  exact ⟨rfl, keepsForms_of_eq rfl rfl, psrStep_restored (.refl s) hp rfl (curSpsr_ne_user hw),
    fun _ => .of_eq rfl, fun h => by simp at h⟩

theorem changeMasks_psrStep {v a i f : Bool} {s t : State} (hp : s.cpsr.mode.privileged = true) {m : Mode}
    (hm : s.world = .nonSecure → m ≠ .monitor) (ht : t.cpsr = { changeMasks v a i f s with mode := m }) :
    psrStep s t := by
  constructor
  · intro h; rw [ht]; exact h
  · intro hw; rw [ht]; exact hm hw
  · intro h; rw [ht]; simp [changeMasks, h]
  · intro h; rw [ht]; simp [changeMasks, h]
  · intro h; rw [h] at hp; simp [Mode.privileged] at hp

theorem breakpoint_next {s t : State} (h : breakpoint s = .next t) : outcomes false s t := by
  unfold breakpoint at h
  split at h
  · simp at h
  · simp only [Host.Outcome.next.injEq] at h; exact h ▸ outcomes_entry _ _ _

theorem setRegs_partWay {s u : State} (l : List (RegNum × Word)) (h : completed false s u)
    (hm : u.cpsr.mode = s.cpsr.mode) : completed false s (setRegs l u) := by
  induction l generalizing u with
  | nil => exact h
  | cons p rest ih => exact ih (completed_setReg h hm p.1 p.2) (by simpa using hm)

theorem partWay_setReg {s u : State} (h : partWay s u) {n : RegNum} (hn : n ≠ 15) (v : Word) : partWay s (u.setReg n v) where
  only := by
    have h1 := h.only
    have h2 := setReg_execOnly u n v
    unfold execOnly at *
    rw [h2, h1]
  forms := h.forms.trans (keepsForms_of_eq (by simp) (by simp))
  cpsr := by simpa using h.cpsr
  spsr := by simpa using h.spsr
  pc := by rw [setReg_pc_of_ne _ hn]; exact h.pc
  hidden := h.hidden.trans (by rw [h.cpsr]) (hiddenKept_setReg u n v)

theorem partWay_draws {s u : State} (h : partWay s u) (d : Nat) : partWay s { u with draws := d } where
  only := by
    have h1 := h.only
    unfold execOnly at *
    rw [h1]
  forms := h.forms
  cpsr := h.cpsr
  spsr := h.spsr
  pc := h.pc
  hidden := h.hidden

theorem spoilRegs_partWay {s u : State} (base : RegNum) (l : List (RegNum × Word)) (hl : ∀ p ∈ l, p.1 ≠ 15)
    (h : partWay s u) : partWay s (spoilRegs base l u) := by
  induction l generalizing u with
  | nil => exact h
  | cons p rest ih =>
    obtain ⟨n, v⟩ := p
    have hn : n ≠ 15 := hl (n, v) (by simp)
    have hr : ∀ p ∈ rest, p.1 ≠ 15 := fun p hp => hl p (by simp [hp])
    simp only [spoilRegs]
    split
    · exact ih hr (partWay_draws (partWay_setReg h hn v) _)
    · exact ih hr (partWay_draws h _)

theorem listedRegs_ne_pc {list : BitVec 16} {n : RegNum} (h : n ∈ listedRegs list) : n ≠ 15 := by
  unfold listedRegs at h
  have := (List.mem_filter.1 h).1
  intro e
  subst e
  revert this
  decide

theorem msrCpsr_next {fields : BitVec 4} {v : Word} {s t : State} (h : msrCpsr fields v s = .next t) :
    completed false s t := by
  unfold msrCpsr at h
  split at h
  · simp at h
  · next hst =>
    simp only at h
    split at h
    · simp at h
    · next hmon =>
      cases hp : Psr.ofWord? (merge (msrMask fields s) s.cpsr.toWord v) with
      | none => rw [hp] at h; simp at h
      | some p =>
        rw [hp] at h
        have hw := Psr.toWord_of_ofWord? hp
        have hbit : ∀ k, k < 32 → p.toWord.getLsbD k =
            if (msrMask fields s).getLsbD k then v.getLsbD k else s.cpsr.toWord.getLsbD k := fun k hk => by
          rw [hw]; exact merge_getLsbD _ _ _ hk
        have hkeep : ∀ k, k < 32 → (msrMask fields s).getLsbD k = false →
            p.toWord.getLsbD k = s.cpsr.toWord.getLsbD k := fun k hk h0 => by
          rw [hbit k hk, h0]; simp
        have hmask : ∀ k, (msrMask fields s).getLsbD k = true →
            ((if s.cpsr.mode.privileged then userMask ||| privMask else userMask : Word).getLsbD k = true ∧
              (if s.mayChangeA then 0xFFFFFFFF else ~~~0x00000100 : Word).getLsbD k = true ∧
              (if s.mayChangeF then 0xFFFFFFFF else ~~~0x00000040 : Word).getLsbD k = true) := fun k hk => by
          simp only [msrMask, BitVec.getLsbD_and, Bool.and_eq_true] at hk
          exact ⟨hk.1.1.2, hk.1.2, hk.2⟩
        have hj : (msrMask fields s).getLsbD 24 = false := by
          cases hc : (msrMask fields s).getLsbD 24
          · rfl
          · have := (hmask 24 hc).1
            split at this <;> exact absurd this (by decide)
        have hA : s.mayChangeA = false → (msrMask fields s).getLsbD 8 = false := fun ha => by
          cases hc : (msrMask fields s).getLsbD 8
          · rfl
          · have := (hmask 8 hc).2.1
            rw [ha] at this
            exact absurd this (by decide)
        have hF : s.mayChangeF = false → (msrMask fields s).getLsbD 6 = false := fun ha => by
          cases hc : (msrMask fields s).getLsbD 6
          · rfl
          · have := (hmask 6 hc).2.2
            rw [ha] at this
            exact absurd this (by decide)
        have place : ∀ q : Psr, q.toWord.getLsbD 24 = q.j ∧ q.toWord.getLsbD 8 = q.a ∧ q.toWord.getLsbD 7 = q.i ∧
            q.toWord.getLsbD 6 = q.f := fun q => by
          simp only [Psr.toWord_getLsbD]; exact ⟨rfl, rfl, rfl, rfl⟩
        have low : ∀ q : Psr, ∀ k < 5, q.toWord.getLsbD k = q.mode.toBits.getLsbD k := fun q k hk => by
          rw [Psr.toWord_getLsbD, if_pos hk]
        have step : psrStep s { s with cpsr := p } := by
          constructor
          · intro hs
            have := hkeep 24 (by omega) hj
            rw [(place p).1, (place s.cpsr).1] at this
            exact this.trans hs
          · intro hw' hpm
            have hpm' : p.mode = .monitor := hpm
            by_cases hm0 : (msrMask fields s &&& 0x1F) = 0
            · refine nonSecure_mode hw' ?_
              have : s.cpsr.mode.toBits = p.mode.toBits := by
                apply BitVec.eq_of_getLsbD_eq
                intro k hk
                have hz : (msrMask fields s).getLsbD k = false := by
                  have := congrArg (fun x : Word => x.getLsbD k) hm0
                  simp only [BitVec.getLsbD_and] at this
                  have h1 : (0x1F : Word).getLsbD k = true := by interval_cases k <;> rfl
                  rw [h1, Bool.and_true] at this
                  exact this.trans BitVec.getLsbD_zero
                rw [← low _ k hk, ← low _ k hk, hkeep k (by omega) hz]
              rw [hpm'] at this
              exact Mode.toBits_injective this
            · refine hmon ?_
              have hfive : v.extractLsb' 0 5 = Mode.monitor.toBits := by
                refine extractLsb'_eq_of_bits fun k hk => ?_
                rw [Nat.zero_add]
                have hpk := low p k hk
                rw [hpm', hbit k (by omega)] at hpk
                split at hpk
                · exact hpk
                · next hz =>
                  exfalso
                  apply hz
                  have hall : ∀ j < 5, (msrMask fields s).getLsbD j = ((byteMask fields).getLsbD 0 &&
                      s.cpsr.mode.privileged) := by
                    intro j hj
                    simp only [msrMask, BitVec.getLsbD_and]
                    have e1 : (byteMask fields).getLsbD j = (byteMask fields).getLsbD 0 := by
                      simp only [byteMask, BitVec.getLsbD_or]
                      interval_cases j <;> (split <;> split <;> split <;> split <;> rfl)
                    rw [e1]
                    cases s.cpsr.mode.privileged <;> cases s.mayChangeA <;> cases s.mayChangeF <;>
                      interval_cases j <;> cases (byteMask fields).getLsbD 0 <;> rfl
                  rw [hall k hk]
                  cases hc : ((byteMask fields).getLsbD 0 && s.cpsr.mode.privileged)
                  · exfalso
                    apply hm0
                    apply BitVec.eq_of_getLsbD_eq
                    intro j hj
                    refine Eq.trans ?_ BitVec.getLsbD_zero.symm
                    rw [BitVec.getLsbD_and]
                    by_cases hj5 : j < 5
                    · rw [hall j hj5, hc]; rfl
                    · have : (0x1F : Word).getLsbD j = false := by
                        interval_cases j <;> rfl
                      rw [this, Bool.and_false]
                  · rfl
              simp only [Bool.and_eq_true, decide_eq_true_eq]
              exact ⟨⟨hw', hm0⟩, hfive⟩
          · intro ha
            have := hkeep 8 (by omega) (hA ha)
            rw [(place p).2.1, (place s.cpsr).2.1] at this
            exact this
          · intro hf
            have := hkeep 6 (by omega) (hF hf)
            rw [(place p).2.2.2, (place s.cpsr).2.2.2] at this
            exact this
          · intro hu
            have hz : ∀ k, (userMask).getLsbD k = false → (msrMask fields s).getLsbD k = false := fun k hk0 => by
              cases hc : (msrMask fields s).getLsbD k
              · rfl
              · have := (hmask k hc).1
                rw [hu] at this
                simp only [Mode.privileged, ne_eq, not_true_eq_false, decide_false, Bool.false_eq_true, if_false] at this
                rw [hk0] at this
                exact absurd this (by simp)
            have hmode : p.mode.toBits = s.cpsr.mode.toBits := by
              apply BitVec.eq_of_getLsbD_eq
              intro k hk
              rw [← low _ k hk, ← low _ k hk]
              exact hkeep k (by omega) (hz k (by interval_cases k <;> rfl))
            have h8 := hkeep 8 (by omega) (hz 8 rfl)
            have h7 := hkeep 7 (by omega) (hz 7 rfl)
            have h6 := hkeep 6 (by omega) (hz 6 rfl)
            rw [(place p).2.1, (place s.cpsr).2.1] at h8
            rw [(place p).2.2.1, (place s.cpsr).2.2.1] at h7
            rw [(place p).2.2.2, (place s.cpsr).2.2.2] at h6
            exact ⟨(Mode.toBits_injective hmode).trans hu, h7, h8, h6, rfl⟩
        exact completed_advance h ⟨rfl, keepsForms_of_eq rfl rfl, step, fun _ => .of_eq rfl, fun h => by simp at h⟩

theorem msrSpsr_next {fields : BitVec 4} {v : Word} {s t : State} (h : msrSpsr fields v s = .next t) :
    completed false s t := by
  unfold msrSpsr at h
  cases hw : s.curSpsr with
  | none => rw [hw] at h; simp at h
  | some w =>
    rw [hw] at h
    have hm := curSpsr_ne_user hw
    exact completed_advance h ⟨rfl, keepsForms_of_eq rfl rfl,
      ⟨id, nonSecure_mode, fun _ => rfl, fun _ => rfl, fun h => absurd h hm⟩, fun _ => .of_eq rfl, fun h => by simp at h⟩

theorem writeResult_next {rd : RegNum} {v : Word} {s t : State} (h : writeResult rd v s = .next t) :
    completed false s t := by
  unfold writeResult at h
  split at h
  · simp at h
  · exact completed_advance h (completed_setReg (completed_refl s) rfl rd v)

theorem execSrs_next {am : AddrMode} {wback : Bool} {mode : BitVec 5} {s t : State}
    (h : execSrs am wback mode s = .next t) : outcomes true s t := by
  unfold execSrs at h
  split at h
  · simp at h
  · split at h
    · simp only [Host.Outcome.next.injEq] at h; exact h ▸ outcomes_entry _ _ _
    · cases hw : s.curSpsr with
      | none => rw [hw] at h; simp at h
      | some w =>
        rw [hw] at h
        have hm := curSpsr_ne_user hw
        simp only at h
        split at h
        · simp at h
        refine multiStore_next h fun u hu hk hf => .inl (completed_advance hf ?_)
        split
        · refine ⟨?_, hk.trans (keepsForms_of_eq rfl rfl), psrStep.of_eq hu.cpsr hu.spsr, fun h => by simp at h, fun _ => hm⟩
          have := hu.exec
          unfold execOnly at *
          rw [this]
        · exact ⟨hu.exec, hk, psrStep.of_eq hu.cpsr hu.spsr, fun h => by simp at h, fun _ => hm⟩

theorem execRfe_next {am : AddrMode} {wback : Bool} {rn : RegNum} {s t : State}
    (h : execRfe am wback rn s = .next t) : outcomes false s t := by
  unfold execRfe at h
  split at h
  · simp at h
  · next hm =>
    split at h
    · simp at h
    · refine multiLoad_next h (fun vs u hu hk => partWay_of_access hu hk) fun vs u hu hk _ hf => .inl ?_
      simp only at hf
      split at hf
      · simp at hf
      · next p hp =>
        simp only [Host.Outcome.next.injEq] at hf
        have hc : completed false s (if wback then u.setReg rn (writtenBack am (s.reg rn) 2) else u) := by
          split
          · exact completed_setReg (completed_of_access hu hk) (by rw [hu.cpsr]) _ _
          · exact completed_of_access hu hk
        refine ⟨?_, ?_, psrStep_restored hu hp (by rw [← hf]) hm, fun _ => ?_, fun h => by simp at h⟩
        · have := hc.only
          rw [← hf]
          unfold execOnly at *
          rw [this]
        · rw [← hf]; exact hc.forms
        · rw [← hf]; exact hc.hidden rfl

theorem execCps_next {imod : BitVec 2} {mmod a i f : Bool} {mode : BitVec 5} {s t : State}
    (h : execCps imod mmod a i f mode s = .next t) : outcomes false s t := by
  unfold execCps at h
  split at h
  · simp at h
  · split at h
    · exact .inl (completed_advance h (completed_refl s))
    · next hp =>
      simp only [Bool.not_eq_true', Bool.not_eq_false] at hp
      have key : ∀ m : Mode, (s.world = .nonSecure → m ≠ .monitor) → ∀ q : Psr,
          (q = { (if imod.getLsbD 1 then changeMasks (imod.getLsbD 0) a i f s else s.cpsr) with mode := m }) →
          completed false s { s with cpsr := q } := by
        intro m hm q hq
        refine ⟨rfl, keepsForms_of_eq rfl rfl, ?_, fun _ => .of_eq rfl, fun h => by simp at h⟩
        cases himod : imod.getLsbD 1
        · refine changeMasks_psrStep (v := false) (a := false) (i := false) (f := false) hp hm ?_
          rw [himod] at hq
          simpa [changeMasks] using hq
        · refine changeMasks_psrStep (v := imod.getLsbD 0) (a := a) (i := i) (f := f) hp hm ?_
          rw [himod] at hq
          simpa using hq
      simp only at h
      split at h
      · split at h
        · simp at h
        · next m hm =>
          split at h
          · simp at h
          · next hmon =>
            exact .inl (completed_advance h (key m (fun hw e => hmon (by simp [hw, e])) _ rfl))
      · refine .inl (completed_advance h (key s.cpsr.mode nonSecure_mode _ ?_))
        split <;> rfl

theorem execCpsThumb_next {im a i f : Bool} {s t : State}
    (h : execCpsThumb im a i f s = .next t) : outcomes false s t := by
  unfold execCpsThumb at h
  split at h
  · simp at h
  · split at h
    · exact .inl (completed_advance h (completed_refl s))
    · next hp =>
      simp only [Bool.not_eq_true', Bool.not_eq_false] at hp
      exact .inl (completed_advance h ⟨rfl, keepsForms_of_eq rfl rfl,
        changeMasks_psrStep (m := s.cpsr.mode) hp nonSecure_mode rfl, fun _ => .of_eq rfl, fun h => by simp at h⟩)

theorem loadPc_next {v : Word} {s u t : State} (hu : accessOnly s u) (hk : keepsForms s u) (h : loadPc v u = .next t) :
    completed false s t := by
  unfold loadPc at h
  split at h
  · simp at h
  · simp only [Host.Outcome.next.injEq] at h
    subst h
    refine ⟨?_, hk, ⟨?_, ?_, ?_, ?_, ?_⟩, fun _ => .of_eq hu.regs, fun h => by simp at h⟩
    · have := hu.exec
      unfold execOnly at *
      rw [this]
    · simp [hu.cpsr]
    · simpa [hu.cpsr] using nonSecure_mode
    · simp [hu.cpsr]
    · simp [hu.cpsr]
    · simp [hu.cpsr, hu.spsr]

theorem execLdr_next {c : Cond} {up : Bool} {rd rn : RegNum} {imm12 : BitVec 12} {s t : State}
    (h : execLdr c up rd rn imm12 s = .next t) : outcomes false s t := by
  refine conditional_next h fun h => ?_
  split at h
  · next v u hr =>
    obtain ⟨h1, h2, h3⟩ := readWord_done hr
    split at h
    · exact .inl (loadPc_next h1 (keepsForms_of_eq h2 h3) h)
    · exact .inl (completed_advance h (completed_setReg (completed_of_access h1 (keepsForms_of_eq h2 h3))
        (by rw [h1.cpsr]) _ _))
  · simp only [Host.Outcome.next.injEq] at h
    next src u hr =>
    rw [readWord_abort hr] at h
    exact h ▸ outcomes_entry _ _ _
  · simp at h

theorem execStr_next {c : Cond} {up : Bool} {rd rn : RegNum} {imm12 : BitVec 12} {s t : State}
    (h : execStr c up rd rn imm12 s = .next t) : outcomes false s t := by
  refine conditional_next h fun h => ?_
  split at h
  · simp at h
  split at h
  · next v u hr =>
    obtain ⟨h1, h2⟩ := writeWord_done hr
    exact .inl (completed_advance h (completed_of_access h1 h2))
  · simp only [Host.Outcome.next.injEq] at h
    next src u hr =>
    rw [writeWord_abort hr] at h
    exact h ▸ outcomes_entry _ _ _
  · simp at h

theorem mem_zip_ne_pc {list : BitVec 16} {vs : List Word} {p : RegNum × Word} (h : p ∈ (listedRegs list).zip vs) :
    p.1 ≠ 15 := listedRegs_ne_pc (List.of_mem_zip h).1

theorem execLdm_next {c : Cond} {am : AddrMode} {wback : Bool} {rn : RegNum} {list : BitVec 16} {s t : State}
    (h : execLdm c am wback rn list s = .next t) : outcomes false s t := by
  refine conditional_next h fun h => ?_
  simp only at h
  split at h
  · simp at h
  · split at h
    · simp at h
    · refine multiLoad_next h (fun vs u hu hk => ?_) fun vs u hu hk _ hf => .inl (completed_advance hf ?_)
      · exact spoilRegs_partWay _ _ (fun p hp => mem_zip_ne_pc hp) (partWay_of_access hu hk)
      · have hc := setRegs_partWay ((listedRegs list).zip vs) (completed_of_access hu hk) (by rw [hu.cpsr])
        split
        · exact completed_setReg hc (by simp [hu.cpsr]) _ _
        · exact hc

theorem execStm_next {c : Cond} {am : AddrMode} {wback : Bool} {rn : RegNum} {list : BitVec 16} {s t : State}
    (h : execStm c am wback rn list s = .next t) : outcomes false s t := by
  refine conditional_next h fun h => ?_
  simp only at h
  split at h
  · simp at h
  · split at h
    · simp at h
    · refine multiStore_next h fun u hu hk hf => .inl (completed_advance hf ?_)
      split
      · exact completed_setReg (completed_of_access hu hk) (by rw [hu.cpsr]) _ _
      · exact completed_of_access hu hk

/-- Every instruction that gives a next state ran to its end, took an exception, or was cut by reset. -/
theorem exec_next {i : Instr} {s t : State} (h : exec i s = .next t) : outcomes (isSrs i) s t := by
  cases i with
  | srs am wback mode => exact execSrs_next h
  | rfe am wback rn => exact execRfe_next h
  | cps imod mmod a i f mode => exact execCps_next h
  | svc c imm24 =>
    simp only [exec, execSvc] at h
    refine conditional_next h fun h => ?_
    simp only [Host.Outcome.next.injEq] at h; exact h ▸ outcomes_entry _ _ _
  | smc c imm16 =>
    simp only [exec, execSmc] at h
    refine conditional_next h fun h => ?_
    simp only [Host.Outcome.next.injEq] at h; exact h ▸ outcomes_entry _ _ _
  | bkpt imm16 => exact breakpoint_next h
  | udf imm16 =>
    simp only [exec, execUdf, Host.Outcome.next.injEq] at h; exact h ▸ outcomes_entry _ _ _
  | movsPcLr c => exact conditional_next h fun h => .inl (exceptionReturn_completed h)
  | subsPcLr4 c => exact conditional_next h fun h => .inl (exceptionReturn_completed h)
  | subsPcLr8 c => exact conditional_next h fun h => .inl (exceptionReturn_completed h)
  | mrs c r rd =>
    simp only [exec, execMrs] at h
    refine conditional_next h fun h => ?_
    split at h
    · simp at h
    · split at h
      · split at h
        · simp at h
        · exact .inl (completed_advance h (completed_setReg (completed_refl s) rfl _ _))
      · exact .inl (completed_advance h (completed_setReg (completed_refl s) rfl _ _))
  | msr c r fields rm =>
    simp only [exec, execMsr] at h
    refine conditional_next h fun h => ?_
    split at h
    · exact .inl (msrSpsr_next h)
    · exact .inl (msrCpsr_next h)
  | mov c rd rm => exact conditional_next h fun h => .inl (writeResult_next h)
  | add c rd rn rot imm8 => exact conditional_next h fun h => .inl (writeResult_next h)
  | sub c rd rn rot imm8 => exact conditional_next h fun h => .inl (writeResult_next h)
  | orr c rd rn rot imm8 => exact conditional_next h fun h => .inl (writeResult_next h)
  | bic c rd rn rot imm8 => exact conditional_next h fun h => .inl (writeResult_next h)
  | ldr c up rd rn imm12 => exact execLdr_next h
  | str c up rd rn imm12 => exact execStr_next h
  | ldm c am wback rn list => exact execLdm_next h
  | stm c am wback rn list => exact execStm_next h
  | cpsThumb im a i f => exact execCpsThumb_next h
  | svcThumb imm8 =>
    simp only [exec, execSvcThumb, Host.Outcome.next.injEq] at h; exact h ▸ outcomes_entry _ _ _
  | bkptThumb imm8 => exact breakpoint_next h
  | udfThumb imm8 =>
    simp only [exec, execUdfThumb, Host.Outcome.next.injEq] at h; exact h ▸ outcomes_entry _ _ _

end Sys2Proof.Machine
end

