-- ==== Sys2Proof/Laws/Lists.lean ====
section
/-! SUPPORT. Register lists, word addresses, and registers written in order (spec/43_support_instructions.md R190, R191). -/

namespace Sys2Proof.Machine

theorem listedRegs_sorted (list : BitVec 16) : (listedRegs list).Pairwise (· < ·) := by
  unfold listedRegs
  exact List.Pairwise.filter _ (by decide)

theorem listedRegs_nodup (list : BitVec 16) : (listedRegs list).Nodup :=
  (listedRegs_sorted list).imp fun h => ne_of_lt h

theorem mem_listedRegs {list : BitVec 16} {n : RegNum} :
    n ∈ listedRegs list ↔ n ≠ 15 ∧ list.getLsbD n.val = true := by
  unfold listedRegs
  rw [List.mem_filter]
  refine and_congr_left fun _ => ?_
  have h : ∀ k : RegNum, k ∈ ([0, 1, 2, 3, 4, 5, 6, 7, 8, 9, 10, 11, 12, 13, 14] : List RegNum) ↔ k ≠ 15 := by decide
  exact h n

theorem listedRegs_length_le (list : BitVec 16) : (listedRegs list).length ≤ 15 :=
  List.length_filter_le _ _

theorem wordAddresses_length (low : Word) (n : Nat) : (wordAddresses low n).length = n := by
  induction n generalizing low with
  | zero => rfl
  | succ n ih => simp [wordAddresses, ih]

theorem wordAddresses_getElem? (low : Word) {n k : Nat} (h : k < n) :
    (wordAddresses low n)[k]? = some (low + BitVec.ofNat 32 (4 * k)) := by
  induction n generalizing low k with
  | zero => omega
  | succ n ih =>
    cases k with
    | zero => simp [wordAddresses]
    | succ k =>
      simp only [wordAddresses, List.getElem?_cons_succ]
      rw [ih (low + 4) (by omega), BitVec.add_assoc]
      congr 2
      apply BitVec.eq_of_toNat_eq
      have h4 : (4 : Word).toNat = 4 := rfl
      simp only [BitVec.toNat_add, BitVec.toNat_ofNat, h4]
      omega

theorem mem_wordAddresses {low a : Word} {n : Nat} :
    a ∈ wordAddresses low n ↔ ∃ k, k < n ∧ a = low + BitVec.ofNat 32 (4 * k) := by
  constructor
  · intro h
    obtain ⟨k, hk⟩ := List.mem_iff_getElem?.1 h
    have hlt : k < n := by
      have := (List.getElem?_eq_some_iff.1 hk).1
      rwa [wordAddresses_length] at this
    rw [wordAddresses_getElem? low hlt] at hk
    exact ⟨k, hlt, (Option.some.inj hk).symm⟩
  · rintro ⟨k, hk, rfl⟩
    exact List.mem_iff_getElem?.2 ⟨k, wordAddresses_getElem? low hk⟩

theorem wordAddresses_eq_map (low : Word) (n : Nat) :
    wordAddresses low n = (List.range n).map fun k => low + BitVec.ofNat 32 (4 * k) := by
  apply List.ext_getElem?
  intro k
  by_cases h : k < n
  · rw [wordAddresses_getElem? low h]; simp [h]
  · rw [List.getElem?_eq_none (by rw [wordAddresses_length]; omega), List.getElem?_eq_none (by simpa using h)]

/-- Up to 2^30 word addresses are different. -/
theorem wordAddresses_nodup (low : Word) {n : Nat} (h : n ≤ 2 ^ 30) : (wordAddresses low n).Nodup := by
  rw [wordAddresses_eq_map]
  refine List.Nodup.map_on ?_ List.nodup_range
  intro i hi j hj e
  rw [List.mem_range] at hi hj
  have h2 := congrArg BitVec.toNat e
  simp only [BitVec.toNat_add, BitVec.toNat_ofNat] at h2
  have := low.isLt
  omega

/-- The lowest register of a list, as the well-formedness check and as STM ask for it (R191). -/
theorem isLowest_eq_lowestIs {rn : RegNum} {list : BitVec 16} (h15 : list.getLsbD 15 = false) :
    isLowest rn list = lowestIs rn list := by
  rw [Bool.eq_iff_iff]
  simp only [isLowest, lowestIs, decide_eq_true_eq, Bool.and_eq_true]
  have hmask : (list &&& ((1#16 <<< rn.val) - 1)) = 0 ↔ ∀ k : RegNum, k < rn → list.getLsbD k.val = false := by
    have hbit : ∀ k : RegNum, ∀ r : RegNum, ((1#16 <<< r.val) - 1).getLsbD k.val = decide (k < r) := by decide
    constructor
    · intro h k hk
      have := congrArg (fun x : BitVec 16 => x.getLsbD k.val) h
      simp only [BitVec.getLsbD_and, hbit, hk, decide_true, Bool.and_true] at this
      exact this.trans BitVec.getLsbD_zero
    · intro h
      apply BitVec.eq_of_getLsbD_eq
      intro k hk
      refine Eq.trans ?_ BitVec.getLsbD_zero.symm
      have hb := hbit ⟨k, hk⟩ rn
      simp only at hb
      rw [BitVec.getLsbD_and, hb]
      by_cases hlt : (⟨k, hk⟩ : RegNum) < rn
      · have := h ⟨k, hk⟩ hlt
        simp only at this
        rw [this, Bool.false_and]
      · simp [hlt]
  rw [hmask]
  have hs := listedRegs_sorted list
  constructor
  · intro h
    cases hl : listedRegs list with
    | nil => rw [hl] at h; simp at h
    | cons a rest =>
      rw [hl] at h hs
      simp only [List.head?_cons, Option.some.injEq] at h
      subst h
      have ha : a ∈ listedRegs list := by rw [hl]; simp
      refine ⟨(mem_listedRegs.1 ha).2, fun k hk => ?_⟩
      cases hc : list.getLsbD k.val
      · rfl
      · have hk15 : k ≠ 15 := by
          intro e; subst e; exact absurd hc (by simpa using h15)
        have hmem : k ∈ listedRegs list := mem_listedRegs.2 ⟨hk15, hc⟩
        rw [hl] at hmem
        rcases List.mem_cons.1 hmem with rfl | hm
        · exact absurd hk (lt_irrefl _)
        · exact absurd (lt_trans hk ((List.pairwise_cons.1 hs).1 k hm)) (lt_irrefl _)
  · rintro ⟨h1, h2⟩
    have hn15 : rn ≠ 15 := by intro e; subst e; exact absurd h1 (by simpa using h15)
    have hmem : rn ∈ listedRegs list := mem_listedRegs.2 ⟨hn15, h1⟩
    cases hl : listedRegs list with
    | nil => rw [hl] at hmem; simp at hmem
    | cons a rest =>
      rw [hl] at hmem hs
      have ha : a ∈ listedRegs list := by rw [hl]; simp
      rcases List.mem_cons.1 hmem with rfl | hm
      · rfl
      · have hlt := (List.pairwise_cons.1 hs).1 rn hm
        have := h2 a hlt
        rw [(mem_listedRegs.1 ha).2] at this
        exact absurd this (by simp)

/-- The registers of a list written in order: each holds its word, and no other number changes. -/
theorem reg_setRegs (l : List (RegNum × Word)) (hnd : (l.map (·.1)).Nodup) (s : State) (n : RegNum) :
    (∀ v, (n, v) ∈ l → (setRegs l s).reg n = v) ∧ ((∀ v, (n, v) ∉ l) → (setRegs l s).reg n = s.reg n) := by
  induction l generalizing s with
  | nil => simp [setRegs]
  | cons p rest ih =>
    obtain ⟨m, w⟩ := p
    simp only [List.map_cons, List.nodup_cons, List.mem_map, not_exists, not_and] at hnd
    obtain ⟨ih1, ih2⟩ := ih hnd.2 (s.setReg m w)
    simp only [setRegs]
    constructor
    · intro v hv
      rcases List.mem_cons.1 hv with h | h
      · simp only [Prod.mk.injEq] at h
        obtain ⟨rfl, rfl⟩ := h
        rw [ih2 fun v hv => hnd.1 (n, v) hv rfl, reg_setReg, if_pos rfl]
      · exact ih1 v h
    · intro h
      have hne : n ≠ m := fun e => h w (by simp [e])
      rw [ih2 fun v hv => h v (by simp [hv]), reg_setReg, if_neg hne]

/-- A physical register that none of the numbers denotes keeps its value. -/
theorem setRegs_get_other (l : List (RegNum × Word)) (s : State) {p : PhysReg}
    (h : ∀ q ∈ l, physReg s.cpsr.mode q.1 ≠ some p) : (setRegs l s).regs.get p = s.regs.get p := by
  induction l generalizing s with
  | nil => rfl
  | cons q rest ih =>
    obtain ⟨m, w⟩ := q
    simp only [setRegs]
    rw [ih (s.setReg m w) fun r hr => by rw [setReg_cpsr]; exact h r (by simp [hr]),
      setReg_get_other (h (m, w) (by simp))]

/-- What may become of listed registers leaves the PC alone, which no list holds. -/
theorem spoilRegs_pc (base : RegNum) {l : List (RegNum × Word)} {s : State} (h : ∀ p ∈ l, p.1 ≠ 15) :
    (spoilRegs base l s).pc = s.pc := by
  induction l generalizing s with
  | nil => rfl
  | cons p rest ih =>
    simp only [spoilRegs]
    rw [ih fun q hq => h q (by simp [hq])]
    split
    · exact setReg_pc_of_ne s (h p (by simp)) p.2
    · rfl

/-- The base and every register outside the list survive a load multiple that stopped part-way (R246). -/
theorem spoilRegs_get_other (base : RegNum) (l : List (RegNum × Word)) (s : State) {p : PhysReg}
    (h : ∀ q ∈ l, q.1 ≠ base → physReg s.cpsr.mode q.1 ≠ some p) :
    (spoilRegs base l s).regs.get p = s.regs.get p := by
  induction l generalizing s with
  | nil => rfl
  | cons q rest ih =>
    obtain ⟨m, w⟩ := q
    have hrest : ∀ q ∈ rest, q.1 ≠ base → physReg s.cpsr.mode q.1 ≠ some p := fun r hr => h r (by simp [hr])
    simp only [spoilRegs]
    split
    · next hc =>
      simp only [Bool.and_eq_true, decide_eq_true_eq] at hc
      rw [ih _ (by simpa using hrest)]
      exact setReg_get_other (h (m, w) (by simp) (by simpa using hc.1))
    · rw [ih _ (by simpa using hrest)]

end Sys2Proof.Machine
end

