-- ==== Sys2Proof/Laws/PerInstr.lean ====
section
/-! SUPPORT. A family of lemmas with one member per constructor: the length of an encoding
(spec/30_encoding.md R100). -/

namespace Sys2Proof.Laws.EncodingLength

/-- An ARM instruction is encoded in 4 bytes, a Thumb one in 2 (R100). -/
def Statement (i : Instr) : Prop := (encode i).bytes.length = if i.isThumb then 2 else 4

theorem srs (am : AddrMode) (wback : Bool) (mode : BitVec 5) : Statement (.srs am wback mode) := rfl
theorem rfe (am : AddrMode) (wback : Bool) (rn : RegNum) : Statement (.rfe am wback rn) := rfl
theorem cps (imod : BitVec 2) (mmod a i f : Bool) (mode : BitVec 5) : Statement (.cps imod mmod a i f mode) := rfl
theorem svc (c : Cond) (imm24 : BitVec 24) : Statement (.svc c imm24) := rfl
theorem smc (c : Cond) (imm16 : BitVec 16) : Statement (.smc c imm16) := rfl
theorem bkpt (imm16 : BitVec 16) : Statement (.bkpt imm16) := rfl
theorem udf (imm16 : BitVec 16) : Statement (.udf imm16) := rfl
theorem movsPcLr (c : Cond) : Statement (.movsPcLr c) := rfl
theorem subsPcLr4 (c : Cond) : Statement (.subsPcLr4 c) := rfl
theorem subsPcLr8 (c : Cond) : Statement (.subsPcLr8 c) := rfl
theorem mrs (c : Cond) (r : Bool) (rd : RegNum) : Statement (.mrs c r rd) := rfl
theorem msr (c : Cond) (r : Bool) (fields : BitVec 4) (rm : RegNum) : Statement (.msr c r fields rm) := rfl
theorem mov (c : Cond) (rd rm : RegNum) : Statement (.mov c rd rm) := rfl
theorem add (c : Cond) (rd rn : RegNum) (rot : BitVec 4) (imm8 : BitVec 8) : Statement (.add c rd rn rot imm8) := rfl
theorem sub (c : Cond) (rd rn : RegNum) (rot : BitVec 4) (imm8 : BitVec 8) : Statement (.sub c rd rn rot imm8) := rfl
theorem orr (c : Cond) (rd rn : RegNum) (rot : BitVec 4) (imm8 : BitVec 8) : Statement (.orr c rd rn rot imm8) := rfl
theorem bic (c : Cond) (rd rn : RegNum) (rot : BitVec 4) (imm8 : BitVec 8) : Statement (.bic c rd rn rot imm8) := rfl
theorem ldr (c : Cond) (up : Bool) (rd rn : RegNum) (imm12 : BitVec 12) : Statement (.ldr c up rd rn imm12) := rfl
theorem str (c : Cond) (up : Bool) (rd rn : RegNum) (imm12 : BitVec 12) : Statement (.str c up rd rn imm12) := rfl
theorem ldm (c : Cond) (am : AddrMode) (wback : Bool) (rn : RegNum) (list : BitVec 16) : Statement (.ldm c am wback rn list) := rfl
theorem stm (c : Cond) (am : AddrMode) (wback : Bool) (rn : RegNum) (list : BitVec 16) : Statement (.stm c am wback rn list) := rfl
theorem cpsThumb (im a i f : Bool) : Statement (.cpsThumb im a i f) := rfl
theorem svcThumb (imm8 : BitVec 8) : Statement (.svcThumb imm8) := rfl
theorem bkptThumb (imm8 : BitVec 8) : Statement (.bkptThumb imm8) := rfl
theorem udfThumb (imm8 : BitVec 8) : Statement (.udfThumb imm8) := rfl

end Sys2Proof.Laws.EncodingLength
end

