-- ==== Sys2Proof/Laws/Plain.lean ====
section
/-! SUPPORT. Data accesses to ordinary memory (`State.plainWord`): they complete, in order, and the words are those of
spec/20_memory.md R71. -/

namespace Sys2Proof.Machine

theorem noteImprecise_of_none {s : State} {ty : AccessType} {b : Bool} {a : Word} (h : s.abortCause ty a 4 = none) :
    s.noteImprecise ty b a = s := by
  simp [State.noteImprecise, h]

theorem dataAbort_of_none {s : State} {ty : AccessType} {b : Bool} {a : Word} (h : s.abortCause ty a 4 = none) :
    s.dataAbort ty b a = none := by
  simp [State.dataAbort, h]

theorem accessOnly.plainWord {s t : State} (h : accessOnly s t) {ty : AccessType} {a : Word} :
    t.plainWord ty a ↔ s.plainWord ty a := by
  simp [State.plainWord, h.abortCause, h.deviceAt]

theorem readWord_plain {s : State} {b : Bool} {a : Word} (h : s.plainWord .read a) :
    readWord b a s = .done (memWord s.mem s.cpsr.e a) s := by
  obtain ⟨h1, h2, h3⟩ := h
  simp [readWord, h1, dataAbort_of_none h2, noteImprecise_of_none h2, h3]

theorem writeWord_plain {s : State} {a v : Word} (h : s.plainWord .write a) :
    writeWord a v s =
      .done () { s with mem := memSetWord s.mem s.cpsr.e a v, stored := storedSetWord s.stored a } := by
  obtain ⟨h1, h2, h3⟩ := h
  simp [writeWord, h1, dataAbort_of_none h2, noteImprecise_of_none h2, h3]

theorem readWord_aborts {s : State} {b : Bool} {a : Word} {src : AbortSource} (h : s.wordAborts .read b a src) :
    readWord b a s = .abort src s := by
  rcases h with ⟨h1, h2⟩ | ⟨h1, h2, rfl⟩
  · simp [readWord, h1, h2]
  · simp [readWord, misaligned, h1, h2]

theorem writeWord_aborts {s : State} {a v : Word} {src : AbortSource} (h : s.wordAborts .write false a src) :
    writeWord a v s = .abort src s := by
  rcases h with ⟨h1, h2⟩ | ⟨h1, h2, rfl⟩
  · simp [writeWord, h1, h2]
  · simp [writeWord, misaligned, h1, h2]

/-- Ordinary words are read one after the other, and nothing changes. -/
theorem readWords_plain {s : State} {b : Bool} {as : List Word} (h : ∀ a ∈ as, s.plainWord .read a) :
    readWords b as s = .done (as.map (memWord s.mem s.cpsr.e)) s := by
  induction as with
  | nil => rfl
  | cons a rest ih =>
    simp only [readWords, readWord_plain (h a (by simp)), ih fun x hx => h x (by simp [hx]), List.map_cons]

/-- Ordinary words before one that aborts are read, and the abort is that word's (R76). -/
theorem readWords_abort_at {s : State} {b : Bool} {l1 l2 : List Word} {a : Word} {src : AbortSource}
    (h : ∀ p ∈ l1, s.plainWord .read p) (hd : s.wordAborts .read b a src) :
    readWords b (l1 ++ a :: l2) s = .abort src (l1.map (memWord s.mem s.cpsr.e)) s := by
  induction l1 with
  | nil => simp [readWords, readWord_aborts hd]
  | cons p rest ih =>
    simp only [List.cons_append, readWords, readWord_plain (h p (by simp)), ih fun q hq => h q (by simp [hq]),
      List.map_cons]

/-- The memory after the words of a list are written in order. -/
def memSetWords (m : List Host.Cell) (big : Bool) (l : List (Word × Word)) : List Host.Cell :=
  l.foldl (fun m p => memSetWord m big p.1 p.2) m

/-- The stored addresses after the words of a list are written in order. -/
def storedSetWords (st : List Nat) (l : List (Word × Word)) : List Nat :=
  l.foldl (fun st p => storedSetWord st p.1) st

/-- Ordinary words are written one after the other, and only memory changes. -/
theorem writeWords_plain {s : State} {l : List (Word × Word)} (h : ∀ p ∈ l, s.plainWord .write p.1) :
    writeWords l s =
      .done () { s with mem := memSetWords s.mem s.cpsr.e l, stored := storedSetWords s.stored l } := by
  induction l generalizing s with
  | nil => rfl
  | cons p rest ih =>
    obtain ⟨a, v⟩ := p
    have h1 := writeWord_plain (v := v) (h (a, v) (by simp))
    simp only [writeWords, h1]
    exact ih fun q hq => (h q (by simp [hq]) : s.plainWord .write q.1)

/-- Ordinary words before one that aborts are written, and the abort is that word's (R76). -/
theorem writeWords_abort_at {s : State} {l1 l2 : List (Word × Word)} {a v : Word} {src : AbortSource}
    (h : ∀ p ∈ l1, s.plainWord .write p.1) (hd : s.wordAborts .write false a src) :
    writeWords (l1 ++ (a, v) :: l2) s =
      .abort src { s with mem := memSetWords s.mem s.cpsr.e l1, stored := storedSetWords s.stored l1 } := by
  induction l1 generalizing s with
  | nil => simp [writeWords, writeWord_aborts hd, memSetWords, storedSetWords]
  | cons p rest ih =>
    have h1 := writeWord_plain (v := p.2) (h p (by simp))
    simp only [List.cons_append, writeWords, h1]
    exact ih (fun q hq => (h q (by simp [hq]) : s.plainWord .write q.1)) hd

theorem wf_memSetWords {m : List Host.Cell} (hm : Memory.wf m = true) (big : Bool) (l : List (Word × Word)) :
    Memory.wf (memSetWords m big l) = true := by
  induction l generalizing m with
  | nil => exact hm
  | cons p rest ih => exact ih (wf_memSetWord hm big p.1 p.2)

theorem readByte_memSetWords_outside {m : List Host.Cell} (hm : Memory.wf m = true) (big : Bool)
    (l : List (Word × Word)) {b : Nat} (hb : ∀ p ∈ l, ∀ k < 4, b ≠ byteAddr p.1 k) :
    readByte (memSetWords m big l) b = readByte m b := by
  induction l generalizing m with
  | nil => rfl
  | cons p rest ih =>
    have h1 := ih (wf_memSetWord hm big p.1 p.2) fun q hq => hb q (by simp [hq])
    exact h1.trans (readByte_memSetWord_outside hm big p.1 p.2 (hb p (by simp)))

theorem memWord_memSetWords_apart {m : List Host.Cell} (hm : Memory.wf m = true) (big big' : Bool)
    (l : List (Word × Word)) {b : Word} (hb : ∀ p ∈ l, ∀ j < 4, ∀ k < 4, byteAddr b j ≠ byteAddr p.1 k) :
    memWord (memSetWords m big l) big' b = memWord m big' b := by
  induction l generalizing m with
  | nil => rfl
  | cons p rest ih =>
    have h1 := ih (wf_memSetWord hm big p.1 p.2) fun q hq => hb q (by simp [hq])
    exact h1.trans (memWord_memSetWord_apart hm big big' p.2 (hb p (by simp)))

/-- Each of several words at different aligned addresses reads back. -/
theorem memWord_memSetWords {m : List Host.Cell} (hm : Memory.wf m = true) (big : Bool) {l : List (Word × Word)}
    (hal : ∀ p ∈ l, wordAligned p.1 = true) (hnd : (l.map (·.1)).Nodup) {p : Word × Word} (hp : p ∈ l) :
    memWord (memSetWords m big l) big p.1 = p.2 := by
  induction l generalizing m with
  | nil => simp at hp
  | cons q rest ih =>
    simp only [List.map_cons, List.nodup_cons] at hnd
    have hw := wf_memSetWord hm big q.1 q.2
    rcases List.mem_cons.1 hp with rfl | hp'
    · have : memWord (memSetWords (memSetWord m big p.1 p.2) big rest) big p.1 =
          memWord (memSetWord m big p.1 p.2) big p.1 :=
        memWord_memSetWords_apart hw big big rest fun q hq =>
          byteAddr_ne_of_aligned (hal q (by simp [hq])) (hal p (by simp)) fun e =>
            hnd.1 (List.mem_map.2 ⟨q, hq, e.symm⟩)
      exact this.trans (memWord_memSetWord hm big p.1 p.2)
    · exact ih hw (fun q hq => hal q (by simp [hq])) hnd.2 hp'

/-! ### Words of which any are at devices -/

/-- Aligned words without an abort, any of them at devices, are read in order: those of memory hold what memory holds,
those of devices the environment's next answers, and the bus sees the latter (R74, R87). -/
theorem readWords_mixed {s : State} {b : Bool} {acc : List (Word × Word)} {rest : List Word}
    (hal : ∀ p ∈ acc, wordAligned p.1 = true) (hab : ∀ p ∈ acc, s.abortCause .read p.1 4 = none)
    (hmem : ∀ p ∈ acc, s.deviceAt p.1 4 = false → p.2 = memWord s.mem s.cpsr.e p.1)
    (hans : s.deviceAnswers = (acc.filter fun p => s.deviceAt p.1 4).map (·.2) ++ rest) :
    readWords b (acc.map (·.1)) s = .done (acc.map (·.2)) { s with
      deviceAnswers := rest
      busLog := s.busLog ++ (acc.filter fun p => s.deviceAt p.1 4).map fun p => .deviceRead p.1 p.2 } := by
  induction acc generalizing s with
  | nil => simp only [List.filter_nil, List.map_nil, List.nil_append] at hans; simp [readWords, ← hans]
  | cons p l ih =>
    obtain ⟨a, v⟩ := p
    have h1 : s.abortCause .read a 4 = none := hab (a, v) (by simp)
    have hal1 : wordAligned a = true := hal (a, v) (by simp)
    cases hd : s.deviceAt a 4
    · have hv : v = memWord s.mem s.cpsr.e a := hmem (a, v) (by simp) hd
      rw [List.filter_cons_of_neg (by simp [hd])] at hans
      have := ih (s := s) (fun q hq => hal q (by simp [hq])) (fun q hq => hab q (by simp [hq]))
        (fun q hq => hmem q (by simp [hq])) hans
      simp only [List.map_cons, readWords, readWord, hal1, dataAbort_of_none h1, noteImprecise_of_none h1, hd, this,
        if_true, Bool.false_eq_true, if_false]
      rw [List.filter_cons_of_neg (by simp [hd]), hv]
    · rw [List.filter_cons_of_pos (by simp [hd])] at hans
      simp only [List.map_cons, List.cons_append] at hans
      have := ih (s := { s with
          deviceAnswers := (l.filter fun p => s.deviceAt p.1 4).map (·.2) ++ rest
          busLog := s.busLog ++ [.deviceRead a v] }) (fun q hq => hal q (by simp [hq]))
        (fun q hq => (hab q (by simp [hq]) : s.abortCause .read q.1 4 = none))
        (fun q hq => (hmem q (by simp [hq]) : s.deviceAt q.1 4 = false → _)) rfl
      simp only [List.map_cons, readWords, readWord, hal1, dataAbort_of_none h1, noteImprecise_of_none h1, hd, if_true,
        deviceRead, deviceAnswer, hans]
      rw [this, List.filter_cons_of_pos (by simp [hd])]
      simp only [List.map_cons, List.append_assoc, List.cons_append, List.nil_append]
      rfl

/-- Aligned words without an abort, any of them at devices, are written in order: memory takes its own, the bus sees the
devices', and every one is remembered (R74, R84, R87). -/
theorem writeWords_mixed {s : State} {acc : List (Word × Word)} (hal : ∀ p ∈ acc, wordAligned p.1 = true)
    (hab : ∀ p ∈ acc, s.abortCause .write p.1 4 = none) :
    writeWords acc s = .done () { s with
      mem := memSetWords s.mem s.cpsr.e (acc.filter fun p => !s.deviceAt p.1 4)
      stored := storedSetWords s.stored acc
      busLog := s.busLog ++ (acc.filter fun p => s.deviceAt p.1 4).map fun p => .deviceWrite p.1 p.2 } := by
  induction acc generalizing s with
  | nil => simp [writeWords, memSetWords, storedSetWords]
  | cons p l ih =>
    obtain ⟨a, v⟩ := p
    have h1 : s.abortCause .write a 4 = none := hab (a, v) (by simp)
    have hal1 : wordAligned a = true := hal (a, v) (by simp)
    cases hd : s.deviceAt a 4
    · have := ih (s := { s with mem := memSetWord s.mem s.cpsr.e a v, stored := storedSetWord s.stored a })
        (fun q hq => hal q (by simp [hq])) (fun q hq => (hab q (by simp [hq]) : s.abortCause .write q.1 4 = none))
      simp only [writeWords, writeWord, hal1, dataAbort_of_none h1, noteImprecise_of_none h1, hd, if_true,
        Bool.false_eq_true, if_false]
      rw [this, List.filter_cons_of_pos (by simp [hd]), List.filter_cons_of_neg (by simp [hd])]
      rfl
    · have := ih (s := { s with stored := storedSetWord s.stored a, busLog := s.busLog ++ [.deviceWrite a v] })
        (fun q hq => hal q (by simp [hq])) (fun q hq => (hab q (by simp [hq]) : s.abortCause .write q.1 4 = none))
      simp only [writeWords, writeWord, hal1, dataAbort_of_none h1, noteImprecise_of_none h1, hd, if_true]
      rw [this, List.filter_cons_of_neg (by simp [hd]), List.filter_cons_of_pos (by simp [hd])]
      simp only [List.map_cons, List.append_assoc, List.cons_append, List.nil_append]
      rfl

end Sys2Proof.Machine
end

