-- ==== Sys2Proof/Laws/Step.lean ====
section
/-! SUPPORT. What one step can do (spec/60_exceptions.md R221): the phases of a boundary, and what each leaves as it
is. -/

namespace Sys2Proof.Machine

theorem resetPhase_some {s : State} {o : Host.Outcome State Fault Refusal} (h : resetPhase s = some o) :
    o = .next { s with inReset := true } ∨ (s.inReset = true ∧ o = .next (resetSequence s)) ∨ o = .fault .resetPinsApart := by
  unfold resetPhase at h
  split at h
  · simp only [Option.some.injEq] at h; exact .inl h.symm
  · split at h
    · next hr => simp only [Option.some.injEq] at h; exact .inr (.inl ⟨hr, h.symm⟩)
    · simp at h
  · simp only [Option.some.injEq] at h; exact .inr (.inr h.symm)

theorem resetPhase_none {s : State} : resetPhase s = none ↔
    s.signals.nRESETIN = .high ∧ s.signals.nVFPRESETIN = .high ∧ s.inReset = false := by
  unfold resetPhase
  split
  · next h1 h2 => simp [h1]
  · next h1 h2 => split <;> simp_all
  · next h1 h2 h3 =>
    simp only [reduceCtorEq, false_iff, not_and]
    intro e1 e2; exact absurd e2 (fun e2 => h3 e1 e2)

/-- The ways a step gives a next state: reset is held, reset is performed, or the boundary is gone through and R221
steps 2 to 6 follow. -/
theorem cycle_next {s t : State} (h : cycle s = .next t) :
    t = { sample s.nextBoundary s with inReset := true } ∨
    (s.inReset = true ∧ t = resetSequence (sample s.nextBoundary s)) ∨
    (s.inReset = false ∧ s.nextBoundary.signals.nRESETIN = .high ∧ s.nextBoundary.signals.nVFPRESETIN = .high ∧
      ∃ u, applyControl s.nextBoundary.control (closeFiWindow (sample s.nextBoundary s)) = .next u ∧
        attend (reportErrors s.nextBoundary.errorReports u) = .next t) := by
  unfold cycle at h
  split at h
  · simp at h
  · simp only at h
    split at h
    · next o ho =>
      rcases resetPhase_some ho with h1 | ⟨h1, h2⟩ | h1
      · rw [h1, Host.Outcome.next.injEq] at h; exact .inl h.symm
      · rw [h2, Host.Outcome.next.injEq] at h; exact .inr (.inl ⟨by simpa using h1, h.symm⟩)
      · rw [h1] at h; simp at h
    · next ho =>
      obtain ⟨h1, h2, h3⟩ := resetPhase_none.1 ho
      split at h
      · next u hu => exact .inr (.inr ⟨by simpa using h3, h1, h2, u, hu, h⟩)
      · simp at h
      · simp at h

/-- What a fetch that gives bytes has done: nothing to memory, and to the rest no more than a data access may. -/
theorem fetch_bytes {s u : State} {bs : List Byte} (h : fetch s = .bytes bs u) :
    accessOnly s u ∧ u.mem = s.mem ∧ u.stored = s.stored := by
  unfold fetch at h
  split at h
  · simp at h
  split at h
  · simp at h
  split at h
  · simp at h
  split at h
  · simp at h
  split at h
  · simp only [Fetched.bytes.injEq] at h
    rw [← h.2]
    exact ⟨(deviceAnswer_accessOnly s).trans rfl, by simp, by simp⟩
  · simp only [Fetched.bytes.injEq] at h
    rw [← h.2]
    exact ⟨.refl _, rfl, rfl⟩

/-- The ways R221 steps 2 to 6 give a next state; `u` is the state that the fetch leaves. -/
theorem attend_next {s t : State} (h : attend s = .next t) :
    (∃ x, interruptTaken s = some x ∧ t = takeInterrupt x s) ∨
    (interruptTaken s = none ∧
      ((∃ src, fetch s = .abort src ∧ t = takeException (.prefetchAbort src) (s.pc + 4) s) ∨
        (∃ bs u, fetch s = .bytes bs u ∧
          ((impreciseTaken u = true ∧ t = takeImprecise u) ∨
            (impreciseTaken u = false ∧ ∃ i, decode u.cpsr.t bs = .instr i ∧ exec i u = .next t))))) := by
  unfold attend at h
  split at h
  · next x hx => simp only [Host.Outcome.next.injEq] at h; exact .inl ⟨x, hx, h.symm⟩
  · next hn =>
    refine .inr ⟨hn, ?_⟩
    split at h
    · simp at h
    · simp at h
    · next src hs => simp only [Host.Outcome.next.injEq] at h; exact .inl ⟨src, hs, h.symm⟩
    · next bs u hb =>
      refine .inr ⟨bs, u, hb, ?_⟩
      split at h
      · next hi => simp only [Host.Outcome.next.injEq] at h; exact .inl ⟨hi, h.symm⟩
      · next hi =>
        refine .inr ⟨by simpa using hi, ?_⟩
        unfold runFetched at h
        split at h
        · simp at h
        · next i hd => exact ⟨i, hd, h⟩

/-- `t` differs from `s` at most in what a boundary may change before R221 step 2: control registers, FI, bases,
and the held errors. -/
def boundaryOnly (s t : State) : Prop :=
  t = { s with
    scr := t.scr, fi := t.fi, fiWindow := t.fiWindow, secureCtrl := t.secureCtrl, nonSecureCtrl := t.nonSecureCtrl
    nonSecureBase := t.nonSecureBase, secureBase := t.secureBase, monitorBase := t.monitorBase
    abortPending := t.abortPending, bufferedErrors := t.bufferedErrors }

theorem boundaryOnly.trans {s t u : State} (h : boundaryOnly s t) (h' : boundaryOnly t u) : boundaryOnly s u := by
  unfold boundaryOnly at *
  rw [h', h]

theorem reportErrors_boundaryOnly (n : Nat) (s : State) : boundaryOnly s (reportErrors n s) := by
  unfold boundaryOnly reportErrors; split <;> rfl

theorem drainErrors_boundaryOnly (s : State) : boundaryOnly s (drainErrors s) := by
  unfold boundaryOnly drainErrors; split <;> rfl

theorem boundaryOnly.regs {s t : State} (h : boundaryOnly s t) : t.regs = s.regs := by rw [h]
theorem boundaryOnly.pc {s t : State} (h : boundaryOnly s t) : t.pc = s.pc := by rw [h]
theorem boundaryOnly.cpsr {s t : State} (h : boundaryOnly s t) : t.cpsr = s.cpsr := by rw [h]
theorem boundaryOnly.spsr {s t : State} (h : boundaryOnly s t) : t.spsr = s.spsr := by rw [h]
theorem boundaryOnly.mem {s t : State} (h : boundaryOnly s t) : t.mem = s.mem := by rw [h]
theorem boundaryOnly.stored {s t : State} (h : boundaryOnly s t) : t.stored = s.stored := by rw [h]
theorem boundaryOnly.params {s t : State} (h : boundaryOnly s t) : t.params = s.params := by rw [h]
theorem boundaryOnly.inReset {s t : State} (h : boundaryOnly s t) : t.inReset = s.inReset := by rw [h]
theorem boundaryOnly.inputs {s t : State} (h : boundaryOnly s t) : t.inputs = s.inputs := by rw [h]
theorem boundaryOnly.map {s t : State} (h : boundaryOnly s t) : t.map = s.map := by rw [h]
theorem boundaryOnly.signals {s t : State} (h : boundaryOnly s t) : t.signals = s.signals := by rw [h]

theorem closeFiWindow_boundaryOnly (s : State) : boundaryOnly s (closeFiWindow s) := rfl

/-- A write changes what its record names and nothing else, and only where the mode and world may make it. -/
theorem permittedWrite_next {c : ControlWrite} {s t : State} (h : permittedWrite c s = .next t) : boundaryOnly s t := by
  unfold permittedWrite at h
  split at h
  all_goals try (simp only [Host.Outcome.next.injEq] at h; subst h; rfl)
  · split at h
    · simp only [Host.Outcome.next.injEq] at h; subst h; rfl
    · split at h
      · simp only [Host.Outcome.next.injEq] at h; subst h; rfl
      · simp at h

/-- The state in which a control write begins, its first barrier done, if it has one. -/
theorem hasBarrier_boundaryOnly (c : ControlWrite) (s : State) :
    boundaryOnly s (if c.hasBarrier then drainErrors s else s) := by
  split
  · exact drainErrors_boundaryOnly s
  · rfl

/-- What a control write can do: its barriers, and then nothing if the mode and world may not make it, else the
write. -/
theorem controlWrite_next {c : ControlWrite} {s t : State} (h : controlWrite c s = .next t) :
    ∃ u, u = (if c.hasBarrier then drainErrors s else s) ∧ boundaryOnly s t ∧
      ((mayWrite c u = false ∧ t = u) ∨ (mayWrite c u = true ∧ permittedWrite c u = .next t)) := by
  refine ⟨_, rfl, ?_⟩
  have hb := hasBarrier_boundaryOnly c s
  unfold controlWrite at h
  generalize (if c.hasBarrier = true then drainErrors s else s) = u at h hb ⊢
  simp only at h
  split at h
  · next hm => exact ⟨hb.trans (permittedWrite_next h), .inr ⟨hm, h⟩⟩
  · next hm => simp only [Host.Outcome.next.injEq] at h; subst h; exact ⟨hb, .inl ⟨by simpa using hm, rfl⟩⟩

theorem applyControl_next {c : Option ControlWrite} {s t : State} (h : applyControl c s = .next t) : boundaryOnly s t := by
  unfold applyControl at h
  split at h
  · simp only [Host.Outcome.next.injEq] at h; subst h; rfl
  · obtain ⟨u, _, hb, _⟩ := controlWrite_next h; exact hb

/-- The registers of the Secure world's configuration. -/
def secureControlsKept (s t : State) : Prop :=
  t.scr = s.scr ∧ t.fi = s.fi ∧ t.secureCtrl = s.secureCtrl ∧ t.secureBase = s.secureBase ∧
    t.monitorBase = s.monitorBase

theorem reportErrors_controls (n : Nat) (s : State) : secureControlsKept s (reportErrors n s) := by
  unfold reportErrors; split <;> exact ⟨rfl, rfl, rfl, rfl, rfl⟩

theorem drainErrors_controls (s : State) : secureControlsKept s (drainErrors s) := by
  unfold drainErrors; split <;> exact ⟨rfl, rfl, rfl, rfl, rfl⟩

theorem secureControlsKept.trans {s t u : State} (h : secureControlsKept s t) (h' : secureControlsKept t u) :
    secureControlsKept s u := by
  obtain ⟨h1, h2, h3, h4, h5⟩ := h
  obtain ⟨k1, k2, k3, k4, k5⟩ := h'
  exact ⟨k1.trans h1, k2.trans h2, k3.trans h3, k4.trans h4, k5.trans h5⟩

/-- No control write made in the Non-secure world reaches the Secure world's configuration (R35, R36). -/
theorem controlWrite_nonSecure {c : ControlWrite} {s t : State} (hw : s.world = .nonSecure)
    (h : controlWrite c s = .next t) : secureControlsKept s t := by
  obtain ⟨u, hu, _, hor⟩ := controlWrite_next h
  have hk : secureControlsKept s u := by
    rw [hu]; split
    · exact drainErrors_controls s
    · exact ⟨rfl, rfl, rfl, rfl, rfl⟩
  rcases hor with ⟨_, rfl⟩ | ⟨hm, h⟩
  · exact hk
  · have hwu : u.world = .nonSecure := by
      rw [hu]; split
      · simpa [State.world] using hw
      · exact hw
    refine hk.trans ?_
    cases c with
    | scr v => simp [mayWrite, hwu] at hm
    | controlBits w v =>
      cases w
      · simp [mayWrite, hwu] at hm
      · simp only [permittedWrite, Host.Outcome.next.injEq] at h; subst h; exact ⟨rfl, rfl, rfl, rfl, rfl⟩
    | base r v =>
      cases r
      · simp only [permittedWrite, Host.Outcome.next.injEq] at h; subst h; exact ⟨rfl, rfl, rfl, rfl, rfl⟩
      · simp [mayWrite, hwu] at hm
      · simp [mayWrite, hwu] at hm
    | fi v b => simp [mayWrite, hwu] at hm
    | barrier => simp only [permittedWrite, Host.Outcome.next.injEq] at h; subst h; exact ⟨rfl, rfl, rfl, rfl, rfl⟩

theorem applyControl_nonSecure {c : Option ControlWrite} {s t : State} (hw : s.world = .nonSecure)
    (h : applyControl c s = .next t) : secureControlsKept s t := by
  unfold applyControl at h
  split at h
  · simp only [Host.Outcome.next.injEq] at h; subst h; exact ⟨rfl, rfl, rfl, rfl, rfl⟩
  · exact controlWrite_nonSecure hw h

end Sys2Proof.Machine
end

