-- ==== Sys2Proof/Tests/Slice0.lean ====
section
/-! SUPPORT. The model's own tests. Expected values are those of the spec's worked examples (spec/40 to spec/43) or
follow by hand from the rule named; the words are written field by field from the formats of
spec/30_encoding.md R102 and R103. Then, for every statement with hypotheses, a witness that meets them. -/

namespace Sys2Proof.Tests

open Sys2Proof Sys2Proof.Machine

/-! ## Well-formedness: one ill-formed term for each check -/

theorem test_srs_needs_a_mode : (Instr.srs .db true 0b11010).wellFormed = false := by decide
theorem test_srs_not_user_mode : (Instr.srs .db true 0b10000).wellFormed = false := by decide
theorem test_srs_not_system_mode : (Instr.srs .db true 0b11111).wellFormed = false := by decide
theorem test_rfe_base_not_pc : (Instr.rfe .ia true 15).wellFormed = false := by decide
theorem test_cps_imod_01 : (Instr.cps 0b01 false false false false 0).wellFormed = false := by decide
theorem test_cps_changes_something : (Instr.cps 0b00 false false false false 0).wellFormed = false := by decide
theorem test_cps_letters_without_change : (Instr.cps 0b00 true true false false 0x13).wellFormed = false := by decide
theorem test_cps_change_without_letters : (Instr.cps 0b10 false false false false 0).wellFormed = false := by decide
theorem test_cps_mode_without_m : (Instr.cps 0b10 false true false false 0x13).wellFormed = false := by decide
theorem test_cps_needs_a_mode : (Instr.cps 0b00 true false false false 0).wellFormed = false := by decide
theorem test_mrs_not_to_pc : (Instr.mrs .al false 15).wellFormed = false := by decide
theorem test_mov_not_to_pc : (Instr.mov .al 15 1).wellFormed = false := by decide
theorem test_add_not_to_pc : (Instr.add .al 15 1 0 0).wellFormed = false := by decide
theorem test_sub_not_to_pc : (Instr.sub .al 15 1 0 0).wellFormed = false := by decide
theorem test_orr_not_to_pc : (Instr.orr .al 15 1 0 0).wellFormed = false := by decide
theorem test_bic_not_to_pc : (Instr.bic .al 15 1 0 0).wellFormed = false := by decide
theorem test_str_not_pc : (Instr.str .al true 15 0 4).wellFormed = false := by decide
theorem test_ldm_empty_list : (Instr.ldm .al .ia true 13 0).wellFormed = false := by decide
theorem test_ldm_list_with_pc : (Instr.ldm .al .ia true 13 0x8000).wellFormed = false := by decide
theorem test_ldm_base_pc : (Instr.ldm .al .ia false 15 1).wellFormed = false := by decide
theorem test_ldm_base_in_list : (Instr.ldm .al .ia true 0 1).wellFormed = false := by decide
theorem test_stm_empty_list : (Instr.stm .al .ia true 13 0).wellFormed = false := by decide
theorem test_stm_base_pc : (Instr.stm .al .ia false 15 1).wellFormed = false := by decide
theorem test_stm_base_not_lowest : (Instr.stm .al .ia true 1 3).wellFormed = false := by decide
theorem test_stm_base_lowest_is_fine : (Instr.stm .al .ia true 1 6).wellFormed = true := by decide
theorem test_cpsThumb_no_letter : (Instr.cpsThumb true false false false).wellFormed = false := by decide

/-! ## Decoding: every constructor, its word written from its format -/

theorem test_decode_srs : decodeArm (0b1111100#7 ++ 1#1 ++ 0#1 ++ 1#1 ++ 1#1 ++ 0#1 ++ 0xD#4 ++ 0x0#4 ++ 0x5#4 ++
    0b000#3 ++ 0b10111#5) = .instr (.srs .db true 0x17) := by decide
theorem test_decode_rfe : decodeArm (0b1111100#7 ++ 0#1 ++ 1#1 ++ 0#1 ++ 1#1 ++ 1#1 ++ 0xD#4 ++ 0x0#4 ++ 0xA#4 ++
    0x00#8) = .instr (.rfe .ia true 13) := by decide
theorem test_decode_cps : decodeArm (0xF10#12 ++ 0b10#2 ++ 1#1 ++ 0#1 ++ 0#7 ++ 0#1 ++ 0#1 ++ 1#1 ++ 0#1 ++
    0b10111#5) = .instr (.cps 0b10 true false false true 0x17) := by decide
theorem test_decode_svc : decodeArm (0xE#4 ++ 0xF#4 ++ 0x000012#24) = .instr (.svc .al 0x12) := by decide
theorem test_decode_smc : decodeArm (0x1#4 ++ 0x16#8 ++ 0xABC#12 ++ 0x7#4 ++ 0xD#4) = .instr (.smc .ne 0xABCD) := by
      decide
theorem test_decode_bkpt : decodeArm (0xE#4 ++ 0x12#8 ++ 0x123#12 ++ 0x7#4 ++ 0x4#4) = .instr (.bkpt 0x1234) := by
      decide
theorem test_decode_udf : decodeArm (0xE#4 ++ 0x7F#8 ++ 0x000#12 ++ 0xF#4 ++ 0x0#4) = .instr (.udf 0) := by decide
theorem test_decode_movsPcLr : decodeArm (0xE#4 ++ 0b00#2 ++ 0#1 ++ 0b1101#4 ++ 1#1 ++ 0x0#4 ++ 0xF#4 ++ 0x00#8 ++
    0xE#4) = .instr (.movsPcLr .al) := by decide
theorem test_decode_subsPcLr4 : decodeArm (0xE#4 ++ 0b00#2 ++ 1#1 ++ 0b0010#4 ++ 1#1 ++ 0xE#4 ++ 0xF#4 ++ 0x0#4 ++
    0x04#8) = .instr (.subsPcLr4 .al) := by decide
theorem test_decode_subsPcLr8 : decodeArm (0xD#4 ++ 0b00#2 ++ 1#1 ++ 0b0010#4 ++ 1#1 ++ 0xE#4 ++ 0xF#4 ++ 0x0#4 ++
    0x08#8) = .instr (.subsPcLr8 .le) := by decide
theorem test_decode_mrs : decodeArm (0xE#4 ++ 0b00010#5 ++ 1#1 ++ 0b00#2 ++ 0xF#4 ++ 0x1#4 ++ 0x000#12) =
    .instr (.mrs .al true 1) := by decide
theorem test_decode_msr : decodeArm (0xE#4 ++ 0b00010#5 ++ 0#1 ++ 0b10#2 ++ 0b0001#4 ++ 0xF#4 ++ 0x00#8 ++ 0x3#4) =
    .instr (.msr .al false 0b0001 3) := by decide
theorem test_decode_mov : decodeArm (0xE#4 ++ 0b00#2 ++ 0#1 ++ 0b1101#4 ++ 0#1 ++ 0x0#4 ++ 0x0#4 ++ 0x00#8 ++ 0xE#4) =
    .instr (.mov .al 0 14) := by decide
theorem test_decode_add : decodeArm (0xE#4 ++ 0b00#2 ++ 1#1 ++ 0b0100#4 ++ 0#1 ++ 0xD#4 ++ 0x2#4 ++ 0x9#4 ++ 0x08#8) =
    .instr (.add .al 2 13 9 8) := by decide
theorem test_decode_sub : decodeArm (0x0#4 ++ 0b00#2 ++ 1#1 ++ 0b0010#4 ++ 0#1 ++ 0xE#4 ++ 0xE#4 ++ 0x0#4 ++ 0x04#8) =
    .instr (.sub .eq 14 14 0 4) := by decide
theorem test_decode_orr : decodeArm (0xE#4 ++ 0b00#2 ++ 1#1 ++ 0b1100#4 ++ 0#1 ++ 0x3#4 ++ 0x4#4 ++ 0x0#4 ++ 0x1B#8) =
    .instr (.orr .al 4 3 0 0x1B) := by decide
theorem test_decode_bic : decodeArm (0xE#4 ++ 0b00#2 ++ 1#1 ++ 0b1110#4 ++ 0#1 ++ 0x3#4 ++ 0x4#4 ++ 0x0#4 ++ 0x1F#8) =
    .instr (.bic .al 4 3 0 0x1F) := by decide
theorem test_decode_ldr : decodeArm (0xE#4 ++ 0b010#3 ++ 1#1 ++ 0#1 ++ 0#1 ++ 0#1 ++ 1#1 ++ 0xE#4 ++ 0x0#4 ++
      0x004#12) =
    .instr (.ldr .al false 0 14 4) := by decide
theorem test_decode_str : decodeArm (0xE#4 ++ 0b010#3 ++ 1#1 ++ 1#1 ++ 0#1 ++ 0#1 ++ 0#1 ++ 0xE#4 ++ 0x0#4 ++
      0x004#12) =
    .instr (.str .al true 0 14 4) := by decide
theorem test_decode_ldm : decodeArm (0xE#4 ++ 0b100#3 ++ 0#1 ++ 1#1 ++ 0#1 ++ 1#1 ++ 1#1 ++ 0xD#4 ++ 0x400C#16) =
    .instr (.ldm .al .ia true 13 0x400C) := by decide
theorem test_decode_stm : decodeArm (0xE#4 ++ 0b100#3 ++ 1#1 ++ 0#1 ++ 0#1 ++ 0#1 ++ 0#1 ++ 0xD#4 ++ 0x000C#16) =
    .instr (.stm .al .db false 13 0xC) := by decide
theorem test_decode_cpsThumb : decodeThumb (0b10110110#8 ++ 0b011#3 ++ 1#1 ++ 0#1 ++ 0#1 ++ 1#1 ++ 0#1) =
    .instr (.cpsThumb true false true false) := by decide
theorem test_decode_svcThumb : decodeThumb (0xDF#8 ++ 0x05#8) = .instr (.svcThumb 5) := by decide
theorem test_decode_bkptThumb : decodeThumb (0xBE#8 ++ 0x01#8) = .instr (.bkptThumb 1) := by decide
theorem test_decode_udfThumb : decodeThumb (0xDE#8 ++ 0xFF#8) = .instr (.udfThumb 0xFF) := by decide

/-- R106, R156, R165, R193: neighbours of the table's words are refused, each under its name. -/
theorem test_decode_refuses :
    decodeArm 0xE1B0F000 = .refused .otherReturnForm ∧ decodeArm 0xE25EF00C = .refused .otherReturnForm ∧
    decodeArm 0x07F000F0 = .refused .undefinedCondition ∧ decodeArm 0x01200070 = .refused .breakpointCondition ∧
    decodeArm 0xE8D00001 = .refused .multipleWithS ∧ decodeArm 0xE5D00000 = .refused .loadStoreForm ∧
    decodeArm 0xF5D00000 = .refused .unconditionalNotInTable ∧ decodeArm 0xE0811002 = .refused .armNotInTable ∧
    decodeArm 0xF10A0257 = .refused .reservedBits ∧ decodeThumb 0xB67A = .refused .reservedBits ∧
    decodeThumb 0x4770 = .refused .thumbNotInTable ∧ decode true [0, 0, 0, 0] = .refused .wrongLength := by decide

/-- The bits of a row in table order: word 0 from the lowest bit. -/
theorem test_decodeTableWord : decodeTableWord 32 0xEF000012 = some (.svc .al 0x12) ∧
    decodeTableWord 16 0xDF05 = some (.svcThumb 5) ∧ decodeTableWord 32 0 = none := by decide

/-! ## One step on a small state -/

/-- A machine at 0x8000 with the CPSR `psr`, otherwise as after reset. -/
def start (psr : Word) : State :=
  { State.reset with pc := 0x8000, cpsr := (Psr.ofWord? psr).getD State.reset.cpsr }

/-- The same machine in the Non-secure world. -/
def nonSecure (s : State) : State := { s with scr := { s.scr with ns := true } }

/-- The little-endian word `v` put at `a` from outside. -/
def put (a v : Word) (s : State) : State := { s with mem := memSetWord s.mem false a v }

/-- What is seen of an outcome that is a next state. -/
def look {α : Type} (o : Host.Outcome State Fault Refusal) (f : State → α) : Option α :=
  match o with
  | .next t => some (f t)
  | .fault _ => none
  | .refused _ => none

/-- The next state, or reset's when there is none. -/
def after (o : Host.Outcome State Fault Refusal) : State :=
  match o with
  | .next t => t
  | .fault _ => State.reset
  | .refused _ => State.reset

/-- In FIQ mode with a return state to store on the Abort stack (R130's worked example). -/
def srsState : State :=
  let s := (start 0x1D1).setReg 14 0x8000
  { s with spsr := { s.spsr with fiq := 0x10 }, regs := { s.regs with sp := { s.regs.sp with abt := 0x4000 } } }

theorem test_srs : look (exec (.srs .db true 0x17) srsState) (fun t =>
    (memWord t.mem false 0x3FF8, memWord t.mem false 0x3FFC, t.regs.sp.abt, t.regs.sp.fiq)) =
      some (0x8000, 0x10, 0x3FF8, 0) := by decide

/-- In Abort mode with that return state on the stack (R131's worked example). -/
def rfeState : State := put 0x3FFC 0x10 (put 0x3FF8 0x8000 ((start 0x197).setReg 13 0x3FF8))

theorem test_rfe : look (exec (.rfe .ia true 13) rfeState) (fun t => (t.pc, t.cpsr.toWord, t.regs.sp.abt)) =
    some (0x8000, 0x10, 0x4000) := by decide

theorem test_cps : look (exec (.cps 0b10 true false false true 0x17) (start 0x1D1)) (fun t => (t.cpsr.toWord, t.pc)) =
    some (0x197, 0x8004) := by decide
theorem test_cpsThumb : look (exec (.cpsThumb true false true false) (start 0x33)) (fun t => (t.cpsr.toWord, t.pc)) =
    some (0xB3, 0x8002) := by decide
theorem test_svc : look (exec (.svc .al 0x12) (start 0x10)) (fun t =>
    (t.regs.lr.svc, t.spsr.svc, t.cpsr.toWord, t.pc)) = some (0x8004, 0x10, 0x93, 8) := by decide
theorem test_svcThumb : look (exec (.svcThumb 5) (start 0x30)) (fun t =>
    (t.regs.lr.svc, t.spsr.svc, t.cpsr.toWord, t.pc)) = some (0x8002, 0x30, 0x93, 8) := by decide
theorem test_smc : look (exec (.smc .al 0) (nonSecure { start 0x13 with monitorBase := 0x10000 })) (fun t =>
    (t.regs.lr.mon, t.spsr.mon, t.cpsr.toWord, t.pc, t.scr.ns)) = some (0x8004, 0x13, 0x1D6, 0x10008, true) := by
      decide
theorem test_smc_in_user_mode : look (exec (.smc .al 0) (start 0x10))
      (fun t => (t.regs.lr.und, t.cpsr.toWord, t.pc)) =
    some (0x8004, 0x9B, 4) := by decide
theorem test_bkpt : look (exec (.bkpt 0) (start 0x10)) (fun t => (t.regs.lr.abt, t.spsr.abt, t.cpsr.toWord, t.pc)) =
    some (0x8004, 0x10, 0x197, 0xC) := by decide
theorem test_bkptThumb : look (exec (.bkptThumb 0) { start 0x30 with pc := 0x9002 }) (fun t =>
    (t.regs.lr.abt, t.spsr.abt, t.cpsr.toWord, t.pc)) = some (0x9006, 0x30, 0x197, 0xC) := by decide
theorem test_udf : look (exec (.udf 0) (start 0x10)) (fun t => (t.regs.lr.und, t.spsr.und, t.cpsr.toWord, t.pc)) =
    some (0x8004, 0x10, 0x9B, 4) := by decide
theorem test_udfThumb : look (exec (.udfThumb 0) (start 0x30)) (fun t =>
    (t.regs.lr.und, t.spsr.und, t.cpsr.toWord, t.pc)) = some (0x8002, 0x30, 0x9B, 4) := by decide

/-- In Supervisor mode with R14 = 0x8004 and a User mode SPSR. -/
def returnState : State :=
  let s := (start 0x93).setReg 14 0x8004
  { s with spsr := { s.spsr with svc := 0x10 } }

theorem test_movsPcLr : look (exec (.movsPcLr .al) returnState) (fun t => (t.pc, t.cpsr.toWord)) =
    some (0x8004, 0x10) := by decide

/-- In IRQ mode, returning to Thumb code (R152's worked example). -/
def returnThumbState : State :=
  let s := (start 0x92).setReg 14 0x9006
  { s with spsr := { s.spsr with irq := 0x30 } }

theorem test_subsPcLr4 : look (exec (.subsPcLr4 .al) returnThumbState) (fun t => (t.pc, t.cpsr.toWord)) =
    some (0x9002, 0x30) := by decide
theorem test_subsPcLr8 : look (exec (.subsPcLr8 .al) ((start 0x97).setReg 14 0x8008 |> fun s =>
    { s with spsr := { s.spsr with abt := 0x10 } }))
      (fun t => (t.pc, t.cpsr.toWord)) = some (0x8000, 0x10) := by decide
theorem test_mrs : look (exec (.mrs .al false 3) (start 0x1D1)) (fun t => (t.reg 3, t.pc)) =
    some (0x1D1, 0x8004) := by decide
theorem test_msr : look (exec (.msr .al false 0b0001 3) ((start 0x1D1).setReg 3 0xFFFF01DB))
      (fun t => t.cpsr.toWord) =
    some 0x1DB := by decide
theorem test_msr_in_user_mode : look (exec (.msr .al false 0b1111 3) ((start 0x10).setReg 3 0xFFFFFFFF)) (fun t =>
    t.cpsr.toWord) = some 0xF80F0210 := by decide
theorem test_mov : look (exec (.mov .al 0 14) ((start 0x13).setReg 14 0x8004))
      (fun t => t.reg 0) = some 0x8004 := by decide
theorem test_mov_from_pc : look (exec (.mov .al 0 15) (start 0x13)) (fun t => t.reg 0) = some 0x8008 := by decide
theorem test_add : look (exec (.add .al 2 13 0 8) ((start 0x13).setReg 13 0x2000)) (fun t => t.reg 2) =
    some 0x2008 := by decide
theorem test_add_rotated_wraps : look (exec (.add .al 2 2 1 3) ((start 0x13).setReg 2 0x40000001))
      (fun t => t.reg 2) =
    some 1 := by decide
theorem test_sub : look (exec (.sub .al 14 14 0 4) ((start 0x13).setReg 14 0x8004)) (fun t => t.reg 14) =
    some 0x8000 := by decide
theorem test_sub_wraps : look (exec (.sub .al 1 1 0 4) (start 0x13)) (fun t => t.reg 1) = some 0xFFFFFFFC := by decide
theorem test_orr : look (exec (.orr .al 3 3 0 0x1B) ((start 0x13).setReg 3 0x1C0)) (fun t => t.reg 3) =
    some 0x1DB := by decide
theorem test_bic : look (exec (.bic .al 3 3 0 0x1F) ((start 0x13).setReg 3 0x1D1)) (fun t => t.reg 3) =
    some 0x1C0 := by decide
theorem test_ldr : look (exec (.ldr .al true 14 13 12) (put 0x3FFC 0x10 ((start 0x13).setReg 13 0x3FF0))) (fun t =>
    t.reg 14) = some 0x10 := by decide
theorem test_ldr_big_endian : look (exec (.ldr .al false 0 13 4) (put 0x3FFC 0x11223344 ((start 0x213).setReg 13
      0x4000)))
    (fun t => t.reg 0) = some 0x44332211 := by decide
theorem test_str : look (exec (.str .al true 0 14 4) (((start 0x13).setReg 14 0x100).setReg 0 0xAAAAAAAA)) (fun t =>
    (memWord t.mem false 0x104, memWord t.mem false 0x100, memWord t.mem false 0x108)) =
      some (0xAAAAAAAA, 0, 0) := by decide

/-- A stack holding 0x22222222 and 0x33333333 at 0x3FF0 (R190's worked example). -/
def ldmState : State := put 0x3FF4 0x33333333 (put 0x3FF0 0x22222222 ((start 0x13).setReg 13 0x3FF0))

theorem test_ldm : look (exec (.ldm .al .ia true 13 0xC) ldmState) (fun t => (t.reg 2, t.reg 3, t.reg 13)) =
    some (0x22222222, 0x33333333, 0x3FF8) := by decide

/-- R2 and R3 to be stored below 0x3FF8 (R191's worked example). -/
def stmState : State := (((start 0x13).setReg 13 0x3FF8).setReg 2 0x22222222).setReg 3 0x33333333

theorem test_stm : look (exec (.stm .al .db true 13 0xC) stmState) (fun t =>
    (memWord t.mem false 0x3FF0, memWord t.mem false 0x3FF4, t.reg 13)) =
      some (0x22222222, 0x33333333, 0x3FF0) := by decide

/-- Refused forms of spec/95_test_vectors.md: SRS naming User mode, STR of R15. -/
theorem test_vectors_refused :
    decodeArm 0xF96D0510 = .instr (.srs .db true 0x10) ∧
    exec (.srs .db true 0x10) srsState = .refused .srsUserBank ∧
    decodeArm 0xE58EF004 = .instr (.str .al true 15 14 4) ∧
    exec (.str .al true 15 14 4) (start 0x13) = .refused .storesPc := ⟨by decide, rfl, by decide, rfl⟩

/-- The first step after reset runs the instruction put where it fetches. -/
theorem test_step_from_reset :
    look (step (State.reset.withFetchWord 32 0xE3A00000)) (fun t => t.pc) = none ∧
    look (step (State.reset.withFetchWord 32 0xE28D2008)) (fun t => (t.reg 2, t.pc)) = some (8, 4) ∧
    look (step (State.reset.withFetchWord 16 0xDF05)) (fun t => (t.regs.lr.svc, t.pc, t.cpsr.t)) =
      some (2, 8, false) := by decide


/-! ## Witnesses: for every statement with hypotheses, a state and operands that meet them, each clause at its
      boundary -/

theorem witness_DecodedBytesAreTheEncoding :
    decode false [0x12, 0, 0, 0xEF] = .instr (.svc .al 0x12) ∧
    decode true [0x72, 0xB6] = .instr (.cpsThumb true false true false) := by decide

/-- A label above, at `pc + 8` exactly, and just below it. -/
theorem witness_AdrExpansionWritesTheLabel :
    expandAdr .al 14 (start 0x13).pc 0x80D0 = some (.add .al 14 15 0 0xC8) ∧
    expandAdr .al 14 (start 0x13).pc 0x8008 = some (.add .al 14 15 0 0) ∧
    expandAdr .al 14 (start 0x13).pc 0x8004 = some (.sub .al 14 15 0 4) ∧ (14 : RegNum) ≠ 15 ∧
    condHolds .al (start 0x13).cpsr = true ∧ (start 0x13).canAdvance 4 := by
  simp only [State.canAdvance]; decide

theorem witness_ConditionField :
    condOf (.svc .eq 0) = some .eq ∧ condHolds .eq (start 0x13).cpsr = false ∧ (start 0x13).canAdvance 4 ∧
    decodeArm 0xDF000000 = .instr (.svc .le 0) ∧ condOf (.svc .le 0) = some .le ∧
    decodeArm 0xF8BD0A00 = .instr (.rfe .ia true 13) := by
  simp only [State.canAdvance]; decide

/-- The numbers where the cases of R23 meet. -/
theorem witness_RegisterSelection :
    (7 : RegNum).val < 8 ∧ 8 ≤ (8 : RegNum).val ∧ (12 : RegNum).val < 13 ∧ (14 : RegNum) ≠ 13 := by decide

/-- The SPSR holds a number between two modes' numbers. -/
theorem witness_ModeNumbers :
    (∀ m : Mode, m.toBits ≠ BitVec.extractLsb' 0 5 (0x14 : Word)) ∧
    ({ start 0x13 with spsr := ⟨0x14, 0, 0, 0, 0, 0⟩ } : State).curSpsr = some 0x14 := by
  refine ⟨fun m => ?_, rfl⟩
  cases m <;> decide

theorem witness_WorldAndPrivilege :
    (nonSecure (start 0x13)).world = .nonSecure := by decide

/-- R13 of IRQ mode, hidden from Supervisor mode. -/
theorem witness_HiddenBanksAreKept :
    (∀ am wb m, Instr.svc .al 0 ≠ .srs am wb m) ∧ exec (.svc .al 0) (start 0x10) = .next (after (exec (.svc .al 0)
      (start 0x10))) ∧
    ∀ n : RegNum, physReg (start 0x10).cpsr.mode n ≠ some (.sp .irq) := by
  refine ⟨fun _ _ _ => by simp, rfl, by decide⟩

/-- Each way to Secure Monitor mode, and an FIQ that stays out of it in either world. -/
theorem witness_EntrySavesAndForces :
    (∃ secure mon : Prop, (secure ↔ (start 0x10).scr.ns = false ∨ (start 0x10).cpsr.mode = .monitor) ∧
      (mon ↔ Exception.smc = .smc)) ∧
    ({ (start 0x10).scr with irq := true } : Scr).irq = true ∧
    ({ (start 0x10).scr with ea := true } : Scr).ea = true ∧
    (nonSecure (start 0x10)).scr.fw = false ∧ (nonSecure (start 0x10)).world = .nonSecure := ⟨⟨_, _, Iff.rfl,
      Iff.rfl⟩, by decide⟩

theorem witness_VectorTable :
    (Exception.undefined = .undefined ∧ (0x04 : Word) = 0x04) ∧
    ((Exception.svc = .svc ∨ Exception.svc = .smc) ∧ (0x08 : Word) = 0x08) ∧
    Exception.prefetchAbort .breakpoint = .prefetchAbort .breakpoint ∧
    Exception.dataAbort .externalPrecise = .dataAbort .externalPrecise ∧ Exception.irq = .irq ∧ Exception.fiq = .fiq ∧
    (takeException .smc 0 (start 0x10)).cpsr.mode = .monitor := by decide

theorem witness_EntryFromMonitorModeIsSecure :
    (nonSecure (start 0x16)).cpsr.mode = .monitor := by decide

theorem witness_ReturnUndoesEntry :
    (start 0x10).cpsr.j = false ∧ (Instr.subsPcLr8 .al = .subsPcLr8 .al ∧ (8 : Word) = 8) := by decide

theorem witness_SvcEntersSupervisorMode :
    condHolds .al (start 0x10).cpsr = true := by decide

theorem witness_SmcEntersMonitorMode :
    condHolds .al (start 0x13).cpsr = true ∧ (start 0x13).cpsr.mode ≠ .user := by decide

theorem witness_SmcAndSrsUndefinedCases :
    (condHolds .al (start 0x10).cpsr = true ∧ (start 0x10).cpsr.mode = .user) ∧
    (nonSecure (start 0x13)).world = .nonSecure ∧ (nonSecure (start 0x10)).world = .nonSecure := by decide

theorem witness_BkptEntersAbortMode :
    (start 0x10).params.haltingDebugMode = false ∧ (start 0x10).cpsr.j = false ∧
    ({ start 0x10 with params := { resetParams with haltingDebugMode := true } } : State).params.haltingDebugMode =
      true := by decide

theorem witness_ReturnInstructionsComplete :
    condHolds .al returnThumbState.cpsr = true ∧ returnThumbState.curSpsr = some 0x30 ∧
    (start 0x30).cpsr.toWord = 0x30 ∧ (start 0x30).cpsr.j = false ∧
    ((nonSecure returnThumbState).world = .nonSecure → (start 0x30).cpsr.mode ≠ .monitor) := by decide

theorem witness_NoSpsrIsRefused :
    (start 0x10).cpsr.mode = .user ∧ (start 0x1F).cpsr.mode = .system ∧ condHolds .al (start 0x1F).cpsr = true ∧
    (14 : RegNum) ≠ 15 ∧ Mode.ofBits? 0x17 ≠ none ∧ ¬((start 0x10).world = .nonSecure ∧
    (0x17 : BitVec 5) = 0b10110) := by decide

theorem witness_SrsStoresReturnState :
    Mode.abort ≠ .user ∧ Mode.abort ≠ .system ∧
    (0x3FF8 : Word) = lowestAddress .db (srsState.regs.sp.get Mode.abort.bank) 2 ∧ srsState.curSpsr = some 0x10 ∧
    ¬(srsState.world = .nonSecure ∧ Mode.abort = .monitor) ∧ srsState.undisturbed 2 ∧ Memory.wf srsState.mem = true ∧
    srsState.plainWord .write 0x3FF8 ∧ srsState.plainWord .write (0x3FF8 + 4) ∧ srsState.canAdvance 4 := by
  simp only [State.plainWord, State.undisturbed, State.canAdvance]; decide

theorem witness_RfeLoadsPcAndCpsr :
    (0x3FF8 : Word) = lowestAddress .ia (rfeState.reg 13) 2 ∧ rfeState.cpsr.mode ≠ .user ∧ (13 : RegNum) ≠ 15 ∧
    rfeState.undisturbed 2 ∧ rfeState.plainWord .read 0x3FF8 ∧ rfeState.plainWord .read (0x3FF8 + 4) ∧
    memWord rfeState.mem rfeState.cpsr.e (0x3FF8 + 4) = (start 0x10).cpsr.toWord ∧ (start 0x10).cpsr.j = false ∧
    (rfeState.world = .nonSecure → (start 0x10).cpsr.mode ≠ .monitor) := by
  simp only [State.plainWord, State.undisturbed]; decide

/-- The states between SRS, CPS and RFE of `witness_SrsCpsRfeReturns`. -/
def afterSrs : State := after (exec (.srs .db true Mode.abort.toBits) srsState)

/-- As `afterSrs`, one instruction on. -/
def afterCps : State := after (exec (.cps 0b10 true false false true Mode.abort.toBits) afterSrs)

theorem witness_SrsCpsRfeReturns :
    srsState.world = .secure ∧ srsState.cpsr.mode.privileged = true ∧ Mode.abort ≠ .user ∧
    srsState.curSpsr = some (start 0x10).cpsr.toWord ∧ (start 0x10).cpsr.j = false ∧ Memory.wf srsState.mem = true ∧
    srsState.undisturbed 2 ∧ afterCps.undisturbed 2 ∧ afterCps.world = .secure ∧
    srsState.plainWord .write (srsState.regs.sp.get Mode.abort.bank - 8) ∧
    srsState.plainWord .write (srsState.regs.sp.get Mode.abort.bank - 4) ∧
    afterCps.plainWord .read (srsState.regs.sp.get Mode.abort.bank - 8) ∧
    afterCps.plainWord .read (srsState.regs.sp.get Mode.abort.bank - 4) := by
  simp only [State.plainWord, State.undisturbed]; decide

theorem witness_SrsCpsRfeReturns_steps :
    exec (.srs .db true Mode.abort.toBits) srsState = .next afterSrs ∧
    exec (.cps 0b10 true false false true Mode.abort.toBits) afterSrs = .next afterCps := ⟨rfl, rfl⟩

theorem witness_CpsChangesMasksAndMode :
    cpsFieldsOk 0b10 true false false true 0x17 = true ∧ (start 0x1D1).cpsr.mode ≠ .user ∧
    (start 0x1D1).canAdvance 4 ∧
    Mode.abort.toBits = 0x17 ∧ ((start 0x1D1).world = .nonSecure → Mode.abort ≠ .monitor) ∧
    cpsFieldsOk 0b11 false true false false 0 = true := by
  simp only [State.canAdvance]; decide

theorem witness_ThumbCpsChangesMasks :
    (false = true ∨ true = true ∨ false = true) ∧ (start 0x33).cpsr.mode ≠ .user ∧ (start 0x33).canAdvance 2 := by
  simp only [State.canAdvance]; decide

theorem witness_CpsWithoutEffectOrRefused :
    cpsFieldsOk 0b11 false true false false 0 = true ∧ (start 0x10).cpsr.mode = .user ∧ (start 0x10).canAdvance 4 ∧
    (start 0x10).canAdvance 2 ∧ cpsFieldsOk 0b01 false false false false 0 = false ∧
    cpsFieldsOk 0b00 true false false false 0x14 = true ∧ Mode.ofBits? 0x14 = none ∧
    cpsFieldsOk 0b00 true false false false 0b10110 = true ∧ (nonSecure (start 0x13)).world = .nonSecure ∧
    (nonSecure (start 0x13)).cpsr.mode ≠ .user := by
  simp only [State.canAdvance]; decide

theorem witness_MrsReadsStatus :
    condHolds .al returnState.cpsr = true ∧ (3 : RegNum) ≠ 15 ∧
    (true = false → (0x10 : Word) = returnState.cpsr.toWord) ∧
    (true = true → returnState.curSpsr = some 0x10) ∧ returnState.canAdvance 4 ∧
    (false = false → (0x93 : Word) = returnState.cpsr.toWord) := by
  simp only [State.canAdvance]; decide

/-- In FIQ mode to Undefined mode, and in User mode the flags alone. -/
theorem witness_MsrWritesCpsr :
    let s := (start 0x1D1).setReg 3 0x1DB
    (0x1DB : Word) = (if (3 : RegNum) = 15 then s.pc + 8 else s.reg 3) ∧ (0xFF : Word) = byteMask 0b0001 ∧
    (0xDF : Word) = (0xFF &&& if s.cpsr.mode = .user then 0xF80F0200 else 0xF80F03DF) &&&
      (if s.world = .nonSecure ∧ s.scr.aw = false then ~~~0x00000100 else 0xFFFFFFFF) &&&
      (if s.world = .nonSecure ∧ s.scr.fw = false then ~~~0x00000040 else 0xFFFFFFFF) ∧
    condHolds .al s.cpsr = true ∧ (s.cpsr.mode ≠ .user → 0x1DB &&& 0xFF &&& (0x01000020 : Word) = 0) ∧
    ¬(s.world = .nonSecure ∧ (0xDF : Word) &&& 0x1F ≠ 0 ∧ BitVec.extractLsb' 0 5 (0x1DB : Word) = 0b10110) ∧
    (start 0x1DB).cpsr.toWord = (s.cpsr.toWord &&& ~~~(0xDF : Word)) ||| (0x1DB &&& 0xDF) ∧ s.canAdvance 4 := by
  simp only [State.canAdvance]; decide

theorem witness_MsrWritesCpsr_user :
    let s := nonSecure ((start 0x10).setReg 3 0xF00001C0)
    (0xF00001C0 : Word) = (if (3 : RegNum) = 15 then s.pc + 8 else s.reg 3) ∧ (0xFFFFFFFF : Word) = byteMask 0b1111 ∧
    (0xF80F0200 : Word) = (0xFFFFFFFF &&& if s.cpsr.mode = .user then 0xF80F0200 else 0xF80F03DF) &&&
      (if s.world = .nonSecure ∧ s.scr.aw = false then ~~~0x00000100 else 0xFFFFFFFF) &&&
      (if s.world = .nonSecure ∧ s.scr.fw = false then ~~~0x00000040 else 0xFFFFFFFF) ∧
    condHolds .al s.cpsr = true ∧ (s.cpsr.mode ≠ .user → 0xF00001C0 &&& 0xFFFFFFFF &&& (0x01000020 : Word) = 0) ∧
    ¬(s.world = .nonSecure ∧ (0xF80F0200 : Word) &&& 0x1F ≠ 0 ∧
      BitVec.extractLsb' 0 5 (0xF00001C0 : Word) = 0b10110) ∧
    (start 0xF0000010).cpsr.toWord = (s.cpsr.toWord &&& ~~~(0xF80F0200 : Word)) ||| (0xF00001C0 &&& 0xF80F0200) ∧
    s.canAdvance 4 := by
  simp only [State.canAdvance]; decide

theorem witness_MsrWritesSpsr :
    let s := returnState.setReg 3 0x30
    (0x30 : Word) = (if (3 : RegNum) = 15 then s.pc + 8 else s.reg 3) ∧ (0xFF : Word) = byteMask 0b0001 ∧
    condHolds .al s.cpsr = true ∧ s.curSpsr = some 0x10 ∧ s.canAdvance 4 := by
  simp only [State.canAdvance]; decide

/-- One for each of the five forms; R15 as operand too. -/
theorem witness_DataProcessingResults :
    (0x8008 : Word) = (if (15 : RegNum) = 15 then (start 0x13).pc + 8 else (start 0x13).reg 15) ∧
    (0xC0000000 : Word) = BitVec.rotateRight (BitVec.setWidth 32 (3 : BitVec 8)) (2 * (1 : BitVec 4).toNat) ∧
    (0xC0008008 : Word).toNat = ((0x8008 : Word).toNat + (0xC0000000 : Word).toNat) % 2 ^ 32 ∧
    (0x40008008 : Word).toNat = ((0x8008 : Word).toNat + 2 ^ 32 - (0xC0000000 : Word).toNat) % 2 ^ 32 ∧
    condHolds .al (start 0x13).cpsr = true ∧ (0 : RegNum) ≠ 15 ∧ (start 0x13).canAdvance 4 := by
  simp only [State.canAdvance]; decide

theorem witness_DataProcessingResults_bits :
    ∀ k, (0xC0008008 : Word).getLsbD k = ((0x8008 : Word).getLsbD k || (0xC0000000 : Word).getLsbD k) ∧
    (0x8008 : Word).getLsbD k = ((0x8008 : Word).getLsbD k && !(0xC0000000 : Word).getLsbD k) := by
  intro k
  by_cases h : k < 32
  · revert k; decide
  · simp [BitVec.getLsbD_of_ge _ _ (Nat.le_of_not_lt h)]

theorem witness_LdrLoadsWord :
    (0x3FF0 : Word) = (if (13 : RegNum) = 15 then ldmState.pc + 8 else ldmState.reg 13) ∧
    (0x3FF4 : Word) = (if true then (0x3FF0 : Word) + BitVec.setWidth 32 (4 : BitVec 12) else 0x3FF0 -
      BitVec.setWidth 32 (4 : BitVec 12)) ∧
    condHolds .al ldmState.cpsr = true ∧ (0 : RegNum) ≠ 15 ∧ ldmState.plainWord .read 0x3FF4 ∧
    ldmState.canAdvance 4 := by
  simp only [State.plainWord, State.canAdvance]; decide

/-- Words that end in 0b00, 0b01, 0b11, and in 0b10. -/
theorem witness_LdrToPcBranches :
    offsetAddress true (operand 13 ldmState) 0 = 0x3FF0 ∧ offsetAddress true (operand 13 ldmState) 4 = 0x3FF4 ∧
    memWord ldmState.mem ldmState.cpsr.e 0x3FF0 = 0x22222222 ∧
    memWord ldmState.mem ldmState.cpsr.e 0x3FF4 = 0x33333333 ∧
    BitVec.extractLsb' 0 2 (0x22222222 : Word) = 0b10 ∧ BitVec.extractLsb' 0 2 (0x33333333 : Word) ≠ 0b10 ∧
    condHolds .al ldmState.cpsr = true ∧ ldmState.plainWord .read 0x3FF0 ∧ ldmState.plainWord .read 0x3FF4 := by
  simp only [State.plainWord]; decide

theorem witness_StrStoresWord :
    (0x3FF8 : Word) = (if (13 : RegNum) = 15 then stmState.pc + 8 else stmState.reg 13) ∧
    (0x3FF4 : Word) = (if false then (0x3FF8 : Word) + BitVec.setWidth 32 (4 : BitVec 12) else 0x3FF8 -
      BitVec.setWidth 32 (4 : BitVec 12)) ∧
    condHolds .al stmState.cpsr = true ∧ stmState.plainWord .write 0x3FF4 ∧ Memory.wf stmState.mem = true ∧
    stmState.canAdvance 4 ∧ (2 : RegNum) ≠ 15 := by
  simp only [State.plainWord, State.canAdvance]; decide

theorem witness_LoadSeesTheStore :
    (13 : RegNum) ≠ 15 ∧ (2 : RegNum) ≠ 15 ∧ (0 : RegNum) ≠ 15 ∧
    stmState.plainWord .write (offsetAddress false (stmState.reg 13) 4) ∧
    stmState.plainWord .read (offsetAddress false (stmState.reg 13) 4) ∧ Memory.wf stmState.mem = true ∧
    stmState.canAdvance 8 := by
  simp only [State.plainWord, State.canAdvance]; decide

theorem witness_LdmLoadsRegisters :
    (0x3FF0 : Word) = lowestAddress .ia (ldmState.reg 13) (listedRegs 0xC).length ∧
    condHolds .al ldmState.cpsr = true ∧
    (Instr.ldm .al .ia true 13 0xC).wellFormed = true ∧ ldmState.undisturbed (listedRegs 0xC).length ∧
    (∀ k < (listedRegs 0xC).length, ldmState.plainWord .read (wordAt 0x3FF0 k)) ∧ ldmState.canAdvance 4 := by
  simp only [State.plainWord, State.undisturbed, State.canAdvance]; decide

theorem witness_StmStoresRegisters :
    (0x3FF0 : Word) = lowestAddress .db (stmState.reg 13) (listedRegs 0xC).length ∧
    condHolds .al stmState.cpsr = true ∧
    (Instr.stm .al .db true 13 0xC).wellFormed = true ∧ stmState.undisturbed (listedRegs 0xC).length ∧
    (∀ k < (listedRegs 0xC).length, stmState.plainWord .write (wordAt 0x3FF0 k)) ∧ Memory.wf stmState.mem = true ∧
    stmState.canAdvance 4 := by
  simp only [State.plainWord, State.undisturbed, State.canAdvance]; decide

/-- The last word of memory, the ill-formed lists, both kinds of mode, SRS to a mode of no SPSR and to no mode. -/
theorem witness_UnpredictableFormsStop :
    condHolds .al (start 0x13).cpsr = true ∧ ¬({ start 0x13 with pc := 0xFFFFFFFC } : State).canAdvance 4 ∧
    (0 : RegNum) ≠ 15 ∧ condOf (.svc .eq 0) = some .eq ∧ condHolds .eq (start 0x13).cpsr = false ∧
    (Instr.ldm .al .ia true 0 1).wellFormed = false ∧ (Instr.stm .al .ia true 1 3).wellFormed = false ∧
    (Instr.stm .al .ia true 15 3).wellFormed = false ∧ (start 0x10).cpsr.mode = .user ∧
    (start 0x13).cpsr.mode ≠ .user ∧ srsState.curSpsr ≠ none := by
  simp only [State.canAdvance]; decide

/-- `s` at the last word of the address space. -/
def atTop (s : State) : State := { s with pc := 0xFFFFFFFC }

/-- MRS, MSR, LDR, STR, LDM, STM, SRS and CPS at the last word, Thumb CPS at the last halfword. -/
theorem witness_UnpredictableFormsStop_top :
    ¬(atTop ldmState).canAdvance 4 ∧ ¬({ start 0x33 with pc := 0xFFFFFFFE } : State).canAdvance 2 ∧
    (atTop (start 0x13)).curSpsr ≠ none ∧ offsetAddress true (operand 13 (atTop ldmState)) 4 = 0x3FF4 ∧
    (atTop ldmState).wordCompletes .read 0x3FF4 ∧ (atTop ldmState).wordCompletes .write 0x3FF4 ∧
    (Instr.ldm .al .ia true 13 0xC).wellFormed = true ∧ (atTop ldmState).undisturbed 2 ∧
    (∀ k < 2, (atTop ldmState).wordCompletes .read (wordAt 0x3FF0 k)) ∧
    (Instr.stm .al .db true 13 0xC).wellFormed = true ∧ (atTop stmState).undisturbed 2 ∧
    (∀ k < 2, (atTop stmState).wordCompletes .write (wordAt 0x3FF0 k)) ∧
    (atTop srsState).undisturbed 2 ∧ (atTop srsState).curSpsr ≠ none ∧
    (atTop srsState).wordCompletes .write 0x3FF8 ∧ (atTop srsState).wordCompletes .write (0x3FF8 + 4) ∧
    cpsFieldsOk 0b10 true false false true 0x17 = true ∧ Mode.abort.toBits = 0x17 ∧
    (0x13 : Word) &&& byteMask 0b0001 &&& 0x01000020 = 0 ∧
    Mode.supervisor.toBits = BitVec.extractLsb' 0 5 (0x13 : Word) := by
  simp only [State.undisturbed, State.canAdvance, State.wordCompletes]; decide

/-- Numbers below, between and above the modes' numbers are no mode. -/
theorem witness_UnpredictableFormsStop_noMode :
    ∀ b ∈ [(0x00 : BitVec 5), 0x0F, 0x14, 0x1E], ∀ m : Mode, m.toBits ≠ b := by
  intro b hb m
  cases m <;> revert b <;> decide

/-- MSR of T, of a number that is no mode, and of Secure Monitor mode from the Non-secure world. -/
theorem witness_UnpredictableFormsStop_msr :
    (0x33 : Word) = (if (3 : RegNum) = 15 then (start 0x13).pc + 8 else ((start 0x13).setReg 3 0x33).reg 3) ∧
    (0xFF : Word) = byteMask 0b0001 ∧ (0x33 : Word) &&& 0xFF &&& 0x01000020 ≠ 0 ∧
    (0x14 : Word) &&& 0xFF &&& 0x01000020 = 0 ∧ (0b0001 : BitVec 4).getLsbD 0 = true ∧
    BitVec.extractLsb' 0 5 (0x14 : Word) = 0x14 ∧ BitVec.extractLsb' 0 5 (0x16 : Word) = 0b10110 ∧
    (nonSecure (start 0x13)).world = .nonSecure := by decide

/-- Returns and RFE of a word with J set, of one with no mode, and of Secure Monitor mode from the Non-secure world. -/
theorem witness_UnpredictableFormsStop_returns :
    let j : Psr := { (start 0x10).cpsr with j := true }
    let s : State := { nonSecure rfeState with mem := memSetWord rfeState.mem false 0x3FFC 0x16 }
    j.toWord = 0x01000010 ∧ j.j = true ∧ ({ returnState with spsr := ⟨0x01000010, 0, 0, 0, 0, 0⟩ } : State).curSpsr =
      some 0x01000010 ∧
    (start 0x16).cpsr.toWord = 0x16 ∧ (start 0x16).cpsr.j = false ∧ (start 0x16).cpsr.mode = .monitor ∧
    s.world = .nonSecure ∧ s.cpsr.mode ≠ .user ∧ (13 : RegNum) ≠ 15 ∧ s.undisturbed 2 ∧
    (0x3FF8 : Word) = lowestAddress .ia (s.reg 13) 2 ∧ s.plainWord .read 0x3FF8 ∧ s.plainWord .read (0x3FF8 + 4) ∧
    (0x16 : Word) = memWord s.mem s.cpsr.e (0x3FF8 + 4) := by
  simp only [State.plainWord, State.undisturbed]; decide

/-- A map in which the word at `a` aborts for `cause`. -/
def aborting (a : Nat) (cause : AbortCause) (s : State) : State :=
  { s with map := { s.map with aborts := [⟨⟨a, a + 3⟩, true, true, true, true, true, true, true, cause⟩] } }

/-- Each cause; an external error that is precise (FI, the PC as destination) and one that is not. -/
theorem witness_AbortClassification :
    (aborting 0x3FF4 (.mmu .domain) ldmState).abortCause .read 0x3FF4 4 = some (.mmu .domain) ∧
    (aborting 0x3FF4 .tableWalk ldmState).abortCause .read 0x3FF4 4 = some .tableWalk ∧
    (aborting 0x3FF4 .axiError ldmState).abortCause .read 0x3FF4 4 = some .axiError ∧
    ({ ldmState with fi := true } : State).fi = true ∧
    ¬((AccessType.read = .read ∧ (ldmState.fi = true ∨ false = true)) ∨ ldmState.stronglyOrderedAt 0x3FF4 4 = true) ∧
    (aborting 0x3FF4 .axiError ldmState).abortCause .read 0x3FF0 4 = none ∧
    (aborting 0x3FF4 .axiError ldmState).abortCause .read 0x3FF8 4 = none := by decide

/-- An aborting aligned word, a misaligned address with strict alignment and without. -/
theorem witness_LdrStrTakeDataAbort :
    offsetAddress true (operand 13 ldmState) 4 = 0x3FF4 ∧ condHolds .al ldmState.cpsr = true ∧
    (aborting 0x3FF4 (.mmu .domain) ldmState).wordAborts .read (AccessType.read = .read ∧ (0 : RegNum) = 15) 0x3FF4
      (.mmu .domain) ∧
    (2 : RegNum) ≠ 15 ∧
    (aborting 0x3FF4 .tableWalk ldmState).wordAborts .write (AccessType.write = .read ∧ (2 : RegNum) = 15) 0x3FF4
      .externalPrecise ∧
    offsetAddress true (operand 13 ldmState) 3 = 0x3FF3 ∧ wordAligned 0x3FF3 = false ∧
    ldmState.wordAborts .read (AccessType.read = .read ∧ (0 : RegNum) = 15) 0x3FF3 (.mmu .alignment) ∧
    ({ ldmState with params := { resetParams with strictAlignment := false } } : State).params.strictAlignment =
      false := by
  simp only [State.wordAborts]; decide

theorem witness_StmAbortKeepsPrefixAndBase :
    (0x3FF0 : Word) = lowestAddress .db ((aborting 0x3FF4 .tableWalk stmState).reg 13) (listedRegs 0xC).length ∧
    condHolds .al stmState.cpsr = true ∧ (Instr.stm .al .db true 13 0xC).wellFormed = true ∧
    (aborting 0x3FF4 .tableWalk stmState).undisturbed (listedRegs 0xC).length ∧ 1 < (listedRegs 0xC).length ∧
    (∀ j < 1, (aborting 0x3FF4 .tableWalk stmState).plainWord .write (wordAt 0x3FF0 j)) ∧
    wordAligned (wordAt 0x3FF0 1) = true ∧
    (aborting 0x3FF4 .tableWalk stmState).dataAbort .write false (wordAt 0x3FF0 1) = some .externalPrecise ∧
    Memory.wf stmState.mem = true := by
  simp only [State.plainWord, State.undisturbed]; decide

/-- The parameter `strict_alignment` set to `strict`, for a misaligned access. -/
def alignment (strict : Bool) (s : State) : State := { s with params := { s.params with strictAlignment := strict } }

/-- A base of 0x3FFA: STM and LDM of R2 and R3, SRS and RFE have a misaligned first word at 0x3FF2, with
`strict_alignment` and without. -/
theorem witness_AbortsKeepBase_misaligned :
    let stm (b : Bool) := alignment b (stmState.setReg 13 0x3FFA)
    let ldm (b : Bool) := alignment b (ldmState.setReg 13 0x3FFA)
    let srs (b : Bool) := alignment b { srsState with regs := srsState.regs.set (.sp .abt) 0x3FFA }
    let rfe (b : Bool) := alignment b (rfeState.setReg 13 0x3FFA)
    lowestAddress .db ((stm true).reg 13) (listedRegs 0xC).length = 0x3FF2 ∧
    lowestAddress .db ((ldm true).reg 13) (listedRegs 0xC).length = 0x3FF2 ∧
    lowestAddress .db ((srs true).regs.sp.get Mode.abort.bank) 2 = 0x3FF2 ∧
    lowestAddress .db ((rfe true).reg 13) 2 = 0x3FF2 ∧
    (stm true).undisturbed 2 ∧ (ldm true).undisturbed 2 ∧ (srs true).undisturbed 2 ∧ (rfe true).undisturbed 2 ∧
    wordAligned (wordAt 0x3FF2 0) = false ∧
    (stm true).wordAborts .write false (wordAt 0x3FF2 0) (.mmu .alignment) ∧
    (ldm true).wordAborts .read ((0xC : BitVec 16) = 0) (wordAt 0x3FF2 0) (.mmu .alignment) ∧
    (srs true).wordAborts .write false (wordAt 0x3FF2 0) (.mmu .alignment) ∧
    (rfe true).wordAborts .read ((0 : BitVec 16) = 0) (wordAt 0x3FF2 0) (.mmu .alignment) ∧
    (stm false).params.strictAlignment = false ∧ (ldm false).params.strictAlignment = false ∧
    (srs false).params.strictAlignment = false ∧ (rfe false).params.strictAlignment = false ∧
    (srs true).curSpsr = some 0x10 ∧ (rfe true).cpsr.mode ≠ .user ∧ Memory.wf (stm true).mem = true := by
  simp only [State.undisturbed, State.wordAborts]; decide

/-- The first word aborts, and the second. -/
theorem witness_SrsAbortKeepsFirstWordAndBase :
    ∀ k ∈ [0, 1],
      let s := aborting (0x3FF8 + 4 * k) (.mmu .permission) srsState
      Mode.abort ≠ .user ∧ Mode.abort ≠ .system ∧ ¬(s.world = .nonSecure ∧ Mode.abort = .monitor) ∧
      (0x3FF8 : Word) = lowestAddress .db (s.regs.sp.get Mode.abort.bank) 2 ∧ s.curSpsr = some 0x10 ∧
      s.undisturbed 2 ∧ Memory.wf s.mem = true ∧ k < 2 ∧ (∀ j < k, s.plainWord .write (wordAt 0x3FF8 j)) ∧
      wordAligned (wordAt 0x3FF8 k) = true ∧
      s.dataAbort .write false (wordAt 0x3FF8 k) = some (.mmu .permission) := by
  simp only [State.plainWord, State.undisturbed]; decide

/-- LDM at its second word, RFE at its first. -/
theorem witness_LoadAbortKeepsBase :
    (0x3FF0 : Word) = lowestAddress .ia ((aborting 0x3FF4 .tableWalk ldmState).reg 13) 2 ∧
    2 = (listedRegs 0xC).length ∧
    condHolds .al ldmState.cpsr = true ∧ (Instr.ldm .al .ia true 13 0xC).wellFormed = true ∧
    (aborting 0x3FF4 .tableWalk ldmState).undisturbed 2 ∧ 1 < 2 ∧
    (∀ j < 1, (aborting 0x3FF4 .tableWalk ldmState).plainWord .read (wordAt 0x3FF0 j)) ∧
    wordAligned (wordAt 0x3FF0 1) = true ∧
    (aborting 0x3FF4 .tableWalk ldmState).dataAbort .read ((0xC : BitVec 16) = 0) (wordAt 0x3FF0 1) =
      some .externalPrecise := by
  simp only [State.plainWord, State.undisturbed]; decide

theorem witness_LoadAbortKeepsBase_rfe :
    (0x3FF8 : Word) = lowestAddress .ia ((aborting 0x3FF8 .axiError rfeState).reg 13) 2 ∧ rfeState.cpsr.mode ≠ .user ∧
    (13 : RegNum) ≠ 15 ∧ (aborting 0x3FF8 .axiError rfeState).undisturbed 2 ∧ 0 < 2 ∧
    (∀ j < 0, (aborting 0x3FF8 .axiError rfeState).plainWord .read (wordAt 0x3FF8 j)) ∧
    wordAligned (wordAt 0x3FF8 0) = true ∧
    (aborting 0x3FF8 .axiError rfeState).dataAbort .read ((0 : BitVec 16) = 0) (wordAt 0x3FF8 0) = some
      .externalPrecise := by
  simp only [State.plainWord, State.undisturbed]; decide

/-- The STM of `stmState` with an FIQ and an IRQ arriving together after `k` of its words. -/
def midStm (k : Nat) : State :=
  { stmState with fi := true, signals := { stmState.signals with midEvent := some ⟨false, .low, .low, k⟩ } }

/-- The interrupt arrives before the first word, and after the last. -/
theorem witness_InterruptedStmIsRestartable :
    ∀ k ∈ [0, 1, 2], (0x3FF0 : Word) = lowestAddress .db ((midStm k).reg 13) (listedRegs 0xC).length ∧
    condHolds .al (midStm k).cpsr = true ∧ (Instr.stm .al .db true 13 0xC).wellFormed = true ∧ (midStm k).fi = true ∧
    (midStm k).params.lowLatencyInterruptible = true ∧
    (midStm k).signals.midEvent = some ⟨false, .low, .low, k⟩ ∧ (midStm k).cpsr.f = false ∧
    k ≤ (listedRegs 0xC).length ∧ (∀ j < k, (midStm k).plainWord .write (wordAt 0x3FF0 j)) ∧
    Memory.wf (midStm k).mem = true ∧ (midStm k).cpsr.j = false := by
  simp only [State.plainWord]; decide

/-- `s` with FI set, IRQ and FIQ unmasked, and an IRQ arriving after `k` accesses. -/
def midIrq (k : Nat) (s : State) : State :=
  { s with
    fi := true, cpsr := { s.cpsr with i := false, f := false }
    signals := { s.signals with midEvent := some ⟨false, .high, .low, k⟩ } }

/-- LDM, SRS and RFE, before the first word and after the last. -/
theorem witness_InterruptedStmIsRestartable_forms :
    ∀ k ∈ [0, 2],
      ((0x3FF0 : Word) = lowestAddress .ia ((midIrq k ldmState).reg 13) (listedRegs 0xC).length ∧
        (Instr.ldm .al .ia true 13 0xC).wellFormed = true ∧ (midIrq k ldmState).cpsr.i = false ∧
        k ≤ (listedRegs 0xC).length ∧ (∀ j < k, (midIrq k ldmState).plainWord .read (wordAt 0x3FF0 j)) ∧
        Memory.wf (midIrq k ldmState).mem = true) ∧
      (Mode.abort ≠ .user ∧ Mode.abort ≠ .system ∧ (midIrq k srsState).world = .secure ∧
        (0x3FF8 : Word) = lowestAddress .db ((midIrq k srsState).regs.sp.get Mode.abort.bank) 2 ∧
        (midIrq k srsState).curSpsr = some 0x10 ∧ (midIrq k srsState).cpsr.i = false ∧
        (∀ j < k, (midIrq k srsState).plainWord .write (wordAt 0x3FF8 j)) ∧
        Memory.wf (midIrq k srsState).mem = true) ∧
      ((midIrq k rfeState).cpsr.mode ≠ .user ∧ (13 : RegNum) ≠ 15 ∧
        (0x3FF8 : Word) = lowestAddress .ia ((midIrq k rfeState).reg 13) 2 ∧ (midIrq k rfeState).cpsr.i = false ∧
        (∀ j < k, (midIrq k rfeState).plainWord .read (wordAt 0x3FF8 j)) ∧ Memory.wf (midIrq k rfeState).mem = true) := by
  simp only [State.plainWord]; decide

/-- The FIQ goes before the IRQ that arrives with it, which stays requested (R237). -/
theorem test_mid_priority :
    let s : State := { midStm 1 with cpsr := { stmState.cpsr with i := false, f := false } }
    look (exec (.stm .al .db true 13 0xC) s) (fun t => (t.cpsr.mode, t.signals.irqReg, t.regs.lr.fiq)) =
      some (.fiq, .low, 0x8004) := by decide

/-- With FI clear, or both requests masked, nothing stops the instruction. -/
theorem witness_InterruptedStmIsRestartable_undisturbed :
    ({ midStm 1 with fi := false } : State).signals.midEvent = some ⟨false, .low, .low, 1⟩ ∧
    (let p : Psr := { stmState.cpsr with i := true, f := true }
     ({ midStm 1 with cpsr := p } : State).cpsr.f = true ∧ ({ midStm 1 with cpsr := p } : State).cpsr.i = true) := by
  decide

/-- Reset inside STM, an FIQ and an IRQ with it, with FI clear, before the first word and after the last. -/
theorem witness_InterruptedStmIsRestartable_reset :
    ∀ k ∈ [0, 2],
      let s : State := { stmState with signals := { stmState.signals with midEvent := some ⟨true, .low, .low, k⟩ } }
      s.fi = false ∧ (0x3FF0 : Word) = lowestAddress .db (s.reg 13) (listedRegs 0xC).length ∧
      condHolds .al s.cpsr = true ∧ k ≤ (listedRegs 0xC).length ∧
      (∀ j < k, s.plainWord .write (wordAt 0x3FF0 j)) ∧ Memory.wf s.mem = true ∧
      look (exec (.stm .al .db true 13 0xC) s) (fun t => (t.inReset, t.reg 13)) = some (true, 0x3FF8) := by
  simp only [State.plainWord]; decide

/-- A device at 0x3FF4 whose next answer is 7. -/
def deviceState : State :=
  { stmState with map := { stmState.map with devices := [⟨0x3FF4, 0x3FF7⟩] }, deviceAnswers := [7] }

theorem witness_DeviceAccessesReachTheBus :
    (0x3FF4 : Word) = offsetAddress false (operand 13 deviceState) 4 ∧ condHolds .al deviceState.cpsr = true ∧
    (2 : RegNum) ≠ 15 ∧ wordAligned 0x3FF4 = true ∧ deviceState.deviceAt 0x3FF4 4 = true ∧ deviceState.canAdvance 4 ∧
    deviceState.abortCause .read 0x3FF4 4 = none ∧ deviceState.abortCause .write 0x3FF4 4 = none ∧
    deviceState.deviceAnswers = 7 :: [] ∧ BitVec.extractLsb' 0 2 (7 : Word) ≠ 0b10 ∧
    BitVec.extractLsb' 0 2 (6 : Word) = 0b10 := by
  simp only [State.canAdvance]; decide

/-- `s` with a device at the word `a` and two answers. -/
def withDevice (a : Nat) (s : State) : State :=
  { s with map := { s.map with devices := [⟨a, a + 3⟩] }, deviceAnswers := [0x1F, 5] }

/-- What the statement asks of two loads at `low`, which read `vals`, the second at a device. -/
abbrev loadsAnswered (low : Word) (vals : List Word) (s : State) : Prop :=
  let acc := ((List.range 2).map (wordAt low)).zip vals
  low = lowestAddress .ia (s.reg 13) 2 ∧ s.cut 2 = none ∧
    (∀ p ∈ acc, wordAligned p.1 = true ∧ s.abortCause .read p.1 4 = none ∧
      (s.deviceAt p.1 4 = false → p.2 = memWord s.mem s.cpsr.e p.1)) ∧
    s.deviceAnswers = (acc.filter fun p => s.deviceAt p.1 4).map (·.2) ++ [5]

theorem witness_DeviceAccessesReachTheBus_ldm : loadsAnswered 0x3FF0 [0x22222222, 0x1F] (withDevice 0x3FF4 ldmState) := by
  refine ⟨by decide, by decide, ?_, ?_⟩ <;> simp [List.range, List.range.loop, wordAt] <;> decide

theorem witness_DeviceAccessesReachTheBus_rfeLoads : loadsAnswered 0x3FF8 [0x8000, 0x1F] (withDevice 0x3FFC rfeState) := by
  refine ⟨by decide, by decide, ?_, ?_⟩ <;> simp [List.range, List.range.loop, wordAt] <;> decide

theorem witness_DeviceAccessesReachTheBus_rfe :
    (withDevice 0x3FFC rfeState).cpsr.mode ≠ .user ∧ (start 0x1F).cpsr.toWord = 0x1F ∧ (start 0x1F).cpsr.j = false ∧
    look (exec (.rfe .ia true 13) (withDevice 0x3FFC rfeState)) (fun t => (t.pc, t.cpsr.toWord, t.busLog)) =
      some (0x8000, 0x1F, [.deviceRead 0x3FFC 0x1F]) := by decide

/-- STM and SRS of two words, the second at a device. -/
theorem witness_DeviceAccessesReachTheBus_stores :
    (∀ x ∈ [(withDevice 0x3FF4 stmState, (0x3FF0 : Word)), (withDevice 0x3FFC srsState, 0x3FF8)],
      x.1.undisturbed 2 ∧ Memory.wf x.1.mem = true ∧ x.1.canAdvance 4 ∧
      ∀ k < 2, wordAligned (wordAt x.2 k) = true ∧ x.1.abortCause .write (wordAt x.2 k) 4 = none) ∧
    0x3FF0 = lowestAddress .db ((withDevice 0x3FF4 stmState).reg 13) 2 ∧
    0x3FF8 = lowestAddress .db ((withDevice 0x3FFC srsState).regs.sp.get Mode.abort.bank) 2 ∧
    (withDevice 0x3FFC srsState).curSpsr = some 0x10 ∧
    look (exec (.stm .al .db true 13 0xC) (withDevice 0x3FF4 stmState)) (fun t => (memWord t.mem false 0x3FF0, t.busLog)) =
      some (0x22222222, [.deviceWrite 0x3FF4 0x33333333]) := by
  simp only [State.undisturbed, State.canAdvance]; decide

/-- An IRQ that is vectored, and one that SCR.IRQ routes to Secure Monitor mode. -/
theorem witness_DeviceAccessesReachTheBus_vic :
    let s : State := { start 0x10 with secureCtrl := ⟨false, false, true⟩ }
    let r : State := { s with scr := { s.scr with irq := true } }
    (s.scr.irq = false ∧ (s.control s.world).ve = true) ∧
    ¬(Exception.irq = .irq ∧ r.scr.irq = false ∧ (r.control r.world).ve = true) := by decide

/-- Supervisor mode with an SVC at the PC. -/
def svcState : State := put 0x8000 0xEF000000 (start 0x1D3)

theorem witness_StepRunsTheDecodedInstruction :
    svcState.calmBoundary ∧ interruptTaken svcState.afterBoundary = none ∧ svcState.afterBoundary.cpsr.j = false ∧
    svcState.afterBoundary.pc.toNat % svcState.afterBoundary.fetchLength = 0 ∧
    svcState.afterBoundary.abortCause .fetch svcState.afterBoundary.pc svcState.afterBoundary.fetchLength = none ∧
    svcState.afterBoundary.deviceAt svcState.afterBoundary.pc svcState.afterBoundary.fetchLength = false ∧
    (∀ a ∈ svcState.afterBoundary.fetchAddrs, a ∉ svcState.afterBoundary.stored) ∧
    impreciseTaken svcState.afterBoundary = false ∧
    [0, 0, 0, 0xEF] = svcState.afterBoundary.fetchAddrs.map (readByte svcState.afterBoundary.mem) ∧
    decode svcState.afterBoundary.cpsr.t [0, 0, 0, 0xEF] = .instr (.svc .al 0) ∧
    decode (start 0x1D3).afterBoundary.cpsr.t ((start 0x1D3).afterBoundary.fetchAddrs.map (readByte (start
      0x1D3).afterBoundary.mem)) =
      .refused .armNotInTable := by
  simp only [State.calmBoundary]; decide

/-- The same machine fetching from a device, whose next answer is the word of an SVC. -/
def deviceFetchState : State :=
  { start 0x1D3 with map := { State.reset.map with devices := [⟨0x8000, 0x8003⟩] }, deviceAnswers := [0xEF000000] }

theorem witness_StepRunsTheDecodedInstruction_device :
    let s := deviceFetchState
    s.calmBoundary ∧ interruptTaken s.afterBoundary = none ∧ s.afterBoundary.cpsr.j = false ∧
    s.afterBoundary.pc.toNat % s.afterBoundary.fetchLength = 0 ∧
    s.afterBoundary.abortCause .fetch s.afterBoundary.pc s.afterBoundary.fetchLength = none ∧
    impreciseTaken s.afterBoundary = false ∧
    s.afterBoundary.deviceAt s.afterBoundary.pc s.afterBoundary.fetchLength = true ∧
    s.afterBoundary.deviceAnswers = 0xEF000000 :: [] ∧
    [0, 0, 0, 0xEF] =
      (List.range s.afterBoundary.fetchLength).map (fun k => BitVec.extractLsb' (8 * k) 8 (0xEF000000 : Word)) ∧
    look (step s) (fun t => (t.pc, t.regs.lr.svc, t.busLog)) = some (8, 0x8004, [.deviceFetch 0x8000 0xEF000000]) := by
  simp only [State.calmBoundary]; decide

/-- A fetch of what an instruction stored, in memory and at a device (R84, U33). -/
theorem witness_StepRunsTheDecodedInstruction_stored :
    let m : State := { svcState with stored := [0x8003] }
    let d : State := { deviceFetchState with stored := [0x8003] }
    (∃ a ∈ m.afterBoundary.fetchAddrs, a ∈ m.afterBoundary.stored) ∧ step m = .fault .fetchStored ∧
    d.afterBoundary.deviceAt d.afterBoundary.pc d.afterBoundary.fetchLength = true ∧
    (∃ a ∈ d.afterBoundary.fetchAddrs, a ∈ d.afterBoundary.stored) ∧ step d = .fault .fetchStored :=
  ⟨⟨0x8003, by decide, by decide⟩, rfl, by decide, ⟨0x8003, by decide, by decide⟩, rfl⟩

/-- STR to a device is remembered as a store. -/
theorem test_device_store_remembered :
    look (exec (.str .al false 2 13 4) deviceState) (fun t => t.stored) = some [0x3FF4, 0x3FF5, 0x3FF6, 0x3FF7] := by
  decide

/-- `s` with the two interrupt registers at these levels. -/
def requesting (fiq irq : Level) (s : State) : State :=
  { s with signals := { s.signals with fiqReg := fiq, irqReg := irq } }

/-- An unmasked FIQ, with an IRQ beside it; an IRQ with FIQ HIGH; an IRQ with FIQ masked. -/
theorem witness_InterruptsAreTakenAtBoundaries :
    (requesting .low .low (start 0x10)).calmBoundary ∧
    (requesting .low .low (start 0x10)).afterBoundary.signals.fiqReg = .low ∧
    (requesting .low .low (start 0x10)).afterBoundary.cpsr.f = false ∧
    (requesting .high .low (start 0x10)).calmBoundary ∧
    (requesting .high .low (start 0x10)).afterBoundary.signals.fiqReg = .high ∧
    (requesting .high .low (start 0x10)).afterBoundary.signals.irqReg = .low ∧
    (requesting .high .low (start 0x10)).afterBoundary.cpsr.i = false ∧
    (requesting .low .low (start 0x50)).calmBoundary ∧ (requesting .low .low (start 0x50)).afterBoundary.cpsr.f =
      true := by
  simp only [State.calmBoundary]; decide

/-- A fetch that aborts, with an imprecise abort pending beside it. -/
theorem witness_FetchAbortIsTaken :
    let s := aborting 0x8000 .axiError { start 0x10 with abortPending := true }
    s.calmBoundary ∧ interruptTaken s.afterBoundary = none ∧ s.afterBoundary.cpsr.j = false ∧
    s.afterBoundary.pc.toNat % s.afterBoundary.fetchLength = 0 ∧
    s.afterBoundary.abortCause .fetch s.afterBoundary.pc s.afterBoundary.fetchLength = some .axiError ∧
    s.afterBoundary.abortPending = true := by
  simp only [State.calmBoundary]; decide

/-- The abort pending with A clear, and with A set. -/
theorem witness_ImpreciseAbortIsTakenOrHeld :
    let s : State := { start 0x10 with abortPending := true }
    let m : State := { start 0x1D3 with abortPending := true, mem := svcState.mem }
    s.calmBoundary ∧ s.afterBoundary.abortPending = true ∧ interruptTaken s.afterBoundary = none ∧
    s.afterBoundary.cpsr.a = false ∧ (∃ bytes v, fetch s.afterBoundary = .bytes bytes v) ∧
    m.calmBoundary ∧ m.afterBoundary.abortPending = true ∧ m.afterBoundary.cpsr.a = true ∧ ∃ t, step m = .next t := by
  refine ⟨?_, by decide, by decide, by decide, ⟨_, _, rfl⟩, ?_, by decide, by decide, ⟨_, rfl⟩⟩ <;>
    · simp only [State.calmBoundary]; decide

/-- The same of LDR with FI clear. -/
theorem witness_ImpreciseStoreErrorArrivesLater_ldr :
    let s := aborting 0x3FF4 .axiError ldmState
    (0x3FF4 : Word) = offsetAddress true (operand 13 s) 4 ∧ condHolds .al s.cpsr = true ∧ (2 : RegNum) ≠ 15 ∧
    s.fi = false ∧ s.abortCause .read 0x3FF4 4 = some .axiError ∧ s.stronglyOrderedAt 0x3FF4 4 = false ∧
    s.deviceAt 0x3FF4 4 = false ∧ Memory.wf s.mem = true ∧ s.canAdvance 4 := by
  simp only [State.canAdvance]; decide

theorem witness_ImpreciseStoreErrorArrivesLater :
    let s := aborting 0x3FF4 .axiError stmState
    (0x3FF4 : Word) = offsetAddress false (operand 13 s) 4 ∧ condHolds .al s.cpsr = true ∧ (2 : RegNum) ≠ 15 ∧
    wordAligned 0x3FF4 = true ∧ s.abortCause .write 0x3FF4 4 = some .axiError ∧
    s.stronglyOrderedAt 0x3FF4 4 = false ∧ s.deviceAt 0x3FF4 4 = false ∧ Memory.wf s.mem = true ∧ s.canAdvance 4 := by
  simp only [State.canAdvance]; decide

/-- An internal abort, and an external one routed to Secure Monitor mode. -/
theorem witness_DataAbortThenFiq :
    let s := requesting .low .high (start 0x10)
    let r : State := { s with scr := { s.scr with ea := true } }
    s.cpsr.f = false ∧ (takeException (.dataAbort (.mmu .domain)) 0x8008 s).calmBoundary ∧
    (takeException (.dataAbort (.mmu .domain)) 0x8008 s).nextBoundary.signals.fiqReg = .low ∧
    ¬(s.scr.ea = true ∧ abortIsExternal (.mmu .domain) = true) ∧ r.cpsr.f = false ∧
    (takeException (.dataAbort .externalPrecise) 0x8008 r).calmBoundary ∧
    (takeException (.dataAbort .externalPrecise) 0x8008 r).nextBoundary.signals.fiqReg = .low ∧
    r.scr.ea = true ∧ abortIsExternal .externalPrecise = true := by
  simp only [State.calmBoundary]; decide

theorem witness_NonSecureFiqRepeats :
    let s := nonSecure (requesting .low .high (start 0x10))
    s.world = .nonSecure ∧ s.scr.fiq = false ∧ s.scr.fw = false ∧ s.cpsr.f = false ∧ s.calmBoundary ∧
    s.nextBoundary.signals.fiqReg = .low ∧ step s = .next (after (step s)) ∧ (after (step s)).calmBoundary ∧
    (after (step s)).nextBoundary.signals.fiqReg = .low := by
  refine ⟨by decide, by decide, by decide, by decide, ?_, by decide, rfl, ?_, by decide⟩ <;>
    · simp only [State.calmBoundary]; decide

theorem witness_ResetHoldsThenForces :
    let low : Signals := { (start 0x10).signals with nRESETIN := .low, nVFPRESETIN := .low }
    let s : State := { start 0x10 with signals := low }
    let r : State := { start 0x10 with inReset := true }
    legacyBigEndian s.params = false ∧ s.nextBoundary.signals.nRESETIN = .low ∧
    s.nextBoundary.signals.nVFPRESETIN = .low ∧ legacyBigEndian r.params = false ∧ r.inReset = true ∧
    r.nextBoundary.signals.nRESETIN = .high ∧ r.nextBoundary.signals.nVFPRESETIN = .high := by decide

/-- An SVC at the PC and a boundary that asks for `c` first. -/
def writing (c : ControlWrite) (s : State) : State :=
  { s with inputs := [{ signals := s.signals, errorReports := 0, control := some c, newMap := none }] }

theorem witness_FiChangesOnlyInSequence :
    step (writing (.fi true true) svcState) = .next (after (step (writing (.fi true true) svcState))) ∧
    (after (step (writing (.fi true true) svcState))).fi ≠ svcState.fi := ⟨rfl, by decide⟩

/-- A write that may be made, from Secure Supervisor mode; one that may not, from User mode or the Non-secure world; and a
change of FI that comes too late, after a boundary with F clear. -/
theorem witness_FiChangesOnlyInSequence_writes :
    ((start 0x1D3).cpsr.mode ≠ .user ∧ ((start 0x1D3).scr.ns = false ∨ (start 0x1D3).cpsr.mode = .monitor)) ∧
    (start 0x1D3).cpsr.i = true ∧ (start 0x1D3).cpsr.f = true ∧ (start 0x1D3).fiWindow = true ∧ true ≠ (start 0x1D3).fi ∧
    ¬((start 0x10).cpsr.mode ≠ .user) ∧
    ¬((nonSecure (start 0x1D3)).scr.ns = false ∨ (nonSecure (start 0x1D3)).cpsr.mode = .monitor) ∧
    (closeFiWindow (start 0x193)).fiWindow = false ∧
    look (step (writing (.scr ⟨true, false, false, false, false, false⟩) svcState)) (fun t => t.scr.ns) = some true ∧
    look (step (writing (.scr ⟨true, false, false, false, false, false⟩) (put 0x8000 0xEF000000 (start 0x10))))
      (fun t => t.scr.ns) = some false := by decide

theorem witness_FiChangesOnlyInSequence_late :
    step (writing (.fi true true) { svcState with fiWindow := false }) = .refused .fiOutOfSequence := rfl

/-- The boundary of the writes above. -/
theorem witness_FiChangesOnlyInSequence_boundary :
    let s := writing .barrier svcState
    legacyBigEndian s.params = false ∧ s.inReset = false ∧ s.nextBoundary.signals.nRESETIN = .high ∧
    s.nextBoundary.signals.nVFPRESETIN = .high ∧ s.nextBoundary.control = some .barrier := by decide

theorem witness_StepKeepsInv :
    svcState.Inv ∧ step svcState = .next (after (step svcState)) := ⟨by simp only [State.Inv]; decide, rfl⟩

/-- An FIQ routed to Secure Monitor mode. -/
theorem witness_NonSecureReachesSecureOnlyByMonitorEntry :
    let s := nonSecure (requesting .low .high { start 0x10 with scr := { State.reset.scr with fiq := true } })
    s.world = .nonSecure ∧ s.inReset = false ∧ step s = .next (after (step s)) := ⟨by decide, by decide, rfl⟩

theorem witness_UserModeLeavesOnlyByException :
    let s := put 0x8000 0xEF000000 (start 0x10)
    s.cpsr.mode = .user ∧ s.inReset = false ∧ step s = .next (after (step s)) := ⟨by decide, by decide, rfl⟩

theorem witness_NonSecureCannotChangeFOrA :
    let s := nonSecure svcState
    s.world = .nonSecure ∧ step s = .next (after (step s)) ∧ (after (step s)).world = .nonSecure ∧ s.scr.fw = false ∧
    s.scr.aw = false := ⟨by decide, rfl, by decide, by decide, by decide⟩

end Sys2Proof.Tests
end

section
/-! The world and the privilege of a state (spec/10_state.md R41, R42). -/

namespace Sys2Proof.Machine

/-- User mode is the one unprivileged mode (R42). -/
theorem Mode.privileged_iff {m : Mode} : m.privileged = true ↔ m ≠ .user := by
  unfold Mode.privileged
  exact decide_eq_true_iff

/-- An entry writes the SCR only when it is made in Secure Monitor mode (R235), which the Non-secure world excludes; the
mode entered does not matter (R41). -/
theorem takeException_scr_of_nonSecure (x : Exception) (ret : Word) {s : State} (hw : s.world = .nonSecure) :
    (takeException x ret s).scr = s.scr := by
  rw [takeException_scr, leaveNonSecure_of_ne (nonSecure_mode hw)]

/-- Settles O9: the privilege of a mode, the world of a state, and NS after an entry from the Non-secure world. -/
theorem worldAndPrivilege : Obligations.WorldAndPrivilege := by
  refine ⟨fun _ => Mode.privileged_iff, fun _ => world_eq_secure, fun x ret s hw => ?_⟩
  obtain ⟨hns, -⟩ := world_eq_nonSecure.mp hw
  rw [takeException_scr_of_nonSecure x ret hw, hns]

end Sys2Proof.Machine
end

section
/-! Exception entry (spec/60_exceptions.md R223, R235, R236): when an entry is routed to Secure Monitor mode, the CPSR it
leaves on either route, and what an entry made in Secure Monitor mode changes. -/

namespace Sys2Proof.Machine

/-! ### Routing -/

/-- The exceptions routed to Secure Monitor mode, `mon` of R223. -/
theorem Exception.toMonitor_iff {x : Exception} {scr : Scr} :
    x.toMonitor scr = true ↔ x = .smc ∨ (x = .irq ∧ scr.irq = true) ∨ (x = .fiq ∧ scr.fiq = true) ∨
      ((∃ src, (src = .externalPrecise ∨ src = .externalImprecise) ∧ (x = .prefetchAbort src ∨ x = .dataAbort src)) ∧
        scr.ea = true) := by
  cases x with
  | undefined | svc | smc | irq | fiq => simp [Exception.toMonitor]
  | prefetchAbort src | dataAbort src => cases src <;> simp [Exception.toMonitor, abortIsExternal]

theorem Exception.enters_of_routed {x : Exception} {s : State} (h : x.toMonitor s.scr = true) :
    x.enters s = .monitor := if_pos h

theorem Exception.enters_of_unrouted {x : Exception} {s : State} (h : ¬x.toMonitor s.scr = true) :
    x.enters s = x.mode := if_neg h

/-- Only SMC has Secure Monitor mode as its own, and SMC is always routed there. -/
theorem Exception.enters_eq_monitor {x : Exception} {s : State} : x.enters s = .monitor ↔ x.toMonitor s.scr = true := by
  refine ⟨fun h => ?_, enters_of_routed⟩
  by_contra hr
  rw [enters_of_unrouted hr] at h
  cases x with
  | smc => exact hr rfl
  | undefined | svc | prefetchAbort | dataAbort | irq | fiq => simp [Exception.mode] at h

/-! ### The two worlds, and clearing NS -/

theorem world_ne_secure {s : State} : s.world ≠ .secure ↔ s.world = .nonSecure := by
  cases s.world <;> simp

@[simp] theorem control_secure (s : State) : s.control .secure = s.secureCtrl := rfl

@[simp] theorem control_nonSecure (s : State) : s.control .nonSecure = s.nonSecureCtrl := rfl

theorem leaveNonSecure_of_monitor {s : State} (h : s.cpsr.mode = .monitor) :
    leaveNonSecure s = { s with scr := { s.scr with ns := false } } := if_pos h

/-- Clearing NS in Secure Monitor mode does not change the world, which is Secure there already (R41). -/
@[simp] theorem leaveNonSecure_world (s : State) : (leaveNonSecure s).world = s.world := by
  cases hw : s.world with
  | secure => exact leaveNonSecure_world_secure.mpr hw
  | nonSecure => rw [leaveNonSecure_of_ne (world_eq_nonSecure.mp hw).2, hw]

@[simp] theorem leaveNonSecure_idem (s : State) : leaveNonSecure (leaveNonSecure s) = leaveNonSecure s := by
  by_cases h : s.cpsr.mode = .monitor
  · simp [leaveNonSecure, h]
  · rw [leaveNonSecure_of_ne h, leaveNonSecure_of_ne h]

/-- An entry is that of the state with NS already cleared (R235). -/
theorem takeException_leaveNonSecure (x : Exception) (ret : Word) (s : State) :
    takeException x ret (leaveNonSecure s) = takeException x ret s := by
  simp only [takeException, leaveNonSecure_idem]

theorem State.mayChangeA_iff {s : State} : s.mayChangeA = true ↔ s.world = .secure ∨ s.scr.aw = true := by
  simp [State.mayChangeA]

theorem State.mayChangeF_iff {s : State} : s.mayChangeF = true ↔ s.world = .secure ∨ s.scr.fw = true := by
  simp [State.mayChangeF]

@[simp] theorem leaveNonSecure_mayChangeA (s : State) : (leaveNonSecure s).mayChangeA = s.mayChangeA := by
  have haw : (leaveNonSecure s).scr.aw = s.scr.aw := by unfold leaveNonSecure; split <;> rfl
  simp only [State.mayChangeA, leaveNonSecure_world, haw]

@[simp] theorem leaveNonSecure_mayChangeF (s : State) : (leaveNonSecure s).mayChangeF = s.mayChangeF := by
  have hfw : (leaveNonSecure s).scr.fw = s.scr.fw := by unfold leaveNonSecure; split <;> rfl
  simp only [State.mayChangeF, leaveNonSecure_world, hfw]

/-! ### The CPSR and the frame of an entry -/

/-- The CPSR after an entry to Secure Monitor mode (R223). -/
theorem takeException_cpsr_of_routed {x : Exception} {s : State} (ret : Word) (h : x.toMonitor s.scr = true) :
    (takeException x ret s).cpsr =
      { s.cpsr with mode := .monitor, t := false, j := false, i := true, f := true, a := true, e := s.secureCtrl.ee } := by
  rw [takeException_cpsr, h]
  rfl

/-- The CPSR after an entry to the exception's own mode (R223). -/
theorem takeException_cpsr_of_unrouted {x : Exception} {s : State} (ret : Word) (h : ¬x.toMonitor s.scr = true) :
    (takeException x ret s).cpsr =
      { s.cpsr with
        mode := x.mode, t := false, j := false, i := true, e := (s.control s.world).ee
        f := if x = .fiq ∧ (s.world = .secure ∨ s.scr.fw = true) then true else s.cpsr.f
        a := if x.mode ∈ [.abort, .irq, .fiq] ∧ (s.world = .secure ∨ s.scr.aw = true) then true else s.cpsr.a } := by
  rw [takeException_cpsr, Bool.eq_false_of_not_eq_true h]
  simp [entryPsr, State.mayChangeA_iff, State.mayChangeF_iff, or_assoc]

/-- The flags, GE, Q and the reserved bits are those of before (R223). -/
theorem takeException_cpsr_frame (x : Exception) (ret : Word) (s : State) :
    { (takeException x ret s).cpsr with
      mode := s.cpsr.mode, t := s.cpsr.t, j := s.cpsr.j, i := s.cpsr.i, f := s.cpsr.f, a := s.cpsr.a
      e := s.cpsr.e } = s.cpsr := by
  rw [takeException_cpsr]
  unfold entryPsr
  split <;> rfl

/-- An entry writes one register other than the PC: R14 of the mode entered. -/
theorem takeException_sameRegsBut (x : Exception) (ret : Word) (s : State) :
    sameRegsBut [.lr (takeException x ret s).cpsr.mode.bank] s (takeException x ret s) := by
  intro p hp
  rw [List.mem_singleton, takeException_mode] at hp
  rw [takeException_regs, RegFile.get_set_other _ _ hp]

/-- An entry writes one SPSR: that of the mode entered. -/
theorem takeException_spsr_other (x : Exception) (ret : Word) (s : State) {b : Bank}
    (h : b ≠ (takeException x ret s).cpsr.mode.bank) : (takeException x ret s).spsr.get? b = s.spsr.get? b := by
  rw [takeException_mode] at h
  rw [takeException_spsr, SavedPsrs.get?_set_other _ _ h]

/-! ### The vector and the first fetch -/

/-- Where an entry goes, as R236 lists it: the Monitor table, a vectored IRQ, the high vectors, the world's own table. -/
theorem vector_eq (x : Exception) (mon : Bool) (w : World) (s : State) :
    vector x mon w s =
      if mon then s.monitorBase + x.offset
      else if x = .irq ∧ (s.control w).ve = true then s.signals.irqAddr
      else if (s.control w).highVectors = true then 0xFFFF0000 + x.offset
      else if w = .secure then s.secureBase + x.offset else s.nonSecureBase + x.offset := by
  have hirq : (decide (x = .irq) && (s.control w).ve) = true ↔ x = .irq ∧ (s.control w).ve = true := by simp
  cases w with
  | secure | nonSecure => simp only [vector, if_congr hirq rfl rfl]; rfl

/-- In ARM state the fetch reads the four bytes at the PC (R100). -/
theorem fetchAddrs_of_arm {s : State} (h : s.cpsr.t = false) : s.fetchAddrs = (List.range 4).map (byteAddr s.pc) := by
  simp [State.fetchAddrs, State.fetchLength, h]

/-- The vector taken, in the world of before the entry (R236). -/
theorem takeException_pc_eq_vector (x : Exception) (ret : Word) (s : State) :
    (takeException x ret s).pc = vector x (x.toMonitor s.scr) s.world s := by
  rw [takeException_pc, leaveNonSecure_world]

/-- The Monitor table is one for both worlds (R236). -/
theorem vector_routed (x : Exception) (w : World) (s : State) : vector x true w s = s.monitorBase + x.offset := rfl

/-! ### The entry procedure -/

/-- Settles O11, clause by clause: `secure` is the Secure world of before the entry and `mon` the model's routing. -/
theorem entrySavesAndForces : Obligations.EntrySavesAndForces := by
  intro x ret s secure mon hsecure hmon
  rw [← world_eq_secure] at hsecure
  rw [← Exception.toMonitor_iff] at hmon
  obtain rfl := propext hsecure
  obtain rfl := propext hmon
  refine ⟨_, rfl, ?scrOfMonitor, ?scrElse, ?routed, ?unrouted, takeException_t .., takeException_j .., takeException_i ..,
    takeException_cpsr_frame .., takeException_lr .., takeException_sameRegsBut x ret s, takeException_curSpsr ..,
    fun b hb => takeException_spsr_other _ _ _ hb, ?pcRouted, ?pcSecure, ?pcNonSecure, ?frame⟩
  case scrOfMonitor => intro hm; rw [takeException_scr, leaveNonSecure_of_monitor hm]
  case scrElse => intro hm; rw [takeException_scr, leaveNonSecure_of_ne hm]
  case routed => intro hr; rw [takeException_cpsr_of_routed ret hr]; exact ⟨rfl, rfl, rfl, rfl⟩
  case unrouted =>
    intro hr
    rw [takeException_cpsr_of_unrouted ret hr]
    refine ⟨by rintro rfl; rfl, by rintro rfl; rfl, by rintro src (rfl | rfl) <;> rfl, by rintro rfl; rfl,
      by rintro rfl; rfl, fun hw => ?eeSecure, fun hw => ?eeNonSecure, fun h => if_pos h, fun h => if_neg h,
      fun h => if_pos h, fun h => if_neg h⟩
    case eeSecure => simp only [hw, control_secure]
    case eeNonSecure => simp only [world_ne_secure.mp hw, control_nonSecure]
  case pcRouted => intro hr; rw [takeException_pc_eq_vector, hr, vector_routed, vector_routed]
  case pcSecure =>
    rintro ⟨hr, hw⟩
    rw [takeException_pc_eq_vector, Bool.eq_false_of_not_eq_true hr, hw]
  case pcNonSecure =>
    rintro ⟨hr, hw⟩
    rw [takeException_pc_eq_vector, Bool.eq_false_of_not_eq_true hr, world_ne_secure.mp hw]
  case frame => simp

/-- Settles O12: the offset in the statement is the exception's own, and the entry's CPSR decides the fetch. -/
theorem vectorTable : Obligations.VectorTable := by
  refine ⟨fun x mon w s src off hoff => ?_, fun s => ⟨control_secure s, control_nonSecure s⟩, fun x ret s => ?_⟩
  · have hx : x.offset = off := by
      obtain ⟨rfl, rfl⟩ | ⟨rfl | rfl, rfl⟩ | ⟨rfl, rfl⟩ | ⟨rfl, rfl⟩ | ⟨rfl, rfl⟩ | ⟨rfl, rfl⟩ := hoff <;> rfl
    rw [vector_eq, hx]
  · refine ⟨fetchAddrs_of_arm (takeException_t x ret s), takeException_t x ret s, ?_, fun hm => ?_⟩
    · rw [takeException_mode]
      exact x.enters_privileged s
    · exact world_eq_secure.mpr (.inr hm)

/-! ### An entry made in Secure Monitor mode -/

/-- R14 and the SPSR of Secure Monitor mode after an entry to it: the earlier ones are lost (R235). -/
theorem takeException_monitorBank {x : Exception} {s : State} (ret : Word) (h : x.toMonitor s.scr = true) :
    (takeException x ret s).regs.lr.mon = ret ∧ (takeException x ret s).spsr.mon = s.cpsr.toWord := by
  rw [takeException_regs, takeException_spsr, Exception.enters_of_routed h]
  exact ⟨rfl, rfl⟩

/-- Settles O13: the entry from Secure Monitor mode is that of the state with NS cleared. -/
theorem entryFromMonitorModeIsSecure : Obligations.EntryFromMonitorModeIsSecure := by
  intro x ret s hmode
  have hns : (takeException x ret s).scr.ns = false := by rw [takeException_scr, leaveNonSecure_of_monitor hmode]
  have hstays : (takeException x ret s).cpsr.mode = .monitor ↔ x.toMonitor s.scr = true := by
    rw [takeException_mode, Exception.enters_eq_monitor]
  refine ⟨hns, world_eq_secure.mpr (.inl hns), ?_, ?_, fun hm => ?_⟩
  · rw [← leaveNonSecure_of_monitor hmode, takeException_leaveNonSecure]
  · rw [hstays, Exception.toMonitor_iff, @and_comm (s.scr.ea = true)]
  · have hr := hstays.mp hm
    obtain ⟨hlr, hspsr⟩ := takeException_monitorBank ret hr
    rw [takeException_cpsr_of_routed ret hr]
    exact ⟨hlr, hspsr, rfl, rfl, rfl⟩

end Sys2Proof.Machine
end

section
/-! What one step can come to (spec/60_exceptions.md R221), in one lemma: `attend_outcome` says that R221 steps 2 to 6 run
an instruction to its end, or end in an exception entry or in reset; the statements about every step rest on it. -/

namespace Sys2Proof.Machine

theorem execOnly.refl (s : State) : execOnly s s := rfl

theorem execOnly.trans {s t u : State} (h : execOnly s t) (h' : execOnly t u) : execOnly s u := by
  unfold execOnly at *
  rw [h', h]

/-- The SCR, FI, and both worlds' control registers and bases are those of before. -/
structure controlsKept (s t : State) : Prop where
  scr : t.scr = s.scr
  fi : t.fi = s.fi
  secureCtrl : t.secureCtrl = s.secureCtrl
  nonSecureCtrl : t.nonSecureCtrl = s.nonSecureCtrl
  nonSecureBase : t.nonSecureBase = s.nonSecureBase
  secureBase : t.secureBase = s.secureBase
  monitorBase : t.monitorBase = s.monitorBase

theorem controlsKept.refl (s : State) : controlsKept s s := ⟨rfl, rfl, rfl, rfl, rfl, rfl, rfl⟩

theorem controlsKept.trans {s t u : State} (h : controlsKept s t) (h' : controlsKept t u) : controlsKept s u where
  scr := h'.scr.trans h.scr
  fi := h'.fi.trans h.fi
  secureCtrl := h'.secureCtrl.trans h.secureCtrl
  nonSecureCtrl := h'.nonSecureCtrl.trans h.nonSecureCtrl
  nonSecureBase := h'.nonSecureBase.trans h.nonSecureBase
  secureBase := h'.secureBase.trans h.secureBase
  monitorBase := h'.monitorBase.trans h.monitorBase

theorem controlsKept.secure {s t : State} (h : controlsKept s t) : secureControlsKept s t :=
  ⟨h.scr, h.fi, h.secureCtrl, h.secureBase, h.monitorBase⟩

theorem execOnly.controls {s t : State} (h : execOnly s t) : controlsKept s t :=
  ⟨h.scr, h.fi, h.secureCtrl, h.nonSecureCtrl, h.nonSecureBase, h.secureBase, h.monitorBase⟩

/-! ### The state in which an entry or a reset ends a step -/

/-- What stood when a step ended in an exception entry or in reset: the instruction may have changed registers that its
mode sees, memory and what surrounds the core, and no status or control register. -/
structure stopped (s u : State) : Prop where
  controls : controlsKept s u
  irqAddr : u.signals.irqAddr = s.signals.irqAddr
  cpsr : u.cpsr = s.cpsr
  spsr : u.spsr = s.spsr
  forms : keepsForms s u
  hidden : hiddenKept s u
  pending : impreciseTaken s = false → u.abortPending = s.abortPending

theorem stopped.refl (s : State) : stopped s s :=
  ⟨.refl s, rfl, rfl, rfl, keepsForms_of_eq rfl rfl, .of_eq rfl, fun _ => rfl⟩

theorem partWay.stopped {s u : State} (h : partWay s u) : stopped s u where
  controls := h.only.controls
  irqAddr := h.only.irqAddr
  cpsr := h.cpsr
  spsr := h.spsr
  forms := h.forms
  hidden := h.hidden
  pending _ := h.only.abortPending

theorem accessOnly.impreciseTaken {s t : State} (h : accessOnly s t) : impreciseTaken t = impreciseTaken s := by
  simp only [Machine.impreciseTaken, h.abortPending, h.cpsr]

/-- What an access does first does not matter to what is kept after it. -/
theorem stopped.of_access {s t u : State} (h : accessOnly s t) (hf : keepsForms s t) (h' : stopped t u) : stopped s u where
  controls := h.exec.controls.trans h'.controls
  irqAddr := h'.irqAddr.trans h.exec.irqAddr
  cpsr := h'.cpsr.trans h.cpsr
  spsr := h'.spsr.trans h.spsr
  forms := hf.trans h'.forms
  hidden := (hiddenKept.of_eq h.regs).trans (by rw [h.cpsr]) h'.hidden
  pending hi := (h'.pending (h.impreciseTaken ▸ hi)).trans h.abortPending

theorem psrStep.of_access {s t u : State} (h : accessOnly s t) (h' : psrStep t u) : psrStep s u where
  jazelle := by simpa only [h.cpsr] using h'.jazelle
  monitor := by simpa only [h.world] using h'.monitor
  maskA := by simpa only [mayChangeA_access h, h.cpsr] using h'.maskA
  maskF := by simpa only [mayChangeF_access h, h.cpsr] using h'.maskF
  user := by simpa only [h.cpsr, h.spsr] using h'.user

theorem completed.of_access {srs : Bool} {s t u : State} (h : accessOnly s t) (hf : keepsForms s t)
    (h' : completed srs t u) : completed srs s u where
  only := h.exec.trans h'.only
  forms := hf.trans h'.forms
  psr := h'.psr.of_access h
  hidden hs := (hiddenKept.of_eq h.regs).trans (by rw [h.cpsr]) (h'.hidden hs)
  notUser hs := by simpa only [h.cpsr] using h'.notUser hs

/-- R221 steps 2 to 6: an instruction ran to its end, or an exception was taken, or reset came in the middle. -/
theorem attend_outcome {s t : State} (h : attend s = .next t) :
    (∃ srs, completed srs s t) ∨
      ∃ u, stopped s u ∧ ((∃ x ret, t = takeException x ret u) ∨ t = { u with inReset := true }) := by
  rcases attend_next h with ⟨x, _, rfl⟩ | ⟨_, ⟨src, _, rfl⟩ | ⟨bs, u, hb, hrest⟩⟩
  · exact .inr ⟨s, .refl s, .inl ⟨_, _, rfl⟩⟩
  · exact .inr ⟨s, .refl s, .inl ⟨_, _, rfl⟩⟩
  · obtain ⟨hacc, hmem, hstored⟩ := fetch_bytes hb
    have hforms := keepsForms_of_eq hmem hstored
    rcases hrest with ⟨himp, rfl⟩ | ⟨_, i, _, hexec⟩
    · have himp' : impreciseTaken s = true := hacc.impreciseTaken ▸ himp
      have hstop : stopped s { u with abortPending := false, draws := u.draws + 1 } :=
        { controls := hacc.exec.controls.trans ⟨rfl, rfl, rfl, rfl, rfl, rfl, rfl⟩
          irqAddr := hacc.exec.irqAddr
          cpsr := hacc.cpsr
          spsr := hacc.spsr
          forms := hforms
          hidden := .of_eq hacc.regs
          pending := fun hn => absurd (himp'.symm.trans hn) (by simp) }
      exact .inr ⟨_, hstop, .inl ⟨_, _, rfl⟩⟩
    · rcases exec_next hexec with hc | ⟨w, hw, hend⟩
      · exact .inl ⟨_, hc.of_access hacc hforms⟩
      · exact .inr ⟨w, hw.stopped.of_access hacc hforms, hend⟩

/-! ### The boundary -/

theorem reportErrors_controlsKept (n : Nat) (s : State) : controlsKept s (reportErrors n s) := by
  constructor <;> simp

/-- In User mode a control write does nothing but its barriers (R36, log 14). -/
theorem applyControl_user {c : Option ControlWrite} {s u : State} (hm : s.cpsr.mode = .user)
    (h : applyControl c s = .next u) : controlsKept s u := by
  cases c with
  | none => simp only [applyControl, Host.Outcome.next.injEq] at h; exact h ▸ .refl s
  | some c =>
    obtain ⟨v, hv, _, hor⟩ := controlWrite_next h
    have hvs : controlsKept s v ∧ v.cpsr = s.cpsr := by
      rw [hv]
      split
      · exact ⟨by constructor <;> simp, by simp⟩
      · exact ⟨.refl s, rfl⟩
    rcases hor with ⟨_, rfl⟩ | ⟨hmay, hw⟩
    · exact hvs.1
    · have hp : v.cpsr.mode.privileged = false := by rw [hvs.2, hm]; rfl
      cases c with
      | barrier => simp only [permittedWrite, Host.Outcome.next.injEq] at hw; exact hw ▸ hvs.1
      | scr w => simp [mayWrite, hp] at hmay
      | fi w b => simp [mayWrite, hp] at hmay
      | controlBits w v => cases w <;> simp [mayWrite, hp] at hmay
      | base r v => cases r <;> simp [mayWrite, hp] at hmay

/-- `u` is a state that the boundary of `s` may leave to R221 step 2. -/
structure boundaryLeaves (s u : State) : Prop where
  only : boundaryOnly (sample s.nextBoundary s) u
  nonSecure : s.world = .nonSecure → secureControlsKept s u
  user : s.cpsr.mode = .user → controlsKept s u

theorem boundaryLeaves.cpsr {s u : State} (h : boundaryLeaves s u) : u.cpsr = s.cpsr := h.only.cpsr

theorem boundaryLeaves.world {s u : State} (h : boundaryLeaves s u) (hw : s.world = .nonSecure) :
    u.world = .nonSecure := by
  obtain ⟨hscr, -⟩ := h.nonSecure hw
  rw [← hw]
  simp only [State.world, hscr, h.cpsr]

theorem boundaryLeaves_of_applyControl {s u : State} {n : Nat}
    (h : applyControl s.nextBoundary.control (closeFiWindow (sample s.nextBoundary s)) = .next u) :
    boundaryLeaves s (reportErrors n u) where
  only := ((closeFiWindow_boundaryOnly _).trans (applyControl_next h)).trans (reportErrors_boundaryOnly n u)
  nonSecure hw :=
    have hk : secureControlsKept (closeFiWindow (sample s.nextBoundary s)) u := applyControl_nonSecure hw h
    hk.trans (reportErrors_controls n u)
  user hm :=
    have hk : controlsKept (closeFiWindow (sample s.nextBoundary s)) u := applyControl_user hm h
    controlsKept.trans ⟨hk.scr, hk.fi, hk.secureCtrl, hk.nonSecureCtrl, hk.nonSecureBase, hk.secureBase, hk.monitorBase⟩
      (reportErrors_controlsKept n u)

/-- A step is reset being held or performed, or a boundary and then R221 steps 2 to 6. -/
theorem step_next {s t : State} (h : step s = .next t) :
    t = { sample s.nextBoundary s with inReset := true } ∨
    (s.inReset = true ∧ t = resetSequence (sample s.nextBoundary s)) ∨
    (s.inReset = false ∧ ∃ u, boundaryLeaves s u ∧ attend u = .next t) := by
  rcases cycle_next h with rfl | ⟨hr, rfl⟩ | ⟨hr, _, _, u, hu, hattend⟩
  · exact .inl rfl
  · exact .inr (.inl ⟨hr, rfl⟩)
  · exact .inr (.inr ⟨hr, _, boundaryLeaves_of_applyControl hu, hattend⟩)

/-! ### The invariant -/

theorem takeException_inv (x : Exception) (ret : Word) {s : State} (hm : Memory.wf s.mem = true)
    (hs : storedWf s.stored = true) : (takeException x ret s).Inv :=
  ⟨by rwa [takeException_mem], by rwa [takeException_stored], takeException_j x ret s⟩

theorem attend_keeps_inv {s t : State} (hi : s.Inv) (h : attend s = .next t) : t.Inv := by
  obtain ⟨hmem, hstored, hj⟩ := hi
  rcases attend_outcome h with ⟨_, hc⟩ | ⟨u, hu, ⟨x, ret, rfl⟩ | rfl⟩
  · exact ⟨hc.forms.1 hmem, hc.forms.2 hstored, hc.psr.jazelle hj⟩
  · exact takeException_inv x ret (hu.forms.1 hmem) (hu.forms.2 hstored)
  · refine ⟨hu.forms.1 hmem, hu.forms.2 hstored, ?_⟩
    rw [← hj]
    exact congrArg Psr.j hu.cpsr

theorem boundaryOnly.inv {s t : State} (h : boundaryOnly s t) (hi : s.Inv) : t.Inv := by
  unfold State.Inv
  rw [h.mem, h.stored, h.cpsr]
  exact hi

/-- Settles O56: a step is reset being held or performed, or a boundary, which leaves the invariant's fields alone,
and then R221 steps 2 to 6. -/
theorem stepKeepsInv : Obligations.StepKeepsInv := by
  intro s t hi h
  rcases step_next h with rfl | ⟨_, rfl⟩ | ⟨_, u, hu, hattend⟩
  · exact hi
  · obtain ⟨hmem, hstored, -⟩ := hi
    exact ⟨hmem, hstored, rfl⟩
  · have hsample : (sample s.nextBoundary s).Inv := hi
    exact attend_keeps_inv (hu.only.inv hsample) hattend

/-- Settles O57. -/
theorem invHoldsAtReset : Obligations.InvHoldsAtReset := ⟨rfl, rfl, rfl⟩

/-! ### The Non-secure world -/

theorem controlsKept.world {s t : State} (h : controlsKept s t) (hc : t.cpsr = s.cpsr) : t.world = s.world := by
  simp only [State.world, h.scr, hc]

/-- Where R221 steps 2 to 6 can take the Non-secure world (R250). -/
theorem attend_nonSecure {s t : State} (hw : s.world = .nonSecure) (h : attend s = .next t) :
    secureControlsKept s t ∧
      ((t.world = .nonSecure ∧ (s.scr.fw = false → t.cpsr.f = s.cpsr.f) ∧ (s.scr.aw = false → t.cpsr.a = s.cpsr.a)) ∨
        (t.cpsr.mode = .monitor ∧ t.cpsr.a = true ∧ t.cpsr.i = true ∧ t.cpsr.f = true ∧ t.cpsr.t = false ∧
          t.curSpsr = some s.cpsr.toWord ∧ ∃ x : Exception, x.toMonitor s.scr = true ∧ t.pc = s.monitorBase + x.offset)) := by
  have hns := (world_eq_nonSecure.mp hw).1
  rcases attend_outcome h with ⟨_, hc⟩ | ⟨u, hu, ⟨x, ret, rfl⟩ | rfl⟩
  · refine ⟨hc.only.controls.secure, .inl ⟨?_, fun hf => hc.psr.maskF ?_, fun ha => hc.psr.maskA ?_⟩⟩
    · exact world_eq_nonSecure.mpr ⟨by rw [hc.only.scr, hns], hc.psr.monitor hw⟩
    · simp [State.mayChangeF, hw, hf]
    · simp [State.mayChangeA, hw, ha]
  · have hwu : u.world = .nonSecure := (hu.controls.world hu.cpsr).trans hw
    have hscr : (takeException x ret u).scr = s.scr := (takeException_scr_of_nonSecure x ret hwu).trans hu.controls.scr
    refine ⟨⟨hscr, by simp [hu.controls.fi], by simp [hu.controls.secureCtrl], by simp [hu.controls.secureBase],
      by simp [hu.controls.monitorBase]⟩, ?_⟩
    by_cases hr : x.toMonitor u.scr = true
    · refine .inr ?_
      have hpc : (takeException x ret u).pc = s.monitorBase + x.offset := by
        rw [takeException_pc_eq_vector, hr, vector_routed, hu.controls.monitorBase]
      have hsp : (takeException x ret u).curSpsr = some s.cpsr.toWord := by rw [takeException_curSpsr, hu.cpsr]
      rw [takeException_cpsr_of_routed ret hr]
      exact ⟨rfl, rfl, rfl, rfl, rfl, hsp, x, hu.controls.scr ▸ hr, hpc⟩
    · refine .inl ⟨world_eq_nonSecure.mpr ⟨by rw [hscr, hns], ?_⟩, fun hf => ?_, fun ha => ?_⟩
      · rw [takeException_mode, ne_eq, Exception.enters_eq_monitor]
        exact hr
      · rw [takeException_cpsr_of_unrouted ret hr]
        simp [hwu, hu.controls.scr, hf, hu.cpsr]
      · rw [takeException_cpsr_of_unrouted ret hr]
        simp [hwu, hu.controls.scr, ha, hu.cpsr]
  · have hcpsr : ({ u with inReset := true } : State).cpsr = s.cpsr := hu.cpsr
    refine ⟨hu.controls.secure, .inl ⟨(hu.controls.world hu.cpsr).trans hw, ?_, ?_⟩⟩ <;> rw [hcpsr] <;> exact fun _ => rfl

/-- Settles O58: the boundary and R221 steps 2 to 6 each keep the Secure configuration, and only an entry routed to
Secure Monitor mode leaves the Non-secure world. -/
theorem nonSecureReachesSecureOnlyByMonitorEntry : Obligations.NonSecureReachesSecureOnlyByMonitorEntry := by
  intro s t hw hr h
  rcases step_next h with rfl | ⟨hr', _⟩ | ⟨_, u, hu, hattend⟩
  · exact ⟨rfl, rfl, rfl, rfl, rfl, .inl hw⟩
  · exact absurd (hr.symm.trans hr') (by simp)
  · obtain ⟨hscr, hfi, hctrl, hbase, hmon⟩ := hu.nonSecure hw
    obtain ⟨⟨kscr, kfi, kctrl, kbase, kmon⟩, hend⟩ := attend_nonSecure (hu.world hw) hattend
    refine ⟨kscr.trans hscr, kfi.trans hfi, kctrl.trans hctrl, kbase.trans hbase, kmon.trans hmon, ?_⟩
    rw [hu.cpsr, hscr, hmon] at hend
    exact hend.imp And.left id

/-- Settles O60: reset leaves the Non-secure world, and what stays in it keeps F and A as `attend_nonSecure` says. -/
theorem nonSecureCannotChangeFOrA : Obligations.NonSecureCannotChangeFOrA := by
  intro s t hw h ht
  obtain ⟨htns, htm⟩ := world_eq_nonSecure.mp ht
  rcases step_next h with rfl | ⟨_, rfl⟩ | ⟨_, u, hu, hattend⟩
  · exact ⟨fun _ => rfl, fun _ => rfl⟩
  · exact absurd htns (by simp [resetSequence])
  · obtain ⟨hscr, -⟩ := hu.nonSecure hw
    obtain ⟨-, ⟨-, hstay⟩ | ⟨hm, -⟩⟩ := attend_nonSecure (hu.world hw) hattend
    · rwa [hscr, hu.cpsr] at hstay
    · exact absurd hm htm

/-! ### User mode -/

/-- The vector depends on the control registers, the bases and IRQADDR alone. -/
theorem vector_congr {s t : State} (h : controlsKept s t) (hi : t.signals.irqAddr = s.signals.irqAddr) (x : Exception)
    (mon : Bool) (w : World) : vector x mon w t = vector x mon w s := by
  have hctrl : t.control w = s.control w := by cases w <;> simp [h.secureCtrl, h.nonSecureCtrl]
  simp only [vector, h.monitorBase, h.secureBase, h.nonSecureBase, hctrl, hi]

/-- The registers of FIQ mode, and R13 and R14 of every bank but its own, are hidden from User mode (R23). -/
theorem physReg_user_eq {n : RegNum} {p : PhysReg} (h : physReg .user n = some p) :
    (∀ k, p ≠ .fiqHigh k) ∧ ∀ b, b ≠ .usr → p ≠ .sp b ∧ p ≠ .lr b := by
  unfold physReg at h
  split at h
  · cases h; simp
  · split at h
    · cases h; simp
    · split at h
      · cases h; simp [Mode.bank, eq_comm]
      · split at h
        · cases h; simp [Mode.bank, eq_comm]
        · cases h

theorem hiddenKept.user {s t : State} (h : hiddenKept s t) (hm : s.cpsr.mode = .user) :
    t.regs.fiqHigh = s.regs.fiqHigh ∧
      ∀ b, b ≠ .usr → t.regs.sp.get b = s.regs.sp.get b ∧ t.regs.lr.get b = s.regs.lr.get b := by
  unfold hiddenKept at h
  rw [hm] at h
  refine ⟨Vector.ext fun k hk => ?_, fun b hb => ⟨?_, ?_⟩⟩
  · exact h (.fiqHigh ⟨k, hk⟩) fun n hn => (physReg_user_eq hn).1 _ rfl
  · exact h (.sp b) fun n hn => ((physReg_user_eq hn).2 b hb).1 rfl
  · exact h (.lr b) fun n hn => ((physReg_user_eq hn).2 b hb).2 rfl

/-- Where R221 steps 2 to 6 can take User mode (R249). -/
theorem attend_user {s t : State} (hm : s.cpsr.mode = .user) (h : attend s = .next t) :
    controlsKept s t ∧
      ((t.cpsr.mode = .user ∧ t.cpsr.a = s.cpsr.a ∧ t.cpsr.i = s.cpsr.i ∧ t.cpsr.f = s.cpsr.f ∧ t.spsr = s.spsr ∧
          t.regs.fiqHigh = s.regs.fiqHigh ∧
          ∀ b, b ≠ .usr → t.regs.sp.get b = s.regs.sp.get b ∧ t.regs.lr.get b = s.regs.lr.get b) ∨
        (t.cpsr.mode ≠ .user ∧ t.curSpsr = some s.cpsr.toWord ∧
          ∃ x : Exception, t.pc = vector x (x.toMonitor s.scr) s.world s)) := by
  rcases attend_outcome h with ⟨srs, hc⟩ | ⟨u, hu, ⟨x, ret, rfl⟩ | rfl⟩
  · obtain ⟨hmode, hi, ha, hf, hspsr⟩ := hc.psr.user hm
    have hsrs : srs = false := by
      by_contra hne
      exact hc.notUser (by simpa using hne) hm
    exact ⟨hc.only.controls, .inl ⟨hmode, ha, hi, hf, hspsr, (hc.hidden hsrs).user hm⟩⟩
  · have hne : u.cpsr.mode ≠ .monitor := by rw [hu.cpsr, hm]; simp
    refine ⟨hu.controls.trans ⟨by rw [takeException_scr, leaveNonSecure_of_ne hne], by simp, by simp, by simp, by simp,
      by simp, by simp⟩, .inr ⟨?_, by rw [takeException_curSpsr, hu.cpsr], x, ?_⟩⟩
    · rw [takeException_mode]
      exact Mode.privileged_iff.mp (x.enters_privileged u)
    · rw [takeException_pc_eq_vector, hu.controls.world hu.cpsr, hu.controls.scr, vector_congr hu.controls hu.irqAddr]
  · have hcpsr : ({ u with inReset := true } : State).cpsr = s.cpsr := hu.cpsr
    have hk : controlsKept s { u with inReset := true } := hu.controls.trans ⟨rfl, rfl, rfl, rfl, rfl, rfl, rfl⟩
    refine ⟨hk, .inl ?_⟩
    rw [hcpsr]
    exact ⟨hm, rfl, rfl, rfl, hu.spsr, hu.hidden.user hm⟩

theorem afterBoundary_controlsKept (s : State) : controlsKept s s.afterBoundary := by
  constructor <;> simp [State.afterBoundary]

theorem afterBoundary_irqAddr (s : State) : s.afterBoundary.signals.irqAddr = s.nextBoundary.signals.irqAddr := by
  simp [State.afterBoundary, sample]

theorem controlsKept.symm {s t : State} (h : controlsKept s t) : controlsKept t s :=
  ⟨h.scr.symm, h.fi.symm, h.secureCtrl.symm, h.nonSecureCtrl.symm, h.nonSecureBase.symm, h.secureBase.symm,
    h.monitorBase.symm⟩

/-- Settles O59: in User mode a boundary writes no control register, so the vector is that of the state that
`State.afterBoundary` names, whatever the boundary asks for. -/
theorem userModeLeavesOnlyByException : Obligations.UserModeLeavesOnlyByException := by
  intro s t hm hr h
  rcases step_next h with rfl | ⟨hr', _⟩ | ⟨_, u, hu, hattend⟩
  · exact ⟨rfl, rfl, rfl, rfl, rfl, rfl, rfl, .inl ⟨hm, rfl, rfl, rfl, rfl, rfl, fun _ _ => ⟨rfl, rfl⟩⟩⟩
  · exact absurd (hr.symm.trans hr') (by simp)
  · obtain ⟨hkt, hend⟩ := attend_user (by rw [hu.cpsr, hm]) hattend
    have hku := hu.user hm
    have hk := hku.trans hkt
    refine ⟨hk.scr, hk.fi, hk.secureCtrl, hk.nonSecureCtrl, hk.nonSecureBase, hk.secureBase, hk.monitorBase, ?_⟩
    have hregs : u.regs = s.regs := hu.only.regs
    have hspsr : u.spsr = s.spsr := hu.only.spsr
    have hvec : ∀ x mon w, vector x mon w u = vector x mon w s.afterBoundary :=
      vector_congr ((afterBoundary_controlsKept s).symm.trans hku)
        ((congrArg Signals.irqAddr hu.only.signals).trans (afterBoundary_irqAddr s).symm)
    simpa only [hu.cpsr, hspsr, hregs, hku.scr, hku.world hu.cpsr, hvec] using hend

end Sys2Proof.Machine
end

section
/-! The decoder and the encoder (spec/30_encoding.md R100 to R106). The rows of the table exclude each other
(`fits_disjoint`), so an encoding is decoded by its own row; and a word that a row admits is, bit by bit, the encoding of
its own fields. -/

namespace Sys2Proof

/-! ### Bits of the pieces of an encoding -/

theorem flag_getLsbD (b : Bool) (j : Nat) : (flag b).getLsbD j = (decide (j = 0) && b) := by
  rw [flag, BitVec.getLsbD_ofBool]

theorem field_getLsbD (w : Word) (lo len j : Nat) : (field w lo len).getLsbD j = (decide (j < len) && w.getLsbD (lo + j)) :=
  BitVec.getLsbD_extractLsb' ..

theorem regBits_regField_getLsbD (w : Word) (lo j : Nat) :
    (regBits (regField w lo)).getLsbD j = (decide (j < 4) && w.getLsbD (lo + j)) := by
  rw [regField, regBits_of_toFin, field_getLsbD]

/-! ### The rows exclude each other -/

/-- A word that one row admits, no row admits that asks for another value of a bit both look at. -/
theorem fits_disjoint {w m v m' v' : Word} (h : fits w m v = true) (hd : m &&& m' &&& (v ^^^ v') ≠ 0) :
    fits w m' v' = false := by
  by_contra hf
  rw [Bool.not_eq_false] at hf
  refine hd (BitVec.eq_of_getLsbD_eq fun k hk => ?_)
  have h1 := fits_iff.mp h k hk
  have h2 := fits_iff.mp hf k hk
  simp only [BitVec.getLsbD_and, BitVec.getLsbD_xor, ← h1, ← h2, BitVec.ofNat_eq_ofNat, BitVec.getLsbD_zero]
  cases m.getLsbD k <;> cases m'.getLsbD k <;> simp

theorem fitsHalf_disjoint {w m v m' v' : Half} (h : fitsHalf w m v = true) (hd : m &&& m' &&& (v ^^^ v') ≠ 0) :
    fitsHalf w m' v' = false := by
  by_contra hf
  rw [Bool.not_eq_false] at hf
  refine hd (BitVec.eq_of_getLsbD_eq fun k hk => ?_)
  have h1 := fitsHalf_iff.mp h k hk
  have h2 := fitsHalf_iff.mp hf k hk
  simp only [BitVec.getLsbD_and, BitVec.getLsbD_xor, ← h1, ← h2, BitVec.ofNat_eq_ofNat, BitVec.getLsbD_zero]
  cases m.getLsbD k <;> cases m'.getLsbD k <;> simp

/-! ### An encoding is decoded by its own row -/

theorem imm16_split (imm16 : BitVec 16) : imm16.extractLsb' 4 12 ++ imm16.extractLsb' 0 4 = imm16 :=
  (BitVec.extractLsb'_append_extractLsb'_eq_extractLsb' (by rfl)).trans BitVec.extractLsb'_eq_self

theorem decodeArm_of_cond {w : Word} {c : Cond} (h : field w 28 4 = c.toBits) : decodeArm w = decodeConditional c w := by
  simp only [decodeArm, h, Cond.ofBits?_toBits]

theorem decodeArm_of_unconditional {w : Word} (h : field w 28 4 = 0b1111) : decodeArm w = decodeUnconditional w := by
  rw [decodeArm, h]
  rfl

/-- The mask and the value of the row of an ARM instruction; a Thumb instruction has none here. -/
def Instr.armRow : Instr → Word × Word
  | .srs .. => (0xFE5FFFE0, 0xF84D0500)
  | .rfe .. => (0xFE50FFFF, 0xF8100A00)
  | .cps .. => (0xFFF1FE20, 0xF1000000)
  | .svc .. => (0x0F000000, 0x0F000000)
  | .smc .. => (0x0FF000F0, 0x01600070)
  | .bkpt .. => (0xFFF000F0, 0xE1200070)
  | .udf .. => (0xFFF000F0, 0xE7F000F0)
  | .mrs .. => (0x0FBF0FFF, 0x010F0000)
  | .msr .. => (0x0FB0FFF0, 0x0120F000)
  | .movsPcLr .. => (0x0FFFFFFF, 0x01B0F00E)
  | .subsPcLr4 .. => (0x0FFFFFFF, 0x025EF004)
  | .subsPcLr8 .. => (0x0FFFFFFF, 0x025EF008)
  | .mov .. => (0x0FFF0FF0, 0x01A00000)
  | .add .. => (0x0FF00000, 0x02800000)
  | .sub .. => (0x0FF00000, 0x02400000)
  | .orr .. => (0x0FF00000, 0x03800000)
  | .bic .. => (0x0FF00000, 0x03C00000)
  | .ldr .. => (0x0F700000, 0x05100000)
  | .str .. => (0x0F700000, 0x05000000)
  | .ldm .. => (0x0E500000, 0x08100000)
  | .stm .. => (0x0E500000, 0x08000000)
  | .cpsThumb .. | .svcThumb .. | .bkptThumb .. | .udfThumb .. => (0, 0)

/-- Bits 31 to 28 of an ARM instruction (R101). -/
def Instr.condBits : Instr → BitVec 4
  | .svc c _ | .smc c _ | .movsPcLr c | .subsPcLr4 c | .subsPcLr8 c | .mrs c _ _ | .msr c _ _ _ | .mov c _ _
  | .add c _ _ _ _ | .sub c _ _ _ _ | .orr c _ _ _ _ | .bic c _ _ _ _ | .ldr c _ _ _ _ | .str c _ _ _ _
  | .ldm c _ _ _ _ | .stm c _ _ _ _ => c.toBits
  | .bkpt .. | .udf .. => Cond.al.toBits
  | .srs .. | .rfe .. | .cps .. | .cpsThumb .. | .svcThumb .. | .bkptThumb .. | .udfThumb .. => 0b1111

theorem fits_armRow {i : Instr} {w : Word} (h : encode i = .arm w) : fits w i.armRow.1 i.armRow.2 = true := by
  rw [fits_iff]
  intro k hk
  cases i with
  | cpsThumb | svcThumb | bkptThumb | udfThumb => cases h
  | srs | rfe | cps | svc | smc | bkpt | udf | mrs | msr | movsPcLr | subsPcLr4 | subsPcLr8 | mov | add | sub | orr | bic
  | ldr | str | ldm | stm =>
    cases h
    simp only [encodeDpi, encodeLs, encodeLsm, flag, BitVec.getLsbD_append]
    interval_cases k <;> simp [Instr.armRow]

theorem field_condBits {i : Instr} {w : Word} (h : encode i = .arm w) : field w 28 4 = i.condBits := by
  cases i with
  | cpsThumb | svcThumb | bkptThumb | udfThumb => cases h
  | srs | rfe | cps => cases h; simp (disch := decide) only [field, BitVec.extractLsb'_append_eq_of_le]; rfl
  | svc | smc | bkpt | udf | mrs | msr | movsPcLr | subsPcLr4 | subsPcLr8 | mov | add | sub | orr | bic
  | ldr | str | ldm | stm =>
    cases h
    simp (disch := decide) only [encodeDpi, encodeLs, encodeLsm, field, BitVec.extractLsb'_append_eq_of_le, Nat.reduceSub]
    exact BitVec.extractLsb'_eq_self

/-- An ARM word that encodes an instruction decodes to it: its row admits it, so no other row does, and its fields are
read back. -/
theorem decodeArm_encode {i : Instr} {w : Word} (h : encode i = .arm w) : decodeArm w = .instr i := by
  have hfit := fits_armRow h
  have hc := field_condBits h
  cases i with
  | cpsThumb | svcThumb | bkptThumb | udfThumb => cases h
  | srs | rfe | cps =>
    dsimp only [Instr.armRow] at hfit
    simp (disch := decide) only [decodeArm_of_unconditional hc, decodeUnconditional, fits_disjoint hfit, hfit, if_true,
      Bool.false_eq_true, if_false]
    cases h
    simp (disch := decide) only [field, regField, addrModeField, flag_getLsbD, BitVec.getLsbD_append,
      BitVec.extractLsb'_append_eq_of_add_le, BitVec.extractLsb'_append_eq_of_le, BitVec.extractLsb'_eq_self,
      Nat.reduceSub, Nat.reduceLT, reduceIte, decide_true, Bool.true_and, regBits_toFin, AddrMode.ofPU_pu]
  | bkpt | udf =>
    dsimp only [Instr.armRow] at hfit
    simp (disch := decide) only [decodeArm_of_cond (c := .al) hc, decodeConditional, fits_disjoint hfit, hfit, if_true,
      Bool.false_eq_true, if_false]
    cases h
    simp (disch := decide) only [field, imm16Field, imm16_split, BitVec.extractLsb'_append_eq_of_add_le,
      BitVec.extractLsb'_append_eq_of_le, BitVec.extractLsb'_eq_self, Nat.reduceSub]
  | movsPcLr | subsPcLr4 | subsPcLr8 =>
    dsimp only [Instr.armRow] at hfit
    simp (disch := decide) only [decodeArm_of_cond hc, decodeConditional, fits_disjoint hfit, hfit, if_true,
      Bool.false_eq_true, if_false]
  | svc | smc | mrs | msr | mov | add | sub | orr | bic | ldr | str | ldm | stm =>
    dsimp only [Instr.armRow] at hfit
    simp (disch := decide) only [decodeArm_of_cond hc, decodeConditional, fits_disjoint hfit, hfit, if_true,
      Bool.false_eq_true, if_false]
    cases h
    simp (disch := decide) only [encodeDpi, encodeLs, encodeLsm, field, regField, addrModeField, imm16Field, imm16_split,
      flag_getLsbD, BitVec.getLsbD_append, BitVec.extractLsb'_append_eq_of_add_le, BitVec.extractLsb'_append_eq_of_le,
      BitVec.extractLsb'_eq_self, Nat.reduceSub, Nat.reduceLT, reduceIte, decide_true, Bool.true_and, regBits_toFin,
      AddrMode.ofPU_pu]

/-- The mask and the value of the row of a Thumb instruction; an ARM instruction has none here. -/
def Instr.thumbRow : Instr → Half × Half
  | .cpsThumb .. => (0xFFE8, 0xB660)
  | .svcThumb .. => (0xFF00, 0xDF00)
  | .bkptThumb .. => (0xFF00, 0xBE00)
  | .udfThumb .. => (0xFF00, 0xDE00)
  | .srs .. | .rfe .. | .cps .. | .svc .. | .smc .. | .bkpt .. | .udf .. | .movsPcLr .. | .subsPcLr4 ..
  | .subsPcLr8 .. | .mrs .. | .msr .. | .mov .. | .add .. | .sub .. | .orr .. | .bic .. | .ldr .. | .str ..
  | .ldm .. | .stm .. => (0, 0)

theorem fitsHalf_thumbRow {i : Instr} {x : Half} (h : encode i = .thumb x) :
    fitsHalf x i.thumbRow.1 i.thumbRow.2 = true := by
  rw [fitsHalf_iff]
  intro k hk
  cases i with
  | cpsThumb | svcThumb | bkptThumb | udfThumb =>
    cases h
    simp only [flag, BitVec.getLsbD_append]
    interval_cases k <;> simp [Instr.thumbRow]
  | srs | rfe | cps | svc | smc | bkpt | udf | mrs | msr | movsPcLr | subsPcLr4 | subsPcLr8 | mov | add | sub | orr | bic
  | ldr | str | ldm | stm => cases h

theorem decodeThumb_encode {i : Instr} {x : Half} (h : encode i = .thumb x) : decodeThumb x = .instr i := by
  have hfit := fitsHalf_thumbRow h
  cases i with
  | cpsThumb | svcThumb | bkptThumb | udfThumb =>
    dsimp only [Instr.thumbRow] at hfit
    simp (disch := decide) only [decodeThumb, fitsHalf_disjoint hfit, hfit, if_true, Bool.false_eq_true, if_false]
    cases h
    simp (disch := decide) only [flag_getLsbD, BitVec.getLsbD_append, BitVec.extractLsb'_append_eq_of_add_le,
      BitVec.extractLsb'_eq_self, Nat.reduceSub, Nat.reduceLT, reduceIte, decide_true, Bool.true_and]
  | srs | rfe | cps | svc | smc | bkpt | udf | mrs | msr | movsPcLr | subsPcLr4 | subsPcLr8 | mov | add | sub | orr | bic
  | ldr | str | ldm | stm => cases h

/-- The execution state of an instruction is the kind of its encoding (R100). -/
theorem isThumb_iff_encode (i : Instr) :
    (i.isThumb = false ∧ ∃ w, encode i = .arm w) ∨ (i.isThumb = true ∧ ∃ x, encode i = .thumb x) := by
  cases i with
  | cpsThumb | svcThumb | bkptThumb | udfThumb => exact .inr ⟨rfl, _, rfl⟩
  | srs | rfe | cps | svc | smc | bkpt | udf | mrs | msr | movsPcLr | subsPcLr4 | subsPcLr8 | mov | add | sub | orr | bic
  | ldr | str | ldm | stm => exact .inl ⟨rfl, _, rfl⟩

/-- Settles O1. -/
theorem decodeInvertsEncode : Obligations.DecodeInvertsEncode := by
  intro i
  rcases isThumb_iff_encode i with ⟨ht, w, hw⟩ | ⟨ht, x, hx⟩
  · rw [ht, hw, decode_arm_bytes, decodeArm_encode hw]
  · rw [ht, hx, decode_thumb_bytes, decodeThumb_encode hx]

end Sys2Proof
end

section
/-! What decodes is the encoding of what it decodes to (spec/30_encoding.md R106), and what the condition field selects
(R101). -/

namespace Sys2Proof

/-- A word of the conditional space that decodes is the encoding, bit by bit: a bit that the row looks at is the row's,
any other is one of a field. -/
theorem encode_of_decodeConditional {c : Cond} {w : Word} {i : Instr} (hc : c.toBits = field w 28 4)
    (h : decodeConditional c w = .instr i) : encode i = .arm w := by
  unfold decodeConditional at h
  iterate 18 (rcases ite_instr h with ⟨hf, h⟩ | ⟨-, h⟩; rotate_left)
  · cases h
  all_goals
    cases h
    refine congrArg Encoding.arm (BitVec.eq_of_getLsbD_eq fun k hk => ?_)
    have hb := fits_iff.mp hf k hk
    simp only [encodeDpi, encodeLs, encodeLsm, hc, imm16Field, addrModeField, AddrMode.p_ofPU, AddrMode.u_ofPU,
      BitVec.getLsbD_append, BitVec.getLsbD_extractLsb', flag_getLsbD, field_getLsbD, regBits_regField_getLsbD]
    interval_cases k <;> simp at hb ⊢ <;> exact hb

theorem encode_of_decodeUnconditional {w : Word} {i : Instr} (h : decodeUnconditional w = .instr i) :
    encode i = .arm w := by
  unfold decodeUnconditional at h
  iterate 3 (rcases ite_instr h with ⟨hf, h⟩ | ⟨-, h⟩; rotate_left)
  · split at h <;> cases h
  all_goals
    cases h
    refine congrArg Encoding.arm (BitVec.eq_of_getLsbD_eq fun k hk => ?_)
    have hb := fits_iff.mp hf k hk
    simp only [addrModeField, AddrMode.p_ofPU, AddrMode.u_ofPU, BitVec.getLsbD_append, flag_getLsbD, field_getLsbD,
      regBits_regField_getLsbD]
    interval_cases k <;> simp at hb ⊢ <;> exact hb

theorem encode_of_decodeThumb {x : Half} {i : Instr} (h : decodeThumb x = .instr i) : encode i = .thumb x := by
  unfold decodeThumb at h
  iterate 4 (rcases ite_instr h with ⟨hf, h⟩ | ⟨-, h⟩; rotate_left)
  · split at h <;> cases h
  all_goals
    cases h
    refine congrArg Encoding.thumb (BitVec.eq_of_getLsbD_eq fun k hk => ?_)
    have hb := fitsHalf_iff.mp hf k hk
    simp only [BitVec.getLsbD_append, BitVec.getLsbD_extractLsb', flag_getLsbD]
    interval_cases k <;> simp at hb ⊢ <;> exact hb

/-- The condition field decides the space (R101, R106). -/
theorem decodeArm_cases {w : Word} {i : Instr} (h : decodeArm w = .instr i) :
    (field w 28 4 = 0b1111 ∧ decodeUnconditional w = .instr i) ∨
      ∃ c : Cond, c.toBits = field w 28 4 ∧ decodeConditional c w = .instr i := by
  unfold decodeArm at h
  cases hc : Cond.ofBits? (field w 28 4) with
  | none =>
    have hnone : ∀ b : BitVec 4, Cond.ofBits? b = none → b = 0b1111 := by decide
    rw [hc] at h
    exact .inl ⟨hnone _ hc, h⟩
  | some c =>
    rw [hc] at h
    exact .inr ⟨c, Cond.toBits_of_ofBits? hc, h⟩

theorem encode_of_decodeArm {w : Word} {i : Instr} (h : decodeArm w = .instr i) : encode i = .arm w := by
  rcases decodeArm_cases h with ⟨_, h⟩ | ⟨c, hc, h⟩
  · exact encode_of_decodeUnconditional h
  · exact encode_of_decodeConditional hc h

theorem isThumb_of_encode_arm {i : Instr} {w : Word} (h : encode i = .arm w) : i.isThumb = false := by
  rcases isThumb_iff_encode i with ⟨ht, _⟩ | ⟨_, x, hx⟩
  · exact ht
  · cases h.symm.trans hx

theorem isThumb_of_encode_thumb {i : Instr} {x : Half} (h : encode i = .thumb x) : i.isThumb = true := by
  rcases isThumb_iff_encode i with ⟨_, w, hw⟩ | ⟨ht, _⟩
  · cases h.symm.trans hw
  · exact ht

/-- The bytes of a word that is made of four bytes are these. -/
theorem bytes_of_append (b0 b1 b2 b3 : Byte) : (Encoding.arm (b3 ++ b2 ++ b1 ++ b0)).bytes = [b0, b1, b2, b3] := by
  simp (disch := decide) only [Encoding.bytes, BitVec.extractLsb'_append_eq_of_add_le,
    BitVec.extractLsb'_append_eq_of_le, BitVec.extractLsb'_eq_self, Nat.reduceSub]

theorem bytes_of_halfAppend (b0 b1 : Byte) : (Encoding.thumb (b1 ++ b0)).bytes = [b0, b1] := by
  simp (disch := decide) only [Encoding.bytes, BitVec.extractLsb'_append_eq_of_add_le,
    BitVec.extractLsb'_append_eq_of_le, BitVec.extractLsb'_eq_self, Nat.reduceSub]

/-- Settles O2: bytes of the right number are a word or a halfword, whose encoding they are. -/
theorem decodedBytesAreTheEncoding : Obligations.DecodedBytesAreTheEncoding := by
  intro thumb bytes i h
  unfold decode at h
  split at h
  · next b0 b1 b2 b3 =>
    have he := encode_of_decodeArm h
    exact ⟨isThumb_of_encode_arm he, by rw [he, bytes_of_append]⟩
  · next b0 b1 =>
    have he := encode_of_decodeThumb h
    exact ⟨isThumb_of_encode_thumb he, by rw [he, bytes_of_halfAppend]⟩
  · cases h

/-- Settles O3. -/
theorem workedExampleWordsDecode : Obligations.WorkedExampleWordsDecode := by
  refine ⟨?_, ?_, ?_, ?_, ?_, ?_, ?_, ?_, ?_, ?_, ?_, ?_, ?_⟩ <;> rfl

/-! ### The condition field -/

theorem condBits_of_condOf {i : Instr} {c : Cond} (h : Machine.condOf i = some c) : i.condBits = c.toBits := by
  cases i with
  | srs | rfe | cps | bkpt | udf | cpsThumb | svcThumb | bkptThumb | udfThumb => cases h
  | svc | smc | mrs | msr | movsPcLr | subsPcLr4 | subsPcLr8 | mov | add | sub | orr | bic | ldr | str | ldm | stm =>
    cases h
    rfl

/-- Only SRS, RFE and CPS stand in the unconditional space. -/
theorem condBits_eq_unconditional {i : Instr} (ht : i.isThumb = false) :
    i.condBits = 0b1111 ↔ ∃ am wb m rn im mm a it f,
      i = .srs am wb m ∨ i = .rfe am wb rn ∨ i = .cps im mm a it f m := by
  cases i with
  | cpsThumb | svcThumb | bkptThumb | udfThumb => cases ht
  | srs am wb m => exact iff_of_true rfl ⟨am, wb, m, 0, 0, false, false, false, false, .inl rfl⟩
  | rfe am wb rn => exact iff_of_true rfl ⟨am, wb, 0, rn, 0, false, false, false, false, .inr (.inl rfl)⟩
  | cps im mm a it f m => exact iff_of_true rfl ⟨.ia, false, m, 0, im, mm, a, it, f, .inr (.inr rfl)⟩
  | bkpt | udf => simp [Instr.condBits, Cond.toBits]
  | svc | smc | mrs | msr | movsPcLr | subsPcLr4 | subsPcLr8 | mov | add | sub | orr | bic | ldr | str | ldm | stm =>
    exact iff_of_false (Cond.toBits_ne _) (by simp)

end Sys2Proof

namespace Sys2Proof.Machine

/-- An instruction whose condition fails only goes on to the next one (R101). -/
theorem exec_of_condFails {i : Instr} {c : Cond} {s : State} (hi : condOf i = some c)
    (hc : condHolds c s.cpsr = false) : exec i s = advance 4 s := by
  cases i with
  | srs | rfe | cps | bkpt | udf | cpsThumb | svcThumb | bkptThumb | udfThumb => cases hi
  | svc | smc | mrs | msr | movsPcLr | subsPcLr4 | subsPcLr8 | mov | add | sub | orr | bic | ldr | str | ldm | stm =>
    cases hi
    simp only [exec, execSvc, execSmc, execMrs, execMsr, execMovsPcLr, execSubsPcLr4, execSubsPcLr8, execMov, execAdd,
      execSub, execOrr, execBic, execLdr, execStr, execLdm, execStm, conditional_of_fails hc]

/-- Settles O5: the table, the failing condition, and the two readings of bits 31 to 28. -/
theorem conditionField : Obligations.ConditionField := by
  refine ⟨fun p => ?table, fun i c s hi hc ha => ?fails, fun w i h => ?space, fun w i c h hi => ?bits⟩
  case table => simp [condHolds]
  case fails => rw [exec_of_condFails hi hc, advance_of_lt ha]; rfl
  case space =>
    have he := encode_of_decodeArm h
    have hbits : w.extractLsb' 28 4 = i.condBits := field_condBits he
    rw [hbits]
    exact condBits_eq_unconditional (isThumb_of_encode_arm he)
  case bits =>
    have hbits : w.extractLsb' 28 4 = i.condBits := field_condBits (encode_of_decodeArm h)
    rw [hbits, condBits_of_condOf hi]
    cases c <;> rfl

end Sys2Proof.Machine
end

section
/-! Registers, modes and the frame of an instruction (spec/10_state.md R21 to R27): what a result written to a register
leaves unchanged, and the statements about register numbers and mode numbers. -/

namespace Sys2Proof.Machine

/-! ### Register selection and mode numbers -/

/-- Two modes share a bank only if they are User and System (R21). -/
theorem Mode.bank_eq_iff {m m' : Mode} :
    m.bank = m'.bank ↔ m = m' ∨ (m = .user ∧ m' = .system) ∨ (m = .system ∧ m' = .user) := by
  cases m <;> cases m' <;> simp [Mode.bank]

/-- Settles O7. -/
theorem registerSelection : Obligations.RegisterSelection := by
  refine ⟨fun m n => ⟨fun h => ?_, fun ⟨hl, hh⟩ => ?_, fun h => ?_, fun h => ?_, fun h => ?_⟩, fun _ _ => Mode.bank_eq_iff,
    fun s n k v => ⟨?_, fun hk => ?_⟩, fun _ _ _ => rfl⟩
  · simp [physReg, h]
  · simp [physReg, hh, show ¬n.val < 8 by omega]
  · rw [h, physReg_sp]
  · rw [h, physReg_lr]
  · rw [h, physReg_pc]
  · rw [reg_setReg, if_pos rfl]
  · rw [reg_setReg, if_neg hk]

/-- A word whose mode field names no mode is no CPSR (R26). -/
theorem Psr.ofWord?_eq_none {w : Word} (h : ∀ m : Mode, m.toBits ≠ w.extractLsb' 0 5) : Psr.ofWord? w = none := by
  rw [Psr.ofWord?, Option.map_eq_none_iff, Option.eq_none_iff_forall_ne_some]
  exact fun m hm => h m (Mode.toBits_of_ofBits? hm)

theorem restoredPsr_notAMode {s : State} {w : Word} (h : ∀ m : Mode, m.toBits ≠ w.extractLsb' 0 5) :
    restoredPsr s w = .error .notAMode := by
  rw [restoredPsr, Psr.ofWord?_eq_none h]

theorem exceptionReturn_error {r w : Word} {s : State} {e : Refusal} (hw : s.curSpsr = some w)
    (he : restoredPsr s w = .error e) : exceptionReturn r s = .refused e := by
  simp only [exceptionReturn, hw, he]

/-- Settles O8. -/
theorem modeNumbers : Obligations.ModeNumbers := by
  refine ⟨rfl, rfl, rfl, rfl, rfl, rfl, rfl, rfl, fun b m => ⟨Mode.toBits_of_ofBits?, ?_⟩, fun s w h => ?_⟩
  · rintro rfl
    exact Mode.ofBits?_toBits m
  · exact ⟨restoredPsr_notAMode h, fun hw _ => exceptionReturn_error hw (restoredPsr_notAMode h)⟩

/-- Settles O10: what ends in an entry has kept the hidden registers before it, and the entry writes R14 of its mode. -/
theorem hiddenBanksAreKept : Obligations.HiddenBanksAreKept := by
  intro i s t hi h p hp
  have hsrs : isSrs i = false := by
    cases i with
    | srs am wb m => exact absurd rfl (hi am wb m)
    | _ => rfl
  rcases exec_next h with hc | ⟨u, hu, ⟨x, ret, rfl⟩ | rfl⟩
  · exact .inl (hc.hidden hsrs p hp)
  · by_cases hpl : p = .lr (takeException x ret u).cpsr.mode.bank
    · exact .inr ⟨hpl, by rw [takeException_curSpsr, hu.cpsr]⟩
    · exact .inl ((takeException_sameRegsBut x ret u p (by simpa using hpl)).trans (hu.hidden p hp))
  · exact .inl (hu.hidden p hp)

/-! ### The frame of an instruction -/

/-- New general registers, PC and CPSR: the rest is as it was. -/
theorem keepsAllBut_of_regs {except : List PhysReg} {s : State} {r : RegFile} (p : Psr) (a : Word)
    (h : ∀ q, q ∉ except → r.get q = s.regs.get q) :
    keepsAllBut except s { s with regs := r, cpsr := p, pc := a } :=
  ⟨h, rfl, ⟨rfl, rfl, rfl, rfl, rfl, rfl, rfl, rfl, rfl, rfl, rfl⟩, fun _ => rfl, rfl,
    rfl, rfl, rfl, rfl, rfl, rfl, rfl, rfl⟩

/-- New PC and CPSR: the rest is as it was. -/
theorem keepsAllBut_status (except : List PhysReg) (s : State) (p : Psr) (a : Word) :
    keepsAllBut except s { s with cpsr := p, pc := a } :=
  keepsAllBut_of_regs p a fun _ _ => rfl

theorem dest_eq {s : State} {n : RegNum} {p : PhysReg} (h : physReg s.cpsr.mode n = some p) : s.dest n = [p] := by
  simp [State.dest, h]

theorem exists_physReg (m : Mode) {n : RegNum} (h : n ≠ 15) : ∃ p, physReg m n = some p :=
  Option.ne_none_iff_exists'.mp fun hn => h (physReg_eq_none.mp hn)

/-- A register other than the PC written, and then the next instruction. -/
theorem advance_setReg {rd : RegNum} {s : State} (hrd : rd ≠ 15) (ha : s.canAdvance 4) (v : Word) :
    ∃ t, advance 4 (s.setReg rd v) = .next t ∧ t.reg rd = v ∧ t.pc = s.pc + 4 ∧ t.cpsr = s.cpsr ∧
      keepsAllBut (s.dest rd) s t := by
  obtain ⟨p, hp⟩ := exists_physReg s.cpsr.mode hrd
  rw [setReg_eq hp, dest_eq hp]
  refine ⟨_, advance_of_lt ha, ?_, rfl, rfl, keepsAllBut_of_regs _ _ fun q hq => ?_⟩
  · have hreg : ({ s with regs := s.regs.set p v, pc := s.pc + 4 } : State).reg rd = (s.regs.set p v).get p := reg_eq hp
    exact hreg.trans (RegFile.get_set_same ..)
  · exact RegFile.get_set_other _ _ (by simpa using hq)

/-- A new CPSR, and then the next instruction. -/
theorem advance_cpsr {len : Nat} {s : State} (ha : s.canAdvance len) (p : Psr) :
    ∃ t, advance len { s with cpsr := p } = .next t ∧ t.pc = s.pc + BitVec.ofNat 32 len ∧ t.cpsr = p ∧
      keepsAllBut [] s t :=
  ⟨_, advance_of_lt ha, rfl, rfl, keepsAllBut_status [] s p _⟩

/-- Past the top of memory there is no next instruction (D12). -/
theorem advance_pastTop {len : Nat} {s : State} (ha : ¬s.canAdvance len) : advance len s = .fault .pastTop :=
  if_neg ha

/-! ### Data processing -/

theorem writeResult_of_ne {rd : RegNum} (h : rd ≠ 15) (v : Word) (s : State) :
    writeResult rd v s = advance 4 (s.setReg rd v) := if_neg h

theorem writeResult_pc (v : Word) (s : State) : writeResult 15 v s = .refused .destinationIsPc := rfl

/-- The five data-processing instructions write their result and go on (R181 to R185). -/
theorem exec_dataProcessing {c : Cond} {s : State} (hc : condHolds c s.cpsr = true) (rd r : RegNum) (rot : BitVec 4)
    (imm8 : BitVec 8) :
    exec (.mov c rd r) s = writeResult rd (operand r s) s ∧
    exec (.add c rd r rot imm8) s = writeResult rd (operand r s + imm32 rot imm8) s ∧
    exec (.sub c rd r rot imm8) s = writeResult rd (operand r s - imm32 rot imm8) s ∧
    exec (.orr c rd r rot imm8) s = writeResult rd (operand r s ||| imm32 rot imm8) s ∧
    exec (.bic c rd r rot imm8) s = writeResult rd (operand r s &&& ~~~(imm32 rot imm8)) s := by
  simp only [exec, execMov, execAdd, execSub, execOrr, execBic, conditional_of_holds hc, and_self]

/-- Settles O31: each result is the one the statement gives on numbers or bits. -/
theorem dataProcessingResults : Obligations.DataProcessingResults := by
  intro c rd r rot imm8 op imm v i s hop himm hi hc hrd ha
  obtain ⟨hmov, hadd, hsub, horr, hbic⟩ := exec_dataProcessing hc rd r rot imm8
  obtain rfl : operand r s = op := hop.symm
  obtain rfl : imm32 rot imm8 = imm := himm.symm
  rw [writeResult_of_ne hrd] at hmov hadd hsub horr hbic
  have hexec : exec i s = advance 4 (s.setReg rd v) := by
    rcases hi with ⟨rfl, rfl⟩ | ⟨rfl, hv⟩ | ⟨rfl, hv⟩ | ⟨rfl, hv⟩ | ⟨rfl, hv⟩
    · exact hmov
    · rw [hadd, BitVec.eq_of_toNat_eq (hv.trans (BitVec.toNat_add ..).symm)]
    · have hlt := (imm32 rot imm8).isLt
      rw [hsub, show v = operand r s - imm32 rot imm8 from BitVec.eq_of_toNat_eq (by rw [hv, BitVec.toNat_sub]; congr 1; omega)]
    · rw [horr, show v = operand r s ||| imm32 rot imm8 from BitVec.eq_of_getLsbD_eq fun k _ => by rw [hv, BitVec.getLsbD_or]]
    · rw [hbic, show v = operand r s &&& ~~~(imm32 rot imm8) from BitVec.eq_of_getLsbD_eq fun k hk => by
        rw [hv, BitVec.getLsbD_and, BitVec.getLsbD_not, decide_eq_true hk, Bool.true_and]]
  rw [hexec]
  exact advance_setReg hrd ha v

end Sys2Proof.Machine
end

section
/-! Exception-generating instructions, returns, CPS and the status register moves (spec/40 to spec/43). -/

namespace Sys2Proof.Machine

/-! ### The instructions whose whole effect is an exception -/

theorem exec_svc {c : Cond} {s : State} (hc : condHolds c s.cpsr = true) (imm24 : BitVec 24) :
    exec (.svc c imm24) s = .next (takeException .svc (s.pc + 4) s) := by
  simp only [exec, execSvc, conditional_of_holds hc]

theorem exec_smc {c : Cond} {s : State} (hc : condHolds c s.cpsr = true) (imm16 : BitVec 16) :
    exec (.smc c imm16) s =
      .next (takeException (if s.cpsr.mode = .user then .undefined else .smc) (s.pc + 4) s) := by
  simp only [exec, execSmc, conditional_of_holds hc]

/-- Settles O15. -/
theorem svcEntersSupervisorMode : Obligations.SvcEntersSupervisorMode := by
  intro s
  have entry : ∀ ret, (takeException .svc ret s).cpsr.mode = .supervisor ∧
      (takeException .svc ret s).regs.lr.svc = ret ∧ (takeException .svc ret s).spsr.svc = s.cpsr.toWord ∧
      (takeException .svc ret s).cpsr.f = s.cpsr.f ∧ (takeException .svc ret s).cpsr.a = s.cpsr.a := fun ret => by
    rw [takeException_regs, takeException_spsr, takeException_cpsr_of_unrouted ret (by simp [Exception.toMonitor])]
    exact ⟨rfl, rfl, rfl, by simp, by simp [Exception.mode]⟩
  refine ⟨fun c imm24 hc => ⟨_, exec_svc hc imm24, rfl, entry _⟩, fun imm8 => ⟨_, rfl, rfl, ?_⟩⟩
  obtain ⟨hm, hlr, hsp, hf, ha⟩ := entry (s.pc + 2)
  exact ⟨hm, hlr, hsp, takeException_t .., hf, ha⟩

/-- Settles O16. -/
theorem smcEntersMonitorMode : Obligations.SmcEntersMonitorMode := by
  intro c imm16 s hc hm
  have hr : Exception.smc.toMonitor s.scr = true := rfl
  have hexec := exec_smc hc imm16
  rw [if_neg hm] at hexec
  obtain ⟨hlr, hsp⟩ := takeException_monitorBank (s.pc + 4) hr
  refine ⟨_, hexec, rfl, by rw [takeException_cpsr_of_routed _ hr], hlr, hsp, by rw [takeException_cpsr_of_routed _ hr],
    by rw [takeException_cpsr_of_routed _ hr], by rw [takeException_cpsr_of_routed _ hr],
    by rw [takeException_cpsr_of_routed _ hr], ?_, ?_⟩
  · rw [takeException_pc_eq_vector, hr, vector_routed]
    rfl
  · rw [takeException_scr, leaveNonSecure]
    split <;> rfl

/-- The Undefined instruction entry: never to Secure Monitor mode, and with NS kept outside it. -/
theorem takeException_undefined (ret : Word) (s : State) :
    (takeException .undefined ret s).cpsr.mode = .undefined ∧ (takeException .undefined ret s).regs.lr.und = ret ∧
      (takeException .undefined ret s).spsr.und = s.cpsr.toWord := by
  rw [takeException_regs, takeException_spsr, takeException_mode]
  exact ⟨rfl, rfl, rfl⟩

/-- SRS that names Secure Monitor mode in the Non-secure world (R130). -/
theorem execSrs_undefined {s : State} (am : AddrMode) (wb : Bool) (hw : s.world = .nonSecure) :
    exec (.srs am wb Mode.monitor.toBits) s = .next (takeException .undefined (s.pc + 4) s) := by
  simp only [exec, execSrs, Mode.ofBits?_toBits, hw, decide_true, Bool.true_and, if_true]

/-- Settles O17. -/
theorem smcAndSrsUndefinedCases : Obligations.SmcAndSrsUndefinedCases := by
  intro i s hi
  have hne : s.cpsr.mode ≠ .monitor := by
    rcases hi with ⟨c, imm16, rfl, hc, hm⟩ | ⟨am, wb, rfl, hw⟩
    · simp [hm]
    · exact nonSecure_mode hw
  have hexec : exec i s = .next (takeException .undefined (s.pc + 4) s) := by
    rcases hi with ⟨c, imm16, rfl, hc, hm⟩ | ⟨am, wb, rfl, hw⟩
    · rw [exec_smc hc, if_pos hm]
    · exact execSrs_undefined am wb hw
  obtain ⟨hm, hlr, hsp⟩ := takeException_undefined (s.pc + 4) s
  have hregs := takeException_sameRegsBut .undefined (s.pc + 4) s
  rw [hm] at hregs
  exact ⟨_, hexec, rfl, hm, hlr, hsp, by rw [takeException_scr, leaveNonSecure_of_ne hne], hregs, takeException_mem ..⟩

/-- Settles O19. -/
theorem udfEntersUndefinedMode : Obligations.UdfEntersUndefinedMode := fun s =>
  ⟨fun _ => ⟨_, rfl, rfl, takeException_undefined (s.pc + 4) s⟩, fun _ => ⟨_, rfl, rfl, takeException_undefined (s.pc + 2) s⟩⟩

/-! ### Returns -/

/-- `i` is the return instruction that subtracts `offset`, under the condition `c` (R151 to R153). -/
def isReturn (i : Instr) (c : Cond) (offset : Word) : Prop :=
  (i = .movsPcLr c ∧ offset = 0) ∨ (i = .subsPcLr4 c ∧ offset = 4) ∨ (i = .subsPcLr8 c ∧ offset = 8)

theorem exec_return {i : Instr} {c : Cond} {offset : Word} {s : State} (hi : isReturn i c offset)
    (hc : condHolds c s.cpsr = true) : exec i s = exceptionReturn (s.lr - offset) s := by
  rcases hi with ⟨rfl, rfl⟩ | ⟨rfl, rfl⟩ | ⟨rfl, rfl⟩
  · exact (conditional_of_holds hc _).trans (by simp)
  · exact conditional_of_holds hc _
  · exact conditional_of_holds hc _

/-- Settles O20. -/
theorem returnInstructionsComplete : Obligations.ReturnInstructionsComplete := by
  intro i c offset w p s hi hc hw hp hj hm
  have hr := restoredPsr_of_word (s := s) (Psr.ofWord?_eq_some.mpr hp) hj hm
  simp only [State.mayChangeA_iff, State.mayChangeF_iff] at hr
  refine ⟨_, (exec_return hi hc).trans (exceptionReturn_of hw hr), rfl, rfl, keepsAllBut_status ..⟩

/-- What an entry that ends in the Non-secure world began as: it stayed there, in a mode other than Secure Monitor. -/
theorem takeException_nonSecure {x : Exception} {ret : Word} {s : State} (h : (takeException x ret s).world = .nonSecure) :
    s.world = .nonSecure ∧ ¬x.toMonitor s.scr = true := by
  obtain ⟨hns, hm⟩ := world_eq_nonSecure.mp h
  rw [takeException_mode, ne_eq, Exception.enters_eq_monitor] at hm
  refine ⟨?_, hm⟩
  by_contra hw
  rw [takeException_scr, leaveNonSecure] at hns
  split at hns
  · cases hns
  · next hne => exact hw (world_eq_nonSecure.mpr ⟨hns, hne⟩)

/-- Where the world after an entry may not change A, the entry has not (R29). -/
theorem takeException_a {x : Exception} {ret : Word} {s : State} (h : ¬(takeException x ret s).mayChangeA = true) :
    (takeException x ret s).cpsr.a = s.cpsr.a := by
  rw [State.mayChangeA_iff, not_or, ← ne_eq, world_ne_secure] at h
  obtain ⟨hw, haw⟩ := h
  obtain ⟨hws, hr⟩ := takeException_nonSecure hw
  rw [takeException_scr_of_nonSecure x ret hws] at haw
  rw [takeException_cpsr_of_unrouted ret hr]
  simp [hws, haw]

/-- Where the world after an entry may not change F, the entry has not (R28). -/
theorem takeException_f {x : Exception} {ret : Word} {s : State} (h : ¬(takeException x ret s).mayChangeF = true) :
    (takeException x ret s).cpsr.f = s.cpsr.f := by
  rw [State.mayChangeF_iff, not_or, ← ne_eq, world_ne_secure] at h
  obtain ⟨hw, hfw⟩ := h
  obtain ⟨hws, hr⟩ := takeException_nonSecure hw
  rw [takeException_scr_of_nonSecure x ret hws] at hfw
  rw [takeException_cpsr_of_unrouted ret hr]
  simp [hws, hfw]

/-- The CPSR of before an entry is one that a return right after it restores whole (R154, R155). -/
theorem restoredPsr_takeException (x : Exception) (ret : Word) {s : State} (hj : s.cpsr.j = false) :
    restoredPsr (takeException x ret s) s.cpsr.toWord = .ok s.cpsr := by
  rw [restoredPsr_of_word (Psr.ofWord?_toWord _) hj fun hw => nonSecure_mode (takeException_nonSecure hw).1]
  have ha : (if (takeException x ret s).mayChangeA = true then s.cpsr.a else (takeException x ret s).cpsr.a) = s.cpsr.a :=
    ite_eq_left_iff.mpr takeException_a
  have hf : (if (takeException x ret s).mayChangeF = true then s.cpsr.f else (takeException x ret s).cpsr.f) = s.cpsr.f :=
    ite_eq_left_iff.mpr takeException_f
  rw [ha, hf]

/-- A return after an entry comes back to where the entry was made. -/
theorem exceptionReturn_takeException (x : Exception) (ret r : Word) {s : State} (hj : s.cpsr.j = false) :
    exceptionReturn r (takeException x ret s) = .next { takeException x ret s with cpsr := s.cpsr, pc := r } :=
  exceptionReturn_of (takeException_curSpsr ..) (restoredPsr_takeException x ret hj)

theorem exec_return_takeException {i : Instr} {offset : Word} (hi : isReturn i .al offset) (x : Exception) (ret : Word)
    {s : State} (hj : s.cpsr.j = false) :
    exec i (takeException x ret s) = .next { takeException x ret s with cpsr := s.cpsr, pc := ret - offset } := by
  rw [exec_return hi rfl, takeException_lr, exceptionReturn_takeException x ret _ hj]

/-- Settles O14. -/
theorem returnUndoesEntry : Obligations.ReturnUndoesEntry := by
  intro x ret s i offset hj hi
  refine ⟨_, exec_return_takeException hi x ret hj, rfl, rfl, takeException_sameRegsBut x ret s, fun a => ?_⟩
  exact congrArg (readByte · a) (takeException_mem x ret s)

/-- Settles O18. -/
theorem bkptEntersAbortMode : Obligations.BkptEntersAbortMode := by
  intro i s hi
  have hexec : exec i s = breakpoint s := by rcases hi with ⟨imm16, rfl⟩ | ⟨imm8, rfl⟩ <;> rfl
  rw [hexec]
  refine ⟨fun hd => ?_, fun hd => if_pos hd⟩
  have hmode : (takeException (.prefetchAbort .breakpoint) (s.pc + 4) s).cpsr.mode = .abort := takeException_mode ..
  refine ⟨_, if_neg (by simp [hd]), rfl, hmode, ?_, ?_, rfl, fun hj => ?_⟩
  · rw [takeException_regs]; rfl
  · rw [takeException_spsr]; rfl
  · refine ⟨_, exec_return_takeException (offset := 4) (.inr (.inl ⟨rfl, rfl⟩)) _ _ hj, ?_, rfl⟩
    exact BitVec.add_sub_cancel s.pc 4

end Sys2Proof.Machine
end

section
/-! CPS, the status register moves and ADR (spec/40, spec/43, spec/30_encoding.md R109), and what is refused for want of an
SPSR. -/

namespace Sys2Proof.Machine

/-! ### CPS -/

/-- The reserved combinations are those the well-formedness check leaves out (R107). -/
theorem cpsReserved_eq (imod : BitVec 2) (mmod a i f : Bool) (mode : BitVec 5) :
    cpsReserved imod mmod a i f mode = !cpsFieldsOk imod mmod a i f mode := by
  revert imod mmod a i f mode
  simp only [cpsReserved, cpsFieldsOk]
  decide

theorem execCps_reserved {imod : BitVec 2} {mmod a i f : Bool} {mode : BitVec 5} (s : State)
    (h : cpsFieldsOk imod mmod a i f mode = false) : exec (.cps imod mmod a i f mode) s = .refused .reservedFields := by
  simp only [exec, execCps, cpsReserved_eq, h, Bool.not_false, if_true]

theorem execCps_user {imod : BitVec 2} {mmod a i f : Bool} {mode : BitVec 5} {s : State}
    (h : cpsFieldsOk imod mmod a i f mode = true) (hm : s.cpsr.mode = .user) :
    exec (.cps imod mmod a i f mode) s = advance 4 s := by
  simp [exec, execCps, cpsReserved_eq, h, hm, Mode.privileged]

/-- The CPSR that CPS leaves in a privileged mode, with the mode `m`. -/
def cpsPsr (imod : BitVec 2) (a i f : Bool) (m : Mode) (s : State) : Psr :=
  { (if imod.getLsbD 1 then changeMasks (imod.getLsbD 0) a i f s else s.cpsr) with mode := m }

theorem execCps_privileged {imod : BitVec 2} {mmod a i f : Bool} {mode : BitVec 5} {m : Mode} {s : State}
    (h : cpsFieldsOk imod mmod a i f mode = true) (hp : s.cpsr.mode ≠ .user)
    (hm : mmod = true → m.toBits = mode) (hm' : mmod = false → m = s.cpsr.mode)
    (hw : s.world = .nonSecure → m ≠ .monitor) :
    exec (.cps imod mmod a i f mode) s = advance 4 { s with cpsr := cpsPsr imod a i f m s } := by
  have hp' := Mode.privileged_iff.mpr hp
  cases mmod with
  | false =>
    have hsame : cpsPsr imod a i f s.cpsr.mode s =
        if imod.getLsbD 1 then changeMasks (imod.getLsbD 0) a i f s else s.cpsr := by
      unfold cpsPsr
      split <;> rfl
    rw [hm' rfl, hsame]
    simp [exec, execCps, cpsReserved_eq, h, hp']
  | true =>
    obtain rfl := hm rfl
    have hmon : (decide (s.world = .nonSecure) && decide (m = .monitor)) = false := by simpa using hw
    simp [exec, execCps, cpsReserved_eq, h, hp', hmon, cpsPsr]

theorem cpsPsr_eq (imod : BitVec 2) (a i f : Bool) (m : Mode) (s : State) :
    cpsPsr imod a i f m s = { s.cpsr with
      mode := m
      a := (if imod.getLsbD 1 ∧ a ∧ (s.world = .secure ∨ s.scr.aw) then imod.getLsbD 0 else s.cpsr.a)
      i := (if imod.getLsbD 1 ∧ i then imod.getLsbD 0 else s.cpsr.i)
      f := (if imod.getLsbD 1 ∧ f ∧ (s.world = .secure ∨ s.scr.fw) then imod.getLsbD 0 else s.cpsr.f) } := by
  unfold cpsPsr
  cases imod.getLsbD 1 with
  | false => simp
  | true => simp [changeMasks, State.mayChangeA_iff, State.mayChangeF_iff]

/-- Settles O25. -/
theorem cpsChangesMasksAndMode : Obligations.CpsChangesMasksAndMode := by
  intro imod mmod a it f mode m s hok hp ha hm hm' hw
  rw [execCps_privileged hok hp hm hm' hw, ← cpsPsr_eq]
  exact advance_cpsr ha _

theorem execCpsThumb_reserved (im : Bool) (s : State) :
    exec (.cpsThumb im false false false) s = .refused .reservedFields := rfl

theorem execCpsThumb_user {im a i f : Bool} {s : State} (h : a = true ∨ i = true ∨ f = true) (hm : s.cpsr.mode = .user) :
    exec (.cpsThumb im a i f) s = advance 2 s := by
  have hor : (a || i || f) = true := by simpa [or_assoc] using h
  simp [exec, execCpsThumb, hor, hm, Mode.privileged]

theorem execCpsThumb_privileged {im a i f : Bool} {s : State} (h : a = true ∨ i = true ∨ f = true)
    (hm : s.cpsr.mode ≠ .user) : exec (.cpsThumb im a i f) s = advance 2 { s with cpsr := changeMasks im a i f s } := by
  have hor : (a || i || f) = true := by simpa [or_assoc] using h
  simp [exec, execCpsThumb, hor, Mode.privileged_iff.mpr hm]

/-- Settles O26. -/
theorem thumbCpsChangesMasks : Obligations.ThumbCpsChangesMasks := by
  intro im a it f s h hp ha
  rw [execCpsThumb_privileged h hp]
  have hpsr : changeMasks im a it f s = { s.cpsr with
      a := (if a ∧ (s.world = .secure ∨ s.scr.aw) then im else s.cpsr.a)
      i := (if it then im else s.cpsr.i)
      f := (if f ∧ (s.world = .secure ∨ s.scr.fw) then im else s.cpsr.f) } := by
    simp [changeMasks, State.mayChangeA_iff, State.mayChangeF_iff]
  rw [hpsr]
  exact advance_cpsr ha _

/-- Settles O27. -/
theorem cpsWithoutEffectOrRefused : Obligations.CpsWithoutEffectOrRefused := by
  intro imod mmod a it f mode s
  refine ⟨fun hok hm ha => (execCps_user hok hm).trans (advance_of_lt ha),
    fun im h hm ha => (execCpsThumb_user h hm).trans (advance_of_lt ha), execCps_reserved s,
    fun im => execCpsThumb_reserved im s, fun hok hp hmode => ?_, fun hok hp hw => ?_⟩
  · simp [exec, execCps, cpsReserved_eq, hok, Mode.privileged_iff.mpr hp, hmode]
  · have hmode : Mode.ofBits? 0b10110 = some .monitor := rfl
    simp only [exec, execCps, cpsReserved_eq, hok, Mode.privileged_iff.mpr hp, hmode, hw]
    rfl

/-! ### What needs an SPSR -/

theorem curSpsr_none {s : State} (h : s.cpsr.mode = .user ∨ s.cpsr.mode = .system) : s.curSpsr = none := by
  rcases h with h | h <;> simp [State.curSpsr, h, Mode.bank, SavedPsrs.get?]

theorem execSrs_notAMode {b : BitVec 5} (am : AddrMode) (wb : Bool) (s : State) (h : Mode.ofBits? b = none) :
    exec (.srs am wb b) s = .refused .notAMode := by
  simp only [exec, execSrs, h]

/-- SRS in a mode without SPSR (U24). -/
theorem execSrs_noSpsr {m : Mode} {s : State} (am : AddrMode) (wb : Bool) (hw : ¬(s.world = .nonSecure ∧ m = .monitor))
    (hs : s.curSpsr = none) : exec (.srs am wb m.toBits) s = .refused .noSpsr := by
  simp [exec, execSrs, hw, hs]

/-- SRS that names User or System mode (U23). -/
theorem execSrs_userBank {m : Mode} {s : State} (am : AddrMode) (wb : Bool) (hm : m = .user ∨ m = .system)
    (hs : s.curSpsr ≠ none) : exec (.srs am wb m.toBits) s = .refused .srsUserBank := by
  obtain ⟨w, hw⟩ := Option.ne_none_iff_exists'.mp hs
  have hmon : m ≠ .monitor := by rintro rfl; simp at hm
  simp [exec, execSrs, hmon, hw, hm]

/-! ### MRS -/

theorem exec_mrs_cpsr {c : Cond} {rd : RegNum} {s : State} (hc : condHolds c s.cpsr = true) (hrd : rd ≠ 15) :
    exec (.mrs c false rd) s = advance 4 (s.setReg rd s.cpsr.toWord) := by
  simp only [exec, execMrs, conditional_of_holds hc, if_neg hrd, Bool.false_eq_true, if_false]

theorem exec_mrs_spsr {c : Cond} {rd : RegNum} {w : Word} {s : State} (hc : condHolds c s.cpsr = true) (hrd : rd ≠ 15)
    (hw : s.curSpsr = some w) : exec (.mrs c true rd) s = advance 4 (s.setReg rd w) := by
  simp only [exec, execMrs, conditional_of_holds hc, if_neg hrd, if_true, hw]

theorem exec_mrs_noSpsr {c : Cond} {rd : RegNum} {s : State} (hc : condHolds c s.cpsr = true) (hrd : rd ≠ 15)
    (hs : s.curSpsr = none) : exec (.mrs c true rd) s = .refused .noSpsr := by
  simp only [exec, execMrs, conditional_of_holds hc, if_neg hrd, if_true, hs]

theorem exec_mrs_pc {c : Cond} {s : State} (hc : condHolds c s.cpsr = true) (r : Bool) :
    exec (.mrs c r 15) s = .refused .destinationIsPc := by
  simp only [exec, execMrs, conditional_of_holds hc, if_true]

/-- Settles O28. -/
theorem mrsReadsStatus : Obligations.MrsReadsStatus := by
  intro c r rd w s hc hrd hcpsr hspsr ha
  have hexec : exec (.mrs c r rd) s = advance 4 (s.setReg rd w) := by
    cases r with
    | false => rw [exec_mrs_cpsr hc hrd, hcpsr rfl]
    | true => exact exec_mrs_spsr hc hrd (hspsr rfl)
  rw [hexec]
  exact advance_setReg hrd ha w

/-! ### MSR -/

theorem exec_msr_noSpsr {c : Cond} {s : State} (hc : condHolds c s.cpsr = true) (fields : BitVec 4) (rm : RegNum)
    (hs : s.curSpsr = none) : exec (.msr c true fields rm) s = .refused .noSpsr := by
  simp only [exec, execMsr, conditional_of_holds hc, if_true, msrSpsr, hs]

/-- MSR of the SPSR writes the selected bytes of the three masks (R187). -/
theorem exec_msr_spsr {c : Cond} {w : Word} {s : State} (hc : condHolds c s.cpsr = true) (fields : BitVec 4) (rm : RegNum)
    (hw : s.curSpsr = some w) :
    exec (.msr c true fields rm) s = advance 4 { s with
      spsr := s.spsr.set s.cpsr.mode.bank (merge (byteMask fields &&& 0xF90F03FF) w (operand rm s)) } := by
  simp only [exec, execMsr, conditional_of_holds hc, if_true, msrSpsr, hw]
  rfl

theorem exec_msr_cpsr {c : Cond} {s : State} (hc : condHolds c s.cpsr = true) (fields : BitVec 4) (rm : RegNum) :
    exec (.msr c false fields rm) s = msrCpsr fields (operand rm s) s := by
  simp only [exec, execMsr, conditional_of_holds hc, Bool.false_eq_true, if_false]

theorem msrCpsr_stateBits {fields : BitVec 4} {v : Word} {s : State} (hp : s.cpsr.mode ≠ .user)
    (h : v &&& byteMask fields &&& stateMask ≠ 0) : msrCpsr fields v s = .refused .stateBitsWritten := by
  have hp' := Mode.privileged_iff.mpr hp
  simp only [msrCpsr, hp', Bool.true_and, decide_eq_true h, if_true]

/-- MSR to the CPSR of a word that leaves the CPSR `p` (R187). -/
theorem msrCpsr_of_merge {fields : BitVec 4} {v : Word} {p : Psr} {s : State}
    (hst : s.cpsr.mode ≠ .user → v &&& byteMask fields &&& stateMask = 0)
    (hmon : ¬(s.world = .nonSecure ∧ msrMask fields s &&& 0x1F ≠ 0 ∧ v.extractLsb' 0 5 = Mode.monitor.toBits))
    (hp : p.toWord = merge (msrMask fields s) s.cpsr.toWord v) :
    msrCpsr fields v s = advance 4 { s with cpsr := p } := by
  have h1 : ¬(s.cpsr.mode.privileged && decide (v &&& byteMask fields &&& stateMask ≠ 0)) = true := by
    rw [Bool.and_eq_true, Mode.privileged_iff, decide_eq_true_eq]
    exact fun ⟨hm, hne⟩ => hne (hst hm)
  have h2 : ¬(decide (s.world = .nonSecure) && decide (msrMask fields s &&& 0x1F ≠ 0) &&
      decide (v.extractLsb' 0 5 = Mode.monitor.toBits)) = true := by
    simpa only [Bool.and_eq_true, decide_eq_true_eq, and_assoc] using hmon
  simp only [msrCpsr, if_neg h1, if_neg h2, ← hp, Psr.ofWord?_toWord]

/-- The mask of MSR to the CPSR, as R187 gives it. -/
theorem msrMask_eq (fields : BitVec 4) (s : State) :
    msrMask fields s = (byteMask fields &&& if s.cpsr.mode = .user then 0xF80F0200 else 0xF80F03DF) &&&
      (if s.world = .nonSecure ∧ s.scr.aw = false then ~~~0x00000100 else 0xFFFFFFFF) &&&
      (if s.world = .nonSecure ∧ s.scr.fw = false then ~~~0x00000040 else 0xFFFFFFFF) := by
  have hpriv : (if s.cpsr.mode.privileged = true then userMask ||| privMask else userMask) =
      if s.cpsr.mode = .user then 0xF80F0200 else 0xF80F03DF := by
    by_cases hm : s.cpsr.mode = .user
    · rw [if_neg (by simp [Mode.privileged_iff, hm]), if_pos hm]; rfl
    · rw [if_pos (Mode.privileged_iff.mpr hm), if_neg hm]; rfl
  have hA : s.mayChangeA = true ↔ ¬(s.world = .nonSecure ∧ s.scr.aw = false) := by
    rw [State.mayChangeA_iff]
    cases s.world <;> cases s.scr.aw <;> simp
  have hF : s.mayChangeF = true ↔ ¬(s.world = .nonSecure ∧ s.scr.fw = false) := by
    rw [State.mayChangeF_iff]
    cases s.world <;> cases s.scr.fw <;> simp
  simp only [msrMask, hpriv, hA, hF, ite_not]

/-- Settles O29. -/
theorem msrWritesCpsr : Obligations.MsrWritesCpsr := by
  intro c fields rm op bytes mask p s hop hbytes hmask hc hst hmon hp ha
  obtain rfl : operand rm s = op := hop.symm
  obtain rfl : byteMask fields = bytes := hbytes.symm
  rw [← msrMask_eq] at hmask
  subst hmask
  rw [exec_msr_cpsr hc, msrCpsr_of_merge hst hmon hp]
  obtain ⟨t, ht, hpc, hcpsr, hkeep⟩ := advance_cpsr ha p
  exact ⟨t, ht, hcpsr, hpc, hkeep⟩

/-- Settles O30. -/
theorem msrWritesSpsr : Obligations.MsrWritesSpsr := by
  intro c fields rm op bytes w s hop hbytes hc hw ha
  obtain rfl : operand rm s = op := hop.symm
  obtain rfl : byteMask fields = bytes := hbytes.symm
  have hbank : s.cpsr.mode.bank ≠ .usr := fun hu => by
    rw [State.curSpsr, SavedPsrs.get?_eq_none.mpr hu] at hw
    cases hw
  refine ⟨_, (exec_msr_spsr hc fields rm hw).trans (advance_of_lt ha), ?_, fun b hb => SavedPsrs.get?_set_other _ _ hb,
    rfl, rfl, rfl, ⟨rfl, rfl, rfl, rfl, rfl, rfl, rfl, rfl, rfl, rfl, rfl⟩, fun _ => rfl, rfl,
    ⟨rfl, rfl, rfl, rfl, rfl, rfl, rfl, rfl⟩⟩
  exact (SavedPsrs.get?_set ..).trans (if_pos ⟨rfl, hbank⟩)

/-- Settles O21. -/
theorem noSpsrIsRefused : Obligations.NoSpsrIsRefused := by
  intro s c hm hc
  have hs := curSpsr_none hm
  have hret : ∀ {i offset}, isReturn i c offset → exec i s = .refused .noSpsr := fun hi => by
    rw [exec_return hi hc, exceptionReturn, hs]
  refine ⟨hret (.inl ⟨rfl, rfl⟩), hret (.inr (.inl ⟨rfl, rfl⟩)), hret (.inr (.inr ⟨rfl, rfl⟩)),
    fun rd hrd => exec_mrs_noSpsr hc hrd hs, fun fields rm => exec_msr_noSpsr hc fields rm hs, fun am wb m hmode hmon => ?_⟩
  obtain ⟨mode, hmode⟩ := Option.ne_none_iff_exists'.mp hmode
  obtain rfl := Mode.toBits_of_ofBits? hmode
  refine execSrs_noSpsr am wb ?_ hs
  rintro ⟨hw, rfl⟩
  exact hmon ⟨hw, rfl⟩

/-! ### ADR -/

/-- Rotating right undoes rotating left by as much. -/
theorem rotateRight_rotateLeft (v : Word) {r : Nat} (hr : r < 32) : (v.rotateLeft r).rotateRight r = v := by
  apply BitVec.eq_of_getLsbD_eq
  intro i hi
  rw [BitVec.getLsbD_rotateRight_of_lt hr, BitVec.getLsbD_rotateLeft_of_le hr, BitVec.getLsbD_rotateLeft_of_le hr]
  by_cases hlow : i < 32 - r
  · simp [hlow, show r + i < 32 by omega]
  · simp [hlow, hi, show i - (32 - r) < r by omega, show 32 - r + (i - (32 - r)) = i by omega]

/-- The immediate found for a word is the word (R104). -/
theorem imm32_of_dpiImmediate? {v : Word} {rot : BitVec 4} {imm8 : BitVec 8} (h : dpiImmediate? v = some (rot, imm8)) :
    imm32 rot imm8 = v := by
  obtain ⟨r, hr, hfound⟩ := List.exists_of_findSome?_eq_some h
  rw [List.mem_range] at hr
  simp only at hfound
  split at hfound
  · next hlt =>
    cases hfound
    have hrot : 2 * (BitVec.ofNat 4 r).toNat = 2 * r := by rw [BitVec.toNat_ofNat]; omega
    have hbyte : (BitVec.ofNat 8 (v.rotateLeft (2 * r)).toNat).setWidth 32 = v.rotateLeft (2 * r) :=
      BitVec.eq_of_toNat_eq (by
        rw [BitVec.toNat_setWidth, BitVec.toNat_ofNat]
        omega)
    rw [imm32, hrot, hbyte, rotateRight_rotateLeft v (by omega)]
  · cases hfound

/-- Settles O4: the expansion adds or subtracts the distance from `pc + 8`. -/
theorem adrExpansionWritesTheLabel : Obligations.AdrExpansionWritesTheLabel := by
  intro c rd label i s hi hrd hc ha
  have hbase : operand 15 s = s.pc + 8 := rfl
  have hexec : exec i s = advance 4 (s.setReg rd label) := by
    unfold expandAdr at hi
    simp only at hi
    split at hi
    · obtain ⟨⟨rot, imm8⟩, himm, rfl⟩ := Option.map_eq_some_iff.mp hi
      obtain ⟨-, hadd, -⟩ := exec_dataProcessing hc rd 15 rot imm8
      rw [hadd, hbase, imm32_of_dpiImmediate? himm, writeResult_of_ne hrd, add_sub_cancel]
    · obtain ⟨⟨rot, imm8⟩, himm, rfl⟩ := Option.map_eq_some_iff.mp hi
      obtain ⟨-, -, hsub, -⟩ := exec_dataProcessing hc rd 15 rot imm8
      rw [hsub, hbase, imm32_of_dpiImmediate? himm, writeResult_of_ne hrd, sub_sub_cancel]
  rw [hexec]
  exact advance_setReg hrd ha label

end Sys2Proof.Machine
end

section
/-! The boundary and R221 steps 2 to 6 (spec/60_exceptions.md R221, R237 to R243, spec/70_reset_and_hazards.md): which branch
a step takes, from what the boundary presents. -/

namespace Sys2Proof.Machine

/-! ### Tables -/

/-- Settles O6. -/
theorem addressingModeTable : Obligations.AddressingModeTable := fun _ _ =>
  ⟨rfl, rfl, rfl, rfl, rfl, rfl, rfl, rfl⟩

/-- Settles O54. -/
theorem resetStateValues : Obligations.ResetStateValues :=
  ⟨rfl, rfl, rfl, rfl, rfl, rfl, rfl, rfl, rfl, rfl, rfl, rfl, rfl, rfl⟩

/-! ### Reset, held or performed -/

theorem step_of_resetPhase {s : State} {o : Host.Outcome State Fault Refusal} (hl : legacyBigEndian s.params = false)
    (h : resetPhase (sample s.nextBoundary s) = some o) : step s = o := by
  simp only [step, cycle, hl, h, Bool.false_eq_true, if_false]

/-- Settles O53. -/
theorem resetHoldsThenForces : Obligations.ResetHoldsThenForces := by
  intro s hl
  refine ⟨fun h1 h2 => ?_, fun hr h1 h2 => ?_⟩
  · have hphase : resetPhase (sample s.nextBoundary s) = some (.next { sample s.nextBoundary s with inReset := true }) := by
      unfold resetPhase
      simp only [sample, h1, h2]
    exact ⟨_, step_of_resetPhase hl hphase, rfl, rfl, rfl, rfl, rfl, rfl, rfl, rfl, rfl, rfl, rfl, rfl, rfl, rfl, rfl, rfl,
      rfl⟩
  · have hphase : resetPhase (sample s.nextBoundary s) = some (.next (resetSequence (sample s.nextBoundary s))) := by
      unfold resetPhase
      simp only [sample, h1, h2, hr, if_true]
    exact ⟨_, step_of_resetPhase hl hphase, rfl, rfl, rfl, rfl, rfl, rfl, rfl, rfl, rfl, rfl, rfl, rfl, rfl, rfl⟩

/-! ### A boundary without reset -/

/-- The boundary is not about reset, and the legacy configuration is not selected (R221 step 1 is passed). -/
structure running (s : State) : Prop where
  legacy : legacyBigEndian s.params = false
  inReset : s.inReset = false
  nRESETIN : s.nextBoundary.signals.nRESETIN = .high
  nVFPRESETIN : s.nextBoundary.signals.nVFPRESETIN = .high

theorem running.phase {s : State} (h : running s) : resetPhase (sample s.nextBoundary s) = none :=
  resetPhase_none.mpr ⟨h.nRESETIN, h.nVFPRESETIN, h.inReset⟩

theorem step_of_applyControl {s u : State} (h : running s)
    (hu : applyControl s.nextBoundary.control (closeFiWindow (sample s.nextBoundary s)) = .next u) :
    step s = attend (reportErrors s.nextBoundary.errorReports u) := by
  simp only [step, cycle, h.legacy, h.phase, hu, Bool.false_eq_true, if_false]

theorem step_of_refusedControl {s : State} {r : Refusal} (h : running s)
    (hr : applyControl s.nextBoundary.control (closeFiWindow (sample s.nextBoundary s)) = .refused r) :
    step s = .refused r := by
  simp only [step, cycle, h.legacy, h.phase, hr, Bool.false_eq_true, if_false]

/-- At a calm boundary a step is R221 steps 2 to 6. -/
theorem step_of_calm {s : State} (h : s.calmBoundary) : step s = attend s.afterBoundary := by
  obtain ⟨hl, hr, h1, h2, hc⟩ := h
  exact step_of_applyControl ⟨hl, hr, h1, h2⟩ (by rw [hc]; rfl)

theorem afterBoundary_signals (s : State) : s.afterBoundary.signals = s.nextBoundary.signals := by
  simp [State.afterBoundary, sample]

@[simp] theorem afterBoundary_cpsr (s : State) : s.afterBoundary.cpsr = s.cpsr := by simp [State.afterBoundary]
@[simp] theorem afterBoundary_pc (s : State) : s.afterBoundary.pc = s.pc := by simp [State.afterBoundary]
@[simp] theorem afterBoundary_regs (s : State) : s.afterBoundary.regs = s.regs := by simp [State.afterBoundary]
@[simp] theorem afterBoundary_spsr (s : State) : s.afterBoundary.spsr = s.spsr := by simp [State.afterBoundary]

theorem afterBoundary_world (s : State) : s.afterBoundary.world = s.world :=
  (afterBoundary_controlsKept s).world (afterBoundary_cpsr s)

/-! ### Interrupts -/

theorem attend_interrupt {s : State} {x : Interrupt} (h : interruptTaken s = some x) :
    attend s = .next (takeInterrupt x s) := by
  simp only [attend, h]

theorem unmaskedRequest_fiq {fiq irq : Level} {s : State} (h : fiq = .low) (hf : s.cpsr.f = false) :
    unmaskedRequest fiq irq s = some .fiq := by
  simp [unmaskedRequest, h, hf]

theorem unmaskedRequest_irq {fiq irq : Level} {s : State} (hf : fiq = .high ∨ s.cpsr.f = true) (h : irq = .low)
    (hi : s.cpsr.i = false) : unmaskedRequest fiq irq s = some .irq := by
  rcases hf with hf | hf <;> simp [unmaskedRequest, hf, h, hi]

theorem unmaskedRequest_none {fiq irq : Level} {s : State} (hf : fiq = .high ∨ s.cpsr.f = true)
    (hi : irq = .high ∨ s.cpsr.i = true) : unmaskedRequest fiq irq s = none := by
  rcases hf with hf | hf <;> rcases hi with hi | hi <;> simp [unmaskedRequest, hf, hi]

/-- Settles O47. -/
theorem interruptsAreTakenAtBoundaries : Obligations.InterruptsAreTakenAtBoundaries := by
  rintro s u rfl hcalm
  rw [step_of_calm hcalm]
  exact ⟨fun h hf => attend_interrupt (x := .fiq) (unmaskedRequest_fiq h hf),
    fun hf h hi => attend_interrupt (x := .irq) (unmaskedRequest_irq hf h hi)⟩

/-- The FIQ entry of the next boundary, when it is LOW there and F is clear. -/
theorem step_fiq {s : State} (hcalm : s.calmBoundary) (h : s.nextBoundary.signals.fiqReg = .low) (hf : s.cpsr.f = false) :
    step s = .next (takeException .fiq (s.pc + 4) s.afterBoundary) := by
  have hint : interruptTaken s.afterBoundary = some .fiq :=
    unmaskedRequest_fiq (by rw [afterBoundary_signals, h]) (by rw [afterBoundary_cpsr, hf])
  rw [step_of_calm hcalm, attend_interrupt hint, takeInterrupt, afterBoundary_pc]
  rfl

/-- The mode that an abort enters: Secure Monitor mode exactly when it is external with SCR.EA set (R244). -/
theorem enters_abort {x : Exception} {src : AbortSource} (hx : x = .prefetchAbort src ∨ x = .dataAbort src) (s : State) :
    x.enters s = if s.scr.ea = true ∧ abortIsExternal src = true then .monitor else .abort := by
  rcases hx with rfl | rfl <;> simp [Exception.enters, Exception.toMonitor, Exception.mode, and_comm]

theorem leaveNonSecure_fiq (s : State) : (leaveNonSecure s).scr.fiq = s.scr.fiq := by
  unfold leaveNonSecure; split <;> rfl

/-- Settles O51: a Data Abort entry outside Secure Monitor mode leaves F as it was, and one there sets it. -/
theorem dataAbortThenFiq : Obligations.DataAbortThenFiq := by
  rintro src ret s t rfl hf hcalm hlow
  have hmode := enters_abort (.inr rfl) s (x := .dataAbort src)
  refine ⟨fun hno => ?_, fun hr => ?_⟩
  · rw [if_neg hno] at hmode
    have hun : ¬(Exception.dataAbort src).toMonitor s.scr = true := by
      rw [← Exception.enters_eq_monitor (s := s), hmode]; simp
    have hft : (takeException (.dataAbort src) ret s).cpsr.f = false := by
      rw [takeException_cpsr_of_unrouted ret hun]; simpa using hf
    have hfiq : (takeException (.dataAbort src) ret s).afterBoundary.scr.fiq = s.scr.fiq := by
      rw [(afterBoundary_controlsKept _).scr, takeException_scr, leaveNonSecure_fiq]
    have henters : Exception.fiq.enters (takeException (.dataAbort src) ret s).afterBoundary =
        if s.scr.fiq then .monitor else .fiq := by
      simp only [Exception.enters, Exception.toMonitor, hfiq]; rfl
    have hbank : Bank.abt ≠ (Exception.fiq.enters (takeException (.dataAbort src) ret s).afterBoundary).bank := by
      rw [henters]; split <;> simp [Mode.bank]
    have hother : Bank.abt ≠
        (takeException .fiq ((takeException (.dataAbort src) ret s).pc + 4)
          (takeException (.dataAbort src) ret s).afterBoundary).cpsr.mode.bank := by rwa [takeException_mode]
    have hlr := takeException_lr (.dataAbort src) ret s
    have hspsr := takeException_curSpsr (.dataAbort src) ret s
    rw [State.lr, takeException_mode, hmode] at hlr
    rw [State.curSpsr, takeException_mode, hmode] at hspsr
    refine ⟨_, step_fiq hcalm hlow hft, takeException_lr .., by rw [takeException_curSpsr, afterBoundary_cpsr], ?_, ?_, ?_⟩
    · have hkept := takeException_sameRegsBut .fiq ((takeException (.dataAbort src) ret s).pc + 4)
        (takeException (.dataAbort src) ret s).afterBoundary (.lr .abt) (by simpa using hother)
      rw [afterBoundary_regs] at hkept
      exact hkept.trans hlr
    · have hkept := takeException_spsr_other .fiq ((takeException (.dataAbort src) ret s).pc + 4)
        (takeException (.dataAbort src) ret s).afterBoundary hother
      rw [afterBoundary_spsr] at hkept
      exact Option.some.inj (hkept.trans hspsr)
    · rw [takeException_mode, henters]
  · rw [if_pos hr] at hmode
    have hft : (takeException (.dataAbort src) ret s).cpsr.f = true := by
      rw [takeException_cpsr_of_routed ret (Exception.enters_eq_monitor.mp hmode)]
    refine ⟨hft, unmaskedRequest_none (.inr ?_) (.inr ?_)⟩
    · rw [afterBoundary_cpsr, hft]
    · rw [afterBoundary_cpsr, takeException_i]

/-- An FIQ of the Non-secure world, not routed and with SCR.FW clear, leaves F as it was (D5). -/
theorem takeException_fiq_nonSecure {s : State} (ret : Word) (hw : s.world = .nonSecure) (hr : s.scr.fiq = false)
    (hfw : s.scr.fw = false) :
    (takeException .fiq ret s).cpsr =
      { s.cpsr with
        mode := .fiq, t := false, j := false, i := true, e := s.nonSecureCtrl.ee
        a := if s.scr.aw = true then true else s.cpsr.a } := by
  have hun : ¬Exception.fiq.toMonitor s.scr = true := by simp [Exception.toMonitor, hr]
  rw [takeException_cpsr_of_unrouted ret hun]
  simp [hw, hfw, Exception.mode]

/-- Settles O52: the second entry finds the control registers and the CPSR that the first left. -/
theorem nonSecureFiqRepeats : Obligations.NonSecureFiqRepeats := by
  intro s t hw hr hfw hf hcalm hlow hstep
  rw [step_fiq hcalm hlow hf] at hstep
  obtain rfl := Host.Outcome.next.inj hstep
  have hwu : s.afterBoundary.world = .nonSecure := (afterBoundary_world s).trans hw
  have hku := afterBoundary_controlsKept s
  have hcpsr := takeException_fiq_nonSecure (s.pc + 4) hwu (by rw [hku.scr, hr]) (by rw [hku.scr, hfw])
  have hscr : (takeException .fiq (s.pc + 4) s.afterBoundary).scr = s.scr :=
    (takeException_scr_of_nonSecure _ _ hwu).trans hku.scr
  have hmode : (takeException .fiq (s.pc + 4) s.afterBoundary).cpsr.mode = .fiq := by rw [hcpsr]
  have hft : (takeException .fiq (s.pc + 4) s.afterBoundary).cpsr.f = false := by rw [hcpsr]; simpa using hf
  have hwt : (takeException .fiq (s.pc + 4) s.afterBoundary).world = .nonSecure :=
    world_eq_nonSecure.mpr ⟨by rw [hscr, (world_eq_nonSecure.mp hw).1], by rw [hmode]; simp⟩
  refine ⟨hmode, hft, hwt, fun hcalm' hlow' => ⟨_, step_fiq hcalm' hlow' hft, ?_⟩⟩
  have hwv := (afterBoundary_world _).trans hwt
  have hkv := afterBoundary_controlsKept (takeException .fiq (s.pc + 4) s.afterBoundary)
  have hcpsr' := takeException_fiq_nonSecure ((takeException .fiq (s.pc + 4) s.afterBoundary).pc + 4) hwv
    (by rw [hkv.scr, hscr, hr]) (by rw [hkv.scr, hscr, hfw])
  have hsame : (takeException .fiq ((takeException .fiq (s.pc + 4) s.afterBoundary).pc + 4)
      (takeException .fiq (s.pc + 4) s.afterBoundary).afterBoundary).cpsr =
      (takeException .fiq (s.pc + 4) s.afterBoundary).cpsr := by
    rw [hcpsr', afterBoundary_cpsr, hcpsr, hkv.scr, hkv.nonSecureCtrl, hscr, hku.scr]
    simp
  refine ⟨hsame, ?_, ?_, ?_⟩
  · rw [takeException_pc_eq_vector, hkv.scr, hscr, hwv, takeException_pc_eq_vector .fiq (s.pc + 4), hku.scr, hwu]
    simp only [vector_eq, reduceCtorEq, false_and, if_false, control_nonSecure, hkv.monitorBase, hkv.nonSecureBase,
      hkv.nonSecureCtrl, takeException_monitorBase, takeException_nonSecureBase, takeException_nonSecureCtrl]
  · have hlr := takeException_lr .fiq ((takeException .fiq (s.pc + 4) s.afterBoundary).pc + 4)
      (takeException .fiq (s.pc + 4) s.afterBoundary).afterBoundary
    rw [State.lr, hsame, hmode] at hlr
    exact hlr
  · have hspsr := takeException_curSpsr .fiq ((takeException .fiq (s.pc + 4) s.afterBoundary).pc + 4)
      (takeException .fiq (s.pc + 4) s.afterBoundary).afterBoundary
    rw [State.curSpsr, hsame, hmode, afterBoundary_cpsr] at hspsr
    exact Option.some.inj hspsr

/-! ### The fetch -/

section
variable {s : State}

/-- What a fetch asks for before it touches memory: ARM or Thumb state, an aligned PC, no abort. -/
structure fetchable (s : State) : Prop where
  jazelle : s.cpsr.j = false
  aligned : s.pc.toNat % s.fetchLength = 0
  noAbort : s.abortCause .fetch s.pc s.fetchLength = none

theorem fetchable.fetchAbort (h : fetchable s) : s.fetchAbort = none := by
  simp only [State.fetchAbort, h.noAbort]

theorem any_stored_eq_false (h : ∀ a ∈ s.fetchAddrs, a ∉ s.stored) :
    (s.fetchAddrs.any fun a => s.stored.contains a) = false := by
  simpa using h

theorem fetch_memory (h : fetchable s) (hst : ∀ a ∈ s.fetchAddrs, a ∉ s.stored)
    (hd : s.deviceAt s.pc s.fetchLength = false) : fetch s = .bytes (s.fetchAddrs.map (readByte s.mem)) s := by
  simp only [fetch, h.jazelle, h.aligned, h.fetchAbort, any_stored_eq_false hst, hd, Bool.false_eq_true, if_false,
    ne_eq, not_true]

theorem fetch_device {w : Word} {rest : List Word} (h : fetchable s) (hst : ∀ a ∈ s.fetchAddrs, a ∉ s.stored)
    (hd : s.deviceAt s.pc s.fetchLength = true) (hans : s.deviceAnswers = w :: rest) :
    fetch s = .bytes ((List.range s.fetchLength).map fun k => w.extractLsb' (8 * k) 8)
      { s with deviceAnswers := rest, busLog := s.busLog ++ [.deviceFetch s.pc w] } := by
  simp only [fetch, h.jazelle, h.aligned, h.fetchAbort, any_stored_eq_false hst, hd, Bool.false_eq_true, if_false,
    ne_eq, not_true, if_true, deviceFetch, deviceAnswer, hans]
  rfl

theorem fetch_stored (h : fetchable s) (hst : ∃ a ∈ s.fetchAddrs, a ∈ s.stored) : fetch s = .stopped .fetchStored := by
  have hany : (s.fetchAddrs.any fun a => s.stored.contains a) = true := by simpa using hst
  simp only [fetch, h.jazelle, h.aligned, h.fetchAbort, hany, Bool.false_eq_true, if_false, ne_eq, not_true, if_true]

theorem fetch_abort {src : AbortSource} (hj : s.cpsr.j = false) (hal : s.pc.toNat % s.fetchLength = 0)
    (h : s.fetchAbort = some src) : fetch s = .abort src := by
  simp only [fetch, hj, hal, h, Bool.false_eq_true, if_false, ne_eq, not_true]

/-- R221 step 6. -/
theorem attend_bytes {u : State} {bs : List Byte} (hint : interruptTaken s = none) (hf : fetch s = .bytes bs u)
    (himp : impreciseTaken s = false) : attend s = runFetched bs u := by
  obtain ⟨hacc, -, -⟩ := fetch_bytes hf
  rw [← hacc.impreciseTaken] at himp
  simp only [attend, hint, hf, himp, Bool.false_eq_true, if_false]

/-- R221 step 5. -/
theorem attend_imprecise {u : State} {bs : List Byte} (hint : interruptTaken s = none) (hf : fetch s = .bytes bs u)
    (himp : impreciseTaken s = true) : attend s = .next (takeImprecise u) := by
  obtain ⟨hacc, -, -⟩ := fetch_bytes hf
  rw [← hacc.impreciseTaken] at himp
  simp only [attend, hint, hf, himp, if_true]

/-- R221 step 4. -/
theorem attend_fetchAbort {src : AbortSource} (hint : interruptTaken s = none) (hf : fetch s = .abort src) :
    attend s = .next (takeException (.prefetchAbort src) (s.pc + 4) s) := by
  simp only [attend, hint, hf]

theorem attend_stopped {f : Fault} (hint : interruptTaken s = none) (hf : fetch s = .stopped f) : attend s = .fault f := by
  simp only [attend, hint, hf]

theorem runFetched_instr {bs : List Byte} {i : Instr} (h : decode s.cpsr.t bs = .instr i) : runFetched bs s = exec i s := by
  simp only [runFetched, h]

theorem runFetched_refused {bs : List Byte} {e : DecodeError} (h : decode s.cpsr.t bs = .refused e) :
    runFetched bs s = .refused (.notInTable e) := by
  simp only [runFetched, h]

end

/-- What the boundary changes: signals, schedule, map, held errors, and the time in which FI may change. -/
theorem afterBoundary_eq (s : State) :
    s.afterBoundary = { s with
      signals := s.afterBoundary.signals, inputs := s.afterBoundary.inputs, map := s.afterBoundary.map
      bufferedErrors := s.afterBoundary.bufferedErrors, abortPending := s.afterBoundary.abortPending
      fiWindow := s.afterBoundary.fiWindow } := by
  unfold State.afterBoundary reportErrors
  split <;> rfl

/-- Settles O46. -/
theorem stepRunsTheDecodedInstruction : Obligations.StepRunsTheDecodedInstruction := by
  intro s u v bytes hu hcalm hint hj hal hab himp hv
  have hstep : step s = attend u := hu ▸ step_of_calm hcalm
  have hok : fetchable u := ⟨hj, hal, hab⟩
  rw [hstep]
  refine ⟨fun hst => ?_, fun hst => attend_stopped hint (fetch_stored hok hst), hu ▸ afterBoundary_eq s⟩
  have hf : fetch u = .bytes bytes v := by
    rcases hv with ⟨hd, rfl, rfl⟩ | ⟨hd, w, rest, hans, rfl, rfl⟩
    · exact fetch_memory hok hst hd
    · exact fetch_device hok hst hd hans
  obtain ⟨hacc, -, -⟩ := fetch_bytes hf
  rw [attend_bytes hint hf himp, ← hacc.cpsr]
  exact ⟨fun i => runFetched_instr, fun e => runFetched_refused⟩

/-- Settles O48. -/
theorem fetchAbortIsTaken : Obligations.FetchAbortIsTaken := by
  intro s u cause src hu hcalm hint hj hal hcause hsrc
  have hstep : step s = attend u := hu ▸ step_of_calm hcalm
  have habort : u.fetchAbort = some src := by
    simp only [State.fetchAbort, hcause, hsrc]
    cases cause <;> rfl
  have hscr : u.scr = s.scr := hu ▸ (afterBoundary_controlsKept s).scr
  refine ⟨_, hstep.trans (attend_fetchAbort hint (fetch_abort hj hal habort)), rfl, takeException_lr ..,
    takeException_curSpsr .., takeException_abortPending .., ?_⟩
  rw [takeException_mode, enters_abort (.inl rfl), hscr]

/-! ### The imprecise Data Abort -/

/-- Where A is set an imprecise abort stays pending through R221 steps 2 to 6 (R243). -/
theorem attend_keeps_pending {s t : State} (ha : s.cpsr.a = true) (h : attend s = .next t) :
    t.abortPending = s.abortPending := by
  have hno : impreciseTaken s = false := by simp [impreciseTaken, ha]
  rcases attend_outcome h with ⟨_, hc⟩ | ⟨u, hu, ⟨x, ret, rfl⟩ | rfl⟩
  · exact hc.only.abortPending
  · exact (takeException_abortPending ..).trans (hu.pending hno)
  · exact hu.pending hno

/-- The external Data Abort entry (R229, R236, R243), made on a state `v` that has the CPSR and the control registers of
`u`. -/
theorem takeException_externalImprecise (ret : Word) {u v : State} (hk : controlsKept u v) (hc : v.cpsr = u.cpsr) :
    (takeException (.dataAbort .externalImprecise) ret v).cpsr.mode = (if u.scr.ea = true then .monitor else .abort) ∧
      (takeException (.dataAbort .externalImprecise) ret v).pc =
        (if u.scr.ea = true then u.monitorBase + 0x10
          else if (u.control u.world).highVectors = true then 0xFFFF0010
          else if u.world = .secure then u.secureBase + 0x10 else u.nonSecureBase + 0x10) ∧
      (u.world = .secure ∨ u.scr.aw = true → (takeException (.dataAbort .externalImprecise) ret v).cpsr.a = true) := by
  have hmon : (Exception.dataAbort .externalImprecise).toMonitor v.scr = u.scr.ea := by
    simp [Exception.toMonitor, abortIsExternal, hk.scr]
  have hctrl : ∀ w, v.control w = u.control w := by rintro (_ | _) <;> simp [hk.secureCtrl, hk.nonSecureCtrl]
  refine ⟨?_, ?_, fun hw => ?_⟩
  · rw [takeException_mode, Exception.enters, hmon]
    rfl
  · rw [takeException_pc_eq_vector, hmon, vector_eq, hctrl, hk.world hc, hk.monitorBase, hk.secureBase, hk.nonSecureBase]
    simp only [reduceCtorEq, false_and, if_false]
    rfl
  · by_cases hr : (Exception.dataAbort .externalImprecise).toMonitor v.scr = true
    · rw [takeException_cpsr_of_routed ret hr]
    · rw [takeException_cpsr_of_unrouted ret hr]
      simp [Exception.mode, hk.world hc, hk.scr, hw]

/-- Settles O49. -/
theorem impreciseAbortIsTakenOrHeld : Obligations.ImpreciseAbortIsTakenOrHeld := by
  intro s u hu hcalm hpend
  have hstep : step s = attend u := hu ▸ step_of_calm hcalm
  refine ⟨fun bytes v hint ha hf => ?_, fun ha t ht => ?_⟩
  · obtain ⟨hacc, hmem, -⟩ := fetch_bytes hf
    have himp : impreciseTaken u = true := by simp [impreciseTaken, hpend, ha]
    have hk : controlsKept u { v with abortPending := false, draws := v.draws + 1 } :=
      hacc.exec.controls.trans ⟨rfl, rfl, rfl, rfl, rfl, rfl, rfl⟩
    obtain ⟨hmode, hpc, hA⟩ := takeException_externalImprecise (Config.impreciseAbortReturn v.draws) hk hacc.cpsr
    refine ⟨_, _, _, hstep.trans (attend_imprecise hint hf himp), rfl, takeException_abortPending .., takeException_lr ..,
      ?_, rfl, hmode, hpc, takeException_i .., takeException_t .., hA, (takeException_mem ..).trans hmem, fun q hq => ?_⟩
    · exact (takeException_curSpsr ..).trans (congrArg (fun p => some (Psr.toWord p)) hacc.cpsr)
    · exact (takeException_sameRegsBut _ _ _ q hq).trans (congrArg (RegFile.get · q) hacc.regs)
  · rw [attend_keeps_pending ha (hstep.symm.trans ht), hpend]

/-! ### Control writes -/

/-- R221 steps 2 to 6 do not change FI. -/
theorem attend_fi {s t : State} (h : attend s = .next t) : t.fi = s.fi := by
  rcases attend_outcome h with ⟨_, hc⟩ | ⟨u, hu, ⟨x, ret, rfl⟩ | rfl⟩
  · exact hc.only.fi
  · exact (takeException_fi ..).trans hu.controls.fi
  · exact hu.controls.fi

/-- A barrier reports what is held, all of it (R82). -/
theorem drainErrors_eq (s : State) :
    drainErrors s = { s with bufferedErrors := 0, abortPending := s.abortPending || s.bufferedErrors ≠ 0 } := by
  unfold drainErrors
  split
  · next h => cases s; simp_all
  · next h => simp [h]

theorem drainErrors_mayWrite (c : ControlWrite) (s : State) : mayWrite c (drainErrors s) = mayWrite c s := by
  rw [drainErrors_eq]
  rfl

/-- A control write that the mode and world may make. -/
theorem controlWrite_of_may {c : ControlWrite} {s : State} (h : mayWrite c s = true) :
    controlWrite c s = permittedWrite c (if c.hasBarrier then drainErrors s else s) := by
  unfold controlWrite
  split
  · exact if_pos ((drainErrors_mayWrite c s).trans h)
  · exact if_pos h

/-- A control write that they may not make does nothing but its barriers. -/
theorem controlWrite_of_mayNot {c : ControlWrite} {s : State} (h : mayWrite c s = false) :
    controlWrite c s = .next (if c.hasBarrier then drainErrors s else s) := by
  unfold controlWrite
  split
  · exact if_neg (by simp [drainErrors_mayWrite, h])
  · exact if_neg (by simp [h])

/-- A permitted write that changes FI is one of FI, in sequence, shortly after reset. -/
theorem permittedWrite_fi {c : ControlWrite} {s t : State} (h : permittedWrite c s = .next t) (hfi : t.fi ≠ s.fi) :
    c = .fi t.fi true ∧ s.cpsr.i = true ∧ s.cpsr.f = true ∧ s.fiWindow = true := by
  cases c with
  | fi v b =>
    simp only [permittedWrite] at h
    split at h
    · cases h; exact absurd rfl hfi
    · split at h
      · next hseq =>
        simp only [Bool.and_eq_true] at hseq
        obtain ⟨⟨⟨rfl, hi⟩, hf⟩, hwin⟩ := hseq
        cases h
        exact ⟨rfl, hi, hf, hwin⟩
      · cases h
  | barrier => cases h; exact absurd rfl hfi
  | scr v => cases h; exact absurd rfl hfi
  | controlBits w v => cases w <;> cases h <;> exact absurd rfl hfi
  | base r v => cases r <;> cases h <;> exact absurd rfl hfi

theorem mayWrite_fi {v b : Bool} {s : State} (h : mayWrite (.fi v b) s = true) :
    s.cpsr.mode.privileged = true ∧ s.world = .secure := by
  simpa [mayWrite] using h

/-- A boundary that changes FI holds the sequence of R303. -/
theorem applyControl_fi {c : Option ControlWrite} {s t : State} (h : applyControl c s = .next t) (hfi : t.fi ≠ s.fi) :
    c = some (.fi t.fi true) ∧ s.world = .secure ∧ s.cpsr.mode.privileged = true ∧ s.cpsr.i = true ∧ s.cpsr.f = true ∧
      s.fiWindow = true := by
  cases c with
  | none => cases h; exact absurd rfl hfi
  | some c =>
    obtain ⟨u, hu, -, hor⟩ := controlWrite_next h
    have hkept : u.fi = s.fi ∧ u.cpsr = s.cpsr ∧ u.fiWindow = s.fiWindow ∧ u.world = s.world := by
      rw [hu, drainErrors_eq]
      split <;> exact ⟨rfl, rfl, rfl, rfl⟩
    obtain ⟨hufi, hucpsr, huwin, huworld⟩ := hkept
    rcases hor with ⟨-, rfl⟩ | ⟨hmay, hw⟩
    · exact absurd hufi hfi
    · obtain ⟨rfl, hi, hf, hwin⟩ := permittedWrite_fi hw (by rwa [hufi])
      obtain ⟨hp, hsec⟩ := mayWrite_fi hmay
      rw [hucpsr] at hi hf hp
      exact ⟨rfl, huworld ▸ hsec, hp, hi, hf, huwin ▸ hwin⟩

theorem permittedWrite_fi_same (b : Bool) (s : State) : permittedWrite (.fi s.fi b) s = .next s := if_pos rfl

theorem permittedWrite_fi_inSequence {v : Bool} {s : State} (hi : s.cpsr.i = true) (hf : s.cpsr.f = true)
    (hw : s.fiWindow = true) : permittedWrite (.fi v true) s = .next { s with fi := v } := by
  by_cases h : v = s.fi
  · rw [h, permittedWrite_fi_same]
  · simp only [permittedWrite, if_neg h, hi, hf, hw, Bool.and_self, if_true]

theorem permittedWrite_fi_refused {v b : Bool} {s : State} (hv : v ≠ s.fi)
    (h : ¬(b = true ∧ s.cpsr.i = true ∧ s.cpsr.f = true ∧ s.fiWindow = true)) :
    permittedWrite (.fi v b) s = .refused .fiOutOfSequence := by
  have hno : ¬(b && s.cpsr.i && s.cpsr.f && s.fiWindow) = true := by simpa [and_assoc] using h
  simp only [permittedWrite, if_neg hv, if_neg hno]

/-- Settles O55. -/
theorem fiChangesOnlyInSequence : Obligations.FiChangesOnlyInSequence := by
  refine ⟨fun s t h hfi => ?_, fun s d privileged secure hp hs hd => ?_, fun s u c hl hr h1 h2 hc hu => ⟨fun t ht => ?_,
    fun r hr' => ?_⟩⟩
  · rcases cycle_next h with rfl | ⟨hr, rfl⟩ | ⟨-, -, -, u, hu, hattend⟩
    · exact absurd rfl hfi
    · exact .inl ⟨hr, rfl⟩
    · have htu : t.fi = u.fi := (attend_fi hattend).trans (reportErrors_controlsKept _ u).fi
      obtain ⟨hctrl, hw, hpriv, hi, hf, hwin⟩ := applyControl_fi hu (htu ▸ hfi)
      have hfiWindow : (s.fiWindow && s.cpsr.i && s.cpsr.f) = true := hwin
      simp only [Bool.and_eq_true] at hfiWindow
      exact .inr ⟨htu ▸ hctrl, hw, hpriv, hi, hf, hfiWindow.1.1⟩
  · rw [← Mode.privileged_iff] at hp
    rw [← world_eq_secure] at hs
    rw [← drainErrors_eq] at hd
    subst hd
    have hmay : ∀ {c : ControlWrite}, mayWrite c s = (s.cpsr.mode.privileged && decide (s.world = .secure)) →
        (secure → mayWrite c s = true) ∧ (¬secure → mayWrite c s = false) := fun hc => by
      rw [hc, hs, hp]
      cases s.cpsr.mode.privileged <;> simp
    have hmayP : ∀ {c : ControlWrite}, mayWrite c s = s.cpsr.mode.privileged →
        (privileged → mayWrite c s = true) ∧ (¬privileged → mayWrite c s = false) := fun hc => by
      rw [hc, hp]
      cases s.cpsr.mode.privileged <;> simp
    have hfiD : (drainErrors s).fi = s.fi := by simp [drainErrors_eq]
    refine ⟨fun v => ⟨fun h => ?_, fun h => ?_⟩, fun v => ⟨fun h => ?_, fun h => ?_⟩, fun v => ⟨fun h => ?_, fun h => ?_⟩,
      fun v => ⟨fun h => ?_, fun h => ?_, fun h => ⟨?_, ?_⟩⟩, fun v => ⟨fun h => ?_, fun h => ?_⟩,
      fun v => ⟨fun h => ?_, fun h hi hf hw => ?_, fun h hv => ?_, fun h hv hno => ?_⟩, rfl⟩
    · exact controlWrite_of_may ((hmay rfl).1 h)
    · exact controlWrite_of_mayNot ((hmay rfl).2 h)
    · exact controlWrite_of_may ((hmay rfl).1 h)
    · exact controlWrite_of_mayNot ((hmay rfl).2 h)
    · exact controlWrite_of_may ((hmayP rfl).1 h)
    · exact controlWrite_of_mayNot ((hmayP rfl).2 h)
    · exact controlWrite_of_may ((hmay rfl).1 h)
    · exact controlWrite_of_may ((hmay rfl).1 h)
    · exact controlWrite_of_mayNot ((hmay rfl).2 h)
    · exact controlWrite_of_mayNot ((hmay rfl).2 h)
    · exact controlWrite_of_may ((hmayP rfl).1 h)
    · exact controlWrite_of_mayNot ((hmayP rfl).2 h)
    · by_cases hsec : secure
      · obtain rfl : v = s.fi := h.resolve_left (not_not_intro hsec)
        refine ⟨(controlWrite_of_may ((hmay rfl).1 hsec)).trans ?_,
          (controlWrite_of_may ((hmay rfl).1 hsec)).trans (permittedWrite_fi_same false s)⟩
        rw [← hfiD]
        exact permittedWrite_fi_same true (drainErrors s)
      · exact ⟨controlWrite_of_mayNot ((hmay rfl).2 hsec), controlWrite_of_mayNot ((hmay rfl).2 hsec)⟩
    · refine (controlWrite_of_may ((hmay rfl).1 h)).trans (permittedWrite_fi_inSequence ?_ ?_ ?_) <;>
        simpa [drainErrors_eq, ControlWrite.hasBarrier]
    · exact (controlWrite_of_may ((hmay rfl).1 h)).trans (permittedWrite_fi_refused hv (by simp))
    · refine (controlWrite_of_may ((hmay rfl).1 h)).trans (permittedWrite_fi_refused (hfiD ▸ hv) ?_)
      simpa [drainErrors_eq, ControlWrite.hasBarrier] using hno
  · exact step_of_applyControl ⟨hl, hr, h1, h2⟩ (by rw [hc, ← hu]; exact ht)
  · exact step_of_refusedControl ⟨hl, hr, h1, h2⟩ (by rw [hc, ← hu]; exact hr')

end Sys2Proof.Machine
end

section
/-! LDR and STR (spec/43_support_instructions.md R188, R189, spec/20_memory.md R71, R73, R78): one lemma for each thing that
the access can come to, and then what each leaves. -/

namespace Sys2Proof.Machine

/-! ### Words, bytes and the addresses stored to -/

/-- Each bit of a word in memory is the bit of memory that the byte order gives (R71). -/
theorem memWord_getLsbD (m : List Host.Cell) (big : Bool) (a : Word) {k : Nat} (hk : k < 32) :
    (memWord m big a).getLsbD k = (readByte m (byteAddr a (if big then 3 - k / 8 else k / 8))).getLsbD (k % 8) := by
  cases big <;> simp only [memWord, Bool.false_eq_true, if_true, if_false, BitVec.getLsbD_append] <;>
    interval_cases k <;> rfl

theorem mem_storedSetWord {st : List Nat} {a : Word} {b : Nat} :
    b ∈ storedSetWord st a ↔ b ∈ st ∨ ∃ k < 4, b = byteAddr a k := by
  have hfour : (∃ k < 4, b = byteAddr a k) ↔ b = byteAddr a 0 ∨ b = byteAddr a 1 ∨ b = byteAddr a 2 ∨ b = byteAddr a 3 := by
    constructor
    · rintro ⟨k, hk, rfl⟩
      interval_cases k <;> simp
    · rintro (h | h | h | h)
      exacts [⟨0, by omega, h⟩, ⟨1, by omega, h⟩, ⟨2, by omega, h⟩, ⟨3, by omega, h⟩]
  simp only [storedSetWord, mem_insertAddr, hfour]
  tauto

theorem mem_storedSetWords {st : List Nat} {l : List (Word × Word)} {b : Nat} :
    b ∈ storedSetWords st l ↔ b ∈ st ∨ ∃ w ∈ l.map (·.1), ∃ k < 4, b = byteAddr w k := by
  induction l generalizing st with
  | nil => simp [storedSetWords]
  | cons p rest ih =>
    have hstep : storedSetWords st (p :: rest) = storedSetWords (storedSetWord st p.1) rest := rfl
    rw [hstep, ih, mem_storedSetWord, or_assoc]
    simp only [List.map_cons, List.mem_cons, exists_eq_or_imp]

/-- The memory and the stored addresses after words were written, new registers, PC and CPSR: the rest is as it was. -/
theorem keepsAllButStored_words {except : List PhysReg} {s : State} {r : RegFile} (l : List (Word × Word)) (a : Word)
    (hm : Memory.wf s.mem = true) (h : ∀ q, q ∉ except → r.get q = s.regs.get q) :
    keepsAllButStored except (l.map (·.1)) s { s with
      regs := r, pc := a, mem := memSetWords s.mem s.cpsr.e l, stored := storedSetWords s.stored l } := by
  refine ⟨h, rfl, ⟨rfl, rfl, rfl, rfl, rfl, rfl, rfl, rfl, rfl, rfl, rfl⟩, fun b hb => ?_, fun b => mem_storedSetWords,
    rfl, rfl, rfl, rfl, rfl, rfl, rfl, rfl⟩
  exact readByte_memSetWords_outside hm _ _ fun p hp => hb p.1 (List.mem_map_of_mem hp)

/-- A register other than the PC depends on the mode and the registers alone. -/
theorem reg_congr {s t : State} {n : RegNum} (hn : n ≠ 15) (hm : t.cpsr.mode = s.cpsr.mode) (hr : t.regs = s.regs) :
    t.reg n = s.reg n := by
  obtain ⟨p, hp⟩ := exists_physReg s.cpsr.mode hn
  rw [reg_eq hp, reg_eq (hm ▸ hp), hr]

theorem operand_of_ne {n : RegNum} (h : n ≠ 15) (s : State) : operand n s = s.reg n := if_neg h

/-! ### The meaning of LDR and STR -/

section
variable {c : Cond} {up : Bool} {rd rn : RegNum} {imm12 : BitVec 12} {s u : State} {v : Word} {src : AbortSource} {r : Refusal}

theorem exec_ldr_done (hc : condHolds c s.cpsr = true) (hrd : rd ≠ 15)
    (h : readWord false (offsetAddress up (operand rn s) imm12) s = .done v u) :
    exec (.ldr c up rd rn imm12) s = advance 4 (u.setReg rd v) := by
  simp only [exec, execLdr, conditional_of_holds hc, decide_eq_false hrd, h, if_neg hrd]

theorem exec_ldr_pc_done (hc : condHolds c s.cpsr = true)
    (h : readWord true (offsetAddress up (operand rn s) imm12) s = .done v u) :
    exec (.ldr c up 15 rn imm12) s = loadPc v u := by
  simp only [exec, execLdr, conditional_of_holds hc, decide_true, h, if_true]

theorem exec_ldr_abort (hc : condHolds c s.cpsr = true)
    (h : readWord (rd = 15) (offsetAddress up (operand rn s) imm12) s = .abort src u) :
    exec (.ldr c up rd rn imm12) s = .next (takeDataAbort src u) := by
  simp only [exec, execLdr, conditional_of_holds hc, h]

theorem exec_ldr_refused (hc : condHolds c s.cpsr = true)
    (h : readWord (rd = 15) (offsetAddress up (operand rn s) imm12) s = .refused r) :
    exec (.ldr c up rd rn imm12) s = .refused r := by
  simp only [exec, execLdr, conditional_of_holds hc, h]

theorem exec_str_done (hc : condHolds c s.cpsr = true) (hrd : rd ≠ 15)
    (h : writeWord (offsetAddress up (operand rn s) imm12) (s.reg rd) s = .done () u) :
    exec (.str c up rd rn imm12) s = advance 4 u := by
  simp only [exec, execStr, conditional_of_holds hc, if_neg hrd, h]

theorem exec_str_abort (hc : condHolds c s.cpsr = true) (hrd : rd ≠ 15)
    (h : writeWord (offsetAddress up (operand rn s) imm12) (s.reg rd) s = .abort src u) :
    exec (.str c up rd rn imm12) s = .next (takeDataAbort src u) := by
  simp only [exec, execStr, conditional_of_holds hc, if_neg hrd, h]

theorem exec_str_refused (hc : condHolds c s.cpsr = true) (hrd : rd ≠ 15)
    (h : writeWord (offsetAddress up (operand rn s) imm12) (s.reg rd) s = .refused r) :
    exec (.str c up rd rn imm12) s = .refused r := by
  simp only [exec, execStr, conditional_of_holds hc, if_neg hrd, h]

theorem exec_str_pc (hc : condHolds c s.cpsr = true) : exec (.str c up 15 rn imm12) s = .refused .storesPc := by
  simp only [exec, execStr, conditional_of_holds hc, if_true]

theorem loadPc_branch (h : v.extractLsb' 0 2 ≠ 0b10) :
    loadPc v s = .next { s with cpsr := { s.cpsr with t := v.getLsbD 0 }, pc := v &&& 0xFFFFFFFE } := if_neg h

theorem loadPc_refused (h : v.extractLsb' 0 2 = 0b10) : loadPc v s = .refused .loadedPcBits := if_pos h

end

/-- A word loaded into a register after an access, and then the next instruction. -/
theorem advance_setReg_access {rd : RegNum} {s u : State} (h : accessOnly s u) (hrd : rd ≠ 15) (ha : s.canAdvance 4)
    (v : Word) :
    ∃ t, advance 4 (u.setReg rd v) = .next t ∧ t.reg rd = v ∧ t.pc = s.pc + 4 ∧ t.cpsr = s.cpsr ∧
      sameRegsBut (s.dest rd) s t ∧ t = { u with regs := t.regs, pc := t.pc } := by
  have hau : u.canAdvance 4 := by rwa [State.canAdvance, h.pc]
  have hdest : u.dest rd = s.dest rd := by simp only [State.dest, h.cpsr]
  obtain ⟨p, hp⟩ := exists_physReg u.cpsr.mode hrd
  obtain ⟨t, ht, hreg, hpc, hcpsr, hregs, -⟩ := advance_setReg hrd hau v
  refine ⟨t, ht, hreg, hpc.trans (by rw [h.pc]), hcpsr.trans h.cpsr, ?_, ?_⟩
  · rw [hdest] at hregs
    exact fun q hq => (hregs q hq).trans (congrArg (RegFile.get · q) h.regs)
  · rw [setReg_eq hp] at ht
    obtain ⟨-, rfl⟩ := advance_next ht
    rfl

/-! ### Ordinary memory -/

/-- Settles O32. -/
theorem ldrLoadsWord : Obligations.LdrLoadsWord := by
  intro c up rd rn imm12 base addr s hbase haddr hc hrd hw ha
  obtain rfl : operand rn s = base := hbase.symm
  obtain rfl : offsetAddress up (operand rn s) imm12 = addr := haddr.symm
  obtain ⟨t, ht, hreg, hpc, hcpsr, hkeep⟩ := advance_setReg hrd ha (memWord s.mem s.cpsr.e (offsetAddress up (operand rn s) imm12))
  refine ⟨t, (exec_ldr_done hc hrd (readWord_plain hw)).trans ht, fun k hk => ?_, hpc, hcpsr, hkeep⟩
  rw [hreg, memWord_getLsbD _ _ _ hk]

/-- Settles O33. -/
theorem ldrToPcBranches : Obligations.LdrToPcBranches := by
  rintro c up rn imm12 addr v s rfl rfl hc hw
  have hexec := exec_ldr_pc_done hc (readWord_plain (b := true) hw)
  exact ⟨fun hv => ⟨_, hexec.trans (loadPc_branch hv), rfl, rfl, keepsAllBut_status ..⟩,
    fun hv => hexec.trans (loadPc_refused hv)⟩

/-- STR to an ordinary word. -/
theorem exec_str_plain {c : Cond} {up : Bool} {rd rn : RegNum} {imm12 : BitVec 12} {s : State}
    (hc : condHolds c s.cpsr = true) (hrd : rd ≠ 15) (hw : s.plainWord .write (offsetAddress up (operand rn s) imm12))
    (ha : s.canAdvance 4) :
    exec (.str c up rd rn imm12) s = .next { s with
      pc := s.pc + 4
      mem := memSetWord s.mem s.cpsr.e (offsetAddress up (operand rn s) imm12) (s.reg rd)
      stored := storedSetWord s.stored (offsetAddress up (operand rn s) imm12) } :=
  (exec_str_done hc hrd (writeWord_plain hw)).trans (advance_of_lt ha)

/-- Settles O34. -/
theorem strStoresWord : Obligations.StrStoresWord := by
  intro c up rd rn imm12 base addr s hbase haddr hc
  obtain rfl : operand rn s = base := hbase.symm
  obtain rfl : offsetAddress up (operand rn s) imm12 = addr := haddr.symm
  refine ⟨fun hrd hw hm ha => ⟨_, exec_str_plain hc hrd hw ha, fun k hk => readByte_memSetWord_inside hm _ _ _ hk, rfl, rfl,
    keepsAllButStored_words [(offsetAddress up (operand rn s) imm12, s.reg rd)] _ hm fun _ _ => rfl⟩, ?_⟩
  rintro rfl
  exact exec_str_pc hc

/-- Settles O35: the store leaves the base and the map, so the load is of the word stored. -/
theorem loadSeesTheStore : Obligations.LoadSeesTheStore := by
  intro up rd rd' rn imm12 s hrn hrd hrd' hw hr hm ha
  have ha1 : s.canAdvance 4 := by unfold State.canAdvance at *; omega
  have hpc4 : (s.pc + 4).toNat = s.pc.toNat + 4 := by
    have h4 : (4 : Word).toNat = 4 := rfl
    unfold State.canAdvance at ha
    rw [BitVec.toNat_add, h4]
    omega
  rw [← operand_of_ne hrn] at hw hr
  have hstr := exec_str_plain (c := .al) rfl hrd hw ha1
  generalize ht : ({ s with
      pc := s.pc + 4
      mem := memSetWord s.mem s.cpsr.e (offsetAddress up (operand rn s) imm12) (s.reg rd)
      stored := storedSetWord s.stored (offsetAddress up (operand rn s) imm12) } : State) = t at hstr
  have haddr : offsetAddress up (operand rn t) imm12 = offsetAddress up (operand rn s) imm12 := by
    rw [operand_of_ne hrn, operand_of_ne hrn, reg_congr (s := s) (t := t) hrn (ht ▸ rfl) (ht ▸ rfl)]
  have hrt : t.plainWord .read (offsetAddress up (operand rn t) imm12) := by
    rw [haddr, ← ht]
    exact hr
  have hat : t.canAdvance 4 := by
    unfold State.canAdvance at *
    rw [← ht]
    simp only [hpc4]
    omega
  obtain ⟨u, hu, hreg, -, -, -, hrest⟩ := advance_setReg_access (.refl t) hrd' hat
    (memWord t.mem t.cpsr.e (offsetAddress up (operand rn t) imm12))
  refine ⟨t, u, hstr, (exec_ldr_done rfl hrd' (readWord_plain hrt)).trans hu, ?_, by rw [hrest]⟩
  rw [hreg, haddr, ← ht]
  exact memWord_memSetWord hm _ _ _

/-! ### Aborts -/

theorem dataAbort_mmu {s : State} {ty : AccessType} {b : Bool} {a : Word} {f : MmuFault}
    (h : s.abortCause ty a 4 = some (.mmu f)) : s.dataAbort ty b a = some (.mmu f) := by
  simp only [State.dataAbort, h]

theorem dataAbort_tableWalk {s : State} {ty : AccessType} {b : Bool} {a : Word}
    (h : s.abortCause ty a 4 = some .tableWalk) : s.dataAbort ty b a = some .externalPrecise := by
  simp only [State.dataAbort, h]

theorem dataAbort_precise {s : State} {ty : AccessType} {b : Bool} {a : Word} (h : s.abortCause ty a 4 = some .axiError)
    (hp : s.externalIsPrecise ty b a = true) : s.dataAbort ty b a = some .externalPrecise := by
  simp only [State.dataAbort, h, hp, if_true]

theorem dataAbort_imprecise {s : State} {ty : AccessType} {b : Bool} {a : Word} (h : s.abortCause ty a 4 = some .axiError)
    (hp : s.externalIsPrecise ty b a = false) : s.dataAbort ty b a = none := by
  simp only [State.dataAbort, h, hp, Bool.false_eq_true, if_false]

theorem noteImprecise_imprecise {s : State} {ty : AccessType} {b : Bool} {a : Word}
    (h : s.abortCause ty a 4 = some .axiError) (hp : s.externalIsPrecise ty b a = false) :
    s.noteImprecise ty b a = { s with bufferedErrors := s.bufferedErrors + 1 } := if_pos ⟨h, hp⟩

/-- Which AXI errors are precise (R78). -/
theorem externalIsPrecise_iff {s : State} {ty : AccessType} {b : Bool} {a : Word} :
    s.externalIsPrecise ty b a = true ↔ (ty = .read ∧ (s.fi = true ∨ b = true)) ∨ s.stronglyOrderedAt a 4 = true := by
  cases ty <;> simp [State.externalIsPrecise]

/-- Settles O39. -/
theorem abortClassification : Obligations.AbortClassification := by
  intro s ty b a _
  refine ⟨fun _ => dataAbort_mmu, dataAbort_tableWalk, fun h => ⟨fun hp => ?_, fun hp => ?_⟩,
    fun h => ⟨dataAbort_of_none h, noteImprecise_of_none h⟩⟩
  · exact dataAbort_precise h (externalIsPrecise_iff.mpr hp)
  · rw [← externalIsPrecise_iff, Bool.not_eq_true] at hp
    exact ⟨dataAbort_imprecise h hp, by rw [noteImprecise_imprecise h hp]⟩

/-- A misaligned access without `strict_alignment` (R73, D2). -/
theorem readWord_misaligned {s : State} {b : Bool} {a : Word} (h : wordAligned a = false)
    (hs : s.params.strictAlignment = false) : readWord b a s = .refused .unalignedData := by
  simp only [readWord, h, misaligned, hs, Bool.false_eq_true, if_false]

theorem writeWord_misaligned {s : State} {a v : Word} (h : wordAligned a = false)
    (hs : s.params.strictAlignment = false) : writeWord a v s = .refused .unalignedData := by
  simp only [writeWord, h, misaligned, hs, Bool.false_eq_true, if_false]

/-- The Data Abort entry of an access that changed nothing (R229, R230). -/
theorem takeDataAbort_spec (src : AbortSource) (s : State) :
    (takeDataAbort src s).lr = s.pc + 8 ∧ (takeDataAbort src s).curSpsr = some s.cpsr.toWord ∧
      sameRegsBut [.lr (takeDataAbort src s).cpsr.mode.bank] s (takeDataAbort src s) ∧
      (takeDataAbort src s).mem = s.mem ∧
      (takeDataAbort src s).cpsr.mode = (if s.scr.ea = true ∧ abortIsExternal src = true then .monitor else .abort) :=
  ⟨takeException_lr .., takeException_curSpsr .., takeException_sameRegsBut _ _ s, takeException_mem ..,
    (takeException_mode ..).trans (enters_abort (.inr rfl) s)⟩

/-- Settles O40. -/
theorem ldrStrTakeDataAbort : Obligations.LdrStrTakeDataAbort := by
  intro c up rd rn imm12 addr ty i src s haddr hc hi
  subst haddr
  rcases hi with ⟨rfl, rfl⟩ | ⟨rfl, rfl, hrd⟩
  · refine ⟨fun h => ?_, fun hal hs => exec_ldr_refused hc (readWord_misaligned hal hs)⟩
    simp only [true_and] at h
    exact ⟨_, exec_ldr_abort hc (readWord_aborts h), rfl, takeDataAbort_spec src s⟩
  · refine ⟨fun h => ?_, fun hal hs => exec_str_refused hc hrd (writeWord_misaligned hal hs)⟩
    simp only [reduceCtorEq, false_and, decide_false] at h
    exact ⟨_, exec_str_abort hc hrd (writeWord_aborts h), rfl, takeDataAbort_spec src s⟩

/-! ### Imprecise external errors -/

/-- An aligned read of memory that takes no precise abort completes, also where its error is imprecise (R78). -/
theorem readWord_memory {s : State} {b : Bool} {a : Word} (hal : wordAligned a = true) (h : s.dataAbort .read b a = none)
    (hd : s.deviceAt a 4 = false) :
    readWord b a s = .done (memWord s.mem s.cpsr.e a) (s.noteImprecise .read b a) := by
  have hd' := ((noteImprecise_accessOnly s .read b a).deviceAt a 4).trans hd
  simp only [readWord, hal, h, hd', noteImprecise_mem, noteImprecise_cpsr, Bool.false_eq_true, if_true, if_false]

/-- An aligned write to memory that takes no precise abort completes, also where its error is imprecise (R78). -/
theorem writeWord_memory {s : State} {a v : Word} (hal : wordAligned a = true) (h : s.dataAbort .write false a = none)
    (hd : s.deviceAt a 4 = false) :
    writeWord a v s = .done () { s.noteImprecise .write false a with
      mem := memSetWord s.mem s.cpsr.e a v, stored := storedSetWord s.stored a } := by
  have hd' := ((noteImprecise_accessOnly s .write false a).deviceAt a 4).trans hd
  simp only [writeWord, hal, h, hd', noteImprecise_mem, noteImprecise_cpsr, noteImprecise_stored, Bool.false_eq_true,
    if_true, if_false]

theorem readWord_imprecise {s : State} {a : Word} (hal : wordAligned a = true) (h : s.abortCause .read a 4 = some .axiError)
    (hp : s.externalIsPrecise .read false a = false) (hd : s.deviceAt a 4 = false) :
    readWord false a s = .done (memWord s.mem s.cpsr.e a) { s with bufferedErrors := s.bufferedErrors + 1 } := by
  rw [readWord_memory hal (dataAbort_imprecise h hp) hd, noteImprecise_imprecise h hp]

theorem writeWord_imprecise {s : State} {a v : Word} (hal : wordAligned a = true)
    (h : s.abortCause .write a 4 = some .axiError) (hp : s.externalIsPrecise .write false a = false)
    (hd : s.deviceAt a 4 = false) :
    writeWord a v s = .done () { s with
      bufferedErrors := s.bufferedErrors + 1
      mem := memSetWord s.mem s.cpsr.e a v
      stored := storedSetWord s.stored a } := by
  rw [writeWord_memory hal (dataAbort_imprecise h hp) hd, noteImprecise_imprecise h hp]

/-- A held error is reported with others or alone, and at the latest by a barrier (R46, R82). -/
theorem heldError_arrives {t : State} {k : Nat} (h : t.bufferedErrors = k + 1) :
    (∀ n, 0 < n → reportErrors n t = { t with abortPending := true, bufferedErrors := k + 1 - n }) ∧
      controlWrite .barrier t = .next { t with abortPending := true, bufferedErrors := 0 } := by
  have hne : t.bufferedErrors ≠ 0 := by omega
  refine ⟨fun n hn => ?_, ?_⟩
  · rw [reportErrors, if_pos ⟨by omega, hne⟩, h]
  · have hdrain : drainErrors t = { t with abortPending := true, bufferedErrors := 0 } := if_neg hne
    rw [← hdrain]
    exact controlWrite_of_may rfl

/-- Settles O50. -/
theorem impreciseStoreErrorArrivesLater : Obligations.ImpreciseStoreErrorArrivesLater := by
  intro c up rd rn imm12 addr i ty s haddr hc hrd hal hi hcause hso hd hm ha
  subst haddr
  rcases hi with ⟨rfl, rfl⟩ | ⟨rfl, rfl, hfi⟩
  · have hp : s.externalIsPrecise .write false (offsetAddress up (operand rn s) imm12) = false :=
      Bool.eq_false_iff.mpr fun h => by simp [externalIsPrecise_iff, hso] at h
    refine ⟨_, (exec_str_done hc hrd (writeWord_imprecise hal hcause hp hd)).trans (advance_of_lt ha), rfl, rfl,
      fun _ => ⟨memWord_memSetWord hm _ _ _, fun b hb => ?_, rfl⟩, by simp, rfl, rfl, heldError_arrives rfl⟩
    exact readByte_memSetWord_outside hm _ _ _ (hb _ (by simp))
  · have hp : s.externalIsPrecise .read false (offsetAddress up (operand rn s) imm12) = false :=
      Bool.eq_false_iff.mpr fun h => by simp [externalIsPrecise_iff, hso, hfi] at h
    have hacc : accessOnly s { s with bufferedErrors := s.bufferedErrors + 1 } := rfl
    obtain ⟨t, ht, hreg, hpc, hcpsr, hregs, hrest⟩ := advance_setReg_access hacc hrd ha
      (memWord s.mem s.cpsr.e (offsetAddress up (operand rn s) imm12))
    exact ⟨t, (exec_ldr_done hc hrd (readWord_imprecise hal hcause hp hd)).trans ht, hpc, hcpsr, by simp,
      fun _ => ⟨hreg, by rw [hrest], hregs⟩, by rw [hrest], by rw [hrest], heldError_arrives (by rw [hrest])⟩

end Sys2Proof.Machine
end

section
/-! The multi-access instructions STM, LDM, SRS and RFE (spec/43_support_instructions.md R190, R191,
spec/40_exception_handling_instructions.md R130, R131) as multi-access stores and loads at rising addresses, and what such a
store or load comes to on ordinary memory: the end, an abort, a refusal, or an interruption (spec/20_memory.md R74 to R76). -/

namespace Sys2Proof.Machine

/-! ### Words at rising addresses -/

/-- The words `vals` with their addresses, upwards from `low`. -/
def wordsAt (low : Word) (vals : List Word) : List (Word × Word) := ((List.range vals.length).map (wordAt low)).zip vals

theorem wordAt_zero (low : Word) : wordAt low 0 = low := BitVec.add_zero low

theorem wordAt_one (low : Word) : wordAt low 1 = low + 4 := rfl

theorem wordAddresses_eq_wordAt (low : Word) (n : Nat) : wordAddresses low n = (List.range n).map (wordAt low) :=
  wordAddresses_eq_map low n

theorem wordsAt_pair (low v w : Word) : wordsAt low [v, w] = [(low, v), (low + 4, w)] := by
  rw [← wordAt_one, ← congrArg (·, v) (wordAt_zero low)]
  rfl

@[simp] theorem wordsAt_length (low : Word) (vals : List Word) : (wordsAt low vals).length = vals.length := by
  simp [wordsAt]

theorem wordsAt_getElem? (low : Word) (vals : List Word) (k : Nat) :
    (wordsAt low vals)[k]? = vals[k]?.map (wordAt low k, ·) := by
  by_cases h : k < vals.length
  · simp [wordsAt, h]
  · rw [List.getElem?_eq_none (by simpa using h), List.getElem?_eq_none (by simpa using h), Option.map_none]

theorem mem_wordsAt {low : Word} {vals : List Word} {p : Word × Word} :
    p ∈ wordsAt low vals ↔ ∃ k v, vals[k]? = some v ∧ p = (wordAt low k, v) := by
  simp only [List.mem_iff_getElem?, wordsAt_getElem?, Option.map_eq_some_iff, @eq_comm _ p]

theorem wordsAt_take (low : Word) (vals : List Word) (k : Nat) :
    (wordsAt low vals).take k = wordsAt low (vals.take k) := by
  apply List.ext_getElem?
  intro j
  rw [wordsAt_getElem?, List.getElem?_take, List.getElem?_take, wordsAt_getElem?]
  split <;> rfl

theorem wordsAt_map_fst (low : Word) (vals : List Word) :
    (wordsAt low vals).map (·.1) = (List.range vals.length).map (wordAt low) :=
  List.map_fst_zip (by simp)

theorem wordsAt_map_snd (low : Word) (vals : List Word) : (wordsAt low vals).map (·.2) = vals :=
  List.map_snd_zip (by simp)

theorem wordAt_nodup (low : Word) {n : Nat} (h : n ≤ 15) : ((List.range n).map (wordAt low)).Nodup := by
  rw [← wordAddresses_eq_wordAt]
  exact wordAddresses_nodup low (h.trans (by norm_num))

/-- The words up to an index, the one there, and the rest. -/
theorem wordsAt_split (low : Word) {vals : List Word} {k : Nat} (h : k < vals.length) :
    ∃ l, wordsAt low vals = wordsAt low (vals.take k) ++ (wordAt low k, vals[k]) :: l := by
  refine ⟨(wordsAt low vals).drop (k + 1), ?_⟩
  have hk : k < (wordsAt low vals).length := by simpa using h
  have hget : (wordsAt low vals)[k] = (wordAt low k, vals[k]) :=
    Option.some.inj (by rw [← List.getElem?_eq_getElem, wordsAt_getElem?, List.getElem?_eq_getElem h, Option.map_some])
  rw [← wordsAt_take, ← hget, ← List.drop_eq_getElem_cons hk, List.take_append_drop]

/-- What holds at the addresses of the first words holds of the words before one of them. -/
theorem forall_wordsAt_take {P : Word → Prop} {low : Word} {vals : List Word} {k : Nat} (h : ∀ j < k, P (wordAt low j)) :
    ∀ p ∈ wordsAt low (vals.take k), P p.1 := by
  intro p hp
  obtain ⟨j, v, hj, rfl⟩ := mem_wordsAt.mp hp
  have hlt := (List.getElem?_eq_some_iff.mp hj).1
  rw [List.length_take] at hlt
  exact h j (by omega)

theorem forall_wordsAt {P : Word → Prop} {low : Word} {vals : List Word} (h : ∀ j < vals.length, P (wordAt low j)) :
    ∀ p ∈ wordsAt low vals, P p.1 := by
  have hall := forall_wordsAt_take (vals := vals) h
  rwa [List.take_length] at hall

/-- Words stored at rising addresses read back (R76). -/
theorem memWord_wordsAt {m : List Host.Cell} (hm : Memory.wf m = true) (big : Bool) {low : Word} {vals : List Word}
    (hal : ∀ j < vals.length, wordAligned (wordAt low j) = true) (hlen : vals.length ≤ 15) {j : Nat} {v : Word}
    (h : vals[j]? = some v) : memWord (memSetWords m big (wordsAt low vals)) big (wordAt low j) = v :=
  memWord_memSetWords (p := (wordAt low j, v)) hm big (forall_wordsAt (P := fun a => wordAligned a = true) hal)
    (by rw [wordsAt_map_fst]; exact wordAt_nodup low hlen) (mem_wordsAt.mpr ⟨j, v, h, rfl⟩)

/-- The state after words were stored at rising addresses. -/
def State.storing (s : State) (low : Word) (vals : List Word) : State :=
  { s with
    mem := memSetWords s.mem s.cpsr.e (wordsAt low vals)
    stored := storedSetWords s.stored (wordsAt low vals) }

theorem sameMemoryOutside_storing {s : State} (hm : Memory.wf s.mem = true) (low : Word) (vals : List Word) :
    sameMemoryOutside ((List.range vals.length).map (wordAt low)) s (s.storing low vals) := by
  intro b hb
  refine readByte_memSetWords_outside hm _ _ fun p hp => hb p.1 ?_
  rw [← wordsAt_map_fst]
  exact List.mem_map_of_mem hp

/-! ### What a multi-access store or load comes to -/

section
variable {s : State} {low : Word} {vals : List Word} {finish : State → Host.Outcome State Fault Refusal} {k n : Nat}
  {src : AbortSource} {b : Bool} {spoil : List Word → State → State}
  {finishLoad : List Word → State → Host.Outcome State Fault Refusal} {x : MidSource}

theorem writeWords_misaligned {l l' : List (Word × Word)} {a v : Word} (h : ∀ p ∈ l, s.plainWord .write p.1)
    (hal : wordAligned a = false) (hs : s.params.strictAlignment = false) :
    writeWords (l ++ (a, v) :: l') s = .refused .unalignedData := by
  induction l generalizing s with
  | nil => simp only [List.nil_append, writeWords, writeWord_misaligned hal hs]
  | cons p rest ih =>
    simp only [List.cons_append, writeWords, writeWord_plain (v := p.2) (h p (by simp))]
    exact ih (fun q hq => (h q (by simp [hq]) : s.plainWord .write q.1)) hs

theorem readWords_misaligned {l l' : List Word} {a : Word} (h : ∀ p ∈ l, s.plainWord .read p)
    (hal : wordAligned a = false) (hs : s.params.strictAlignment = false) :
    readWords b (l ++ a :: l') s = .refused .unalignedData := by
  induction l with
  | nil => simp only [List.nil_append, readWords, readWord_misaligned hal hs]
  | cons p rest ih =>
    simp only [List.cons_append, readWords, readWord_plain (h p (by simp)), ih fun q hq => h q (by simp [hq])]

theorem multiStore_plain (hu : s.undisturbed vals.length) (hp : ∀ j < vals.length, s.plainWord .write (wordAt low j)) :
    multiStore (wordsAt low vals) s finish = finish (s.storing low vals) := by
  unfold State.undisturbed at hu
  simp only [multiStore, wordsAt_length, hu, writeWords_plain (forall_wordsAt hp)]
  rfl

theorem multiStore_abort (hu : s.undisturbed vals.length) (hk : k < vals.length)
    (hp : ∀ j < k, s.plainWord .write (wordAt low j)) (ha : s.wordAborts .write false (wordAt low k) src) :
    multiStore (wordsAt low vals) s finish = .next (takeDataAbort src (s.storing low (vals.take k))) := by
  unfold State.undisturbed at hu
  obtain ⟨l, hl⟩ := wordsAt_split low hk
  simp only [multiStore, wordsAt_length, hu]
  rw [hl, writeWords_abort_at (forall_wordsAt_take hp) ha]
  rfl

theorem multiStore_misaligned (hu : s.undisturbed vals.length) (hk : k < vals.length)
    (hp : ∀ j < k, s.plainWord .write (wordAt low j)) (hal : wordAligned (wordAt low k) = false)
    (hs : s.params.strictAlignment = false) : multiStore (wordsAt low vals) s finish = .refused .unalignedData := by
  unfold State.undisturbed at hu
  obtain ⟨l, hl⟩ := wordsAt_split low hk
  simp only [multiStore, wordsAt_length, hu]
  rw [hl, writeWords_misaligned (forall_wordsAt_take hp) hal hs]

theorem multiStore_cut (hc : s.cut vals.length = some (x, k)) (hp : ∀ j < k, s.plainWord .write (wordAt low j)) :
    multiStore (wordsAt low vals) s finish = .next (stopPartWay x (s.storing low (vals.take k))) := by
  simp only [multiStore, wordsAt_length, hc, wordsAt_take, writeWords_plain (forall_wordsAt_take hp)]
  rfl

theorem forall_wordAt {P : Word → Prop} (h : ∀ j < n, P (wordAt low j)) : ∀ a ∈ (List.range n).map (wordAt low), P a := by
  simpa using h

/-- What the words at the first `n` addresses hold. -/
def State.loaded (s : State) (low : Word) (n : Nat) : List Word :=
  (List.range n).map fun k => memWord s.mem s.cpsr.e (wordAt low k)

theorem map_memWord_eq_loaded :
    ((List.range n).map (wordAt low)).map (memWord s.mem s.cpsr.e) = s.loaded low n := by
  rw [List.map_map]
  rfl

theorem multiLoad_plain (hu : s.undisturbed n) (hp : ∀ j < n, s.plainWord .read (wordAt low j)) :
    multiLoad b (wordAddresses low n) s spoil finishLoad = finishLoad (s.loaded low n) s := by
  unfold State.undisturbed at hu
  simp only [multiLoad, wordAddresses_length, hu]
  simp only [wordAddresses_eq_wordAt, readWords_plain (forall_wordAt hp), map_memWord_eq_loaded]

theorem range_split (h : k < n) : ∃ l, List.range n = List.range k ++ k :: l := by
  refine ⟨(List.range n).drop (k + 1), ?_⟩
  have hk : k < (List.range n).length := by simpa using h
  have hdrop := List.drop_eq_getElem_cons hk
  rw [List.getElem_range] at hdrop
  have htake : (List.range n).take k = List.range k := by rw [List.take_range, Nat.min_eq_left h.le]
  rw [← hdrop, ← htake, List.take_append_drop]

theorem multiLoad_abort (hu : s.undisturbed n) (hk : k < n) (hp : ∀ j < k, s.plainWord .read (wordAt low j))
    (ha : s.wordAborts .read b (wordAt low k) src) :
    multiLoad b (wordAddresses low n) s spoil finishLoad = .next (takeDataAbort src (spoil (s.loaded low k) s)) := by
  unfold State.undisturbed at hu
  obtain ⟨l, hl⟩ := range_split hk
  simp only [multiLoad, wordAddresses_length, hu]
  simp only [wordAddresses_eq_wordAt, hl, List.map_append, List.map_cons, readWords_abort_at (forall_wordAt hp) ha,
    map_memWord_eq_loaded]

theorem multiLoad_misaligned (hu : s.undisturbed n) (hk : k < n) (hp : ∀ j < k, s.plainWord .read (wordAt low j))
    (hal : wordAligned (wordAt low k) = false) (hs : s.params.strictAlignment = false) :
    multiLoad b (wordAddresses low n) s spoil finishLoad = .refused .unalignedData := by
  unfold State.undisturbed at hu
  obtain ⟨l, hl⟩ := range_split hk
  simp only [multiLoad, wordAddresses_length, hu]
  simp only [wordAddresses_eq_wordAt, hl, List.map_append, List.map_cons, readWords_misaligned (forall_wordAt hp) hal hs]

theorem multiLoad_cut (hc : s.cut n = some (x, k)) (hk : k ≤ n) (hp : ∀ j < k, s.plainWord .read (wordAt low j)) :
    multiLoad b (wordAddresses low n) s spoil finishLoad = .next (stopPartWay x (spoil (s.loaded low k) s)) := by
  have htake : (List.range n).take k = List.range k := by rw [List.take_range, Nat.min_eq_left hk]
  simp only [multiLoad, wordAddresses_length, hc]
  simp only [wordAddresses_eq_wordAt, ← List.map_take, htake, readWords_plain (forall_wordAt hp), map_memWord_eq_loaded]

end

/-! ### The four instructions -/

/-- The write-back of a physical register, if asked. -/
def State.writeBack (wb : Bool) (p : PhysReg) (v : Word) (s : State) : State :=
  { s with regs := if wb then s.regs.set p v else s.regs }

theorem setReg_writeBack {s : State} {n : RegNum} {p : PhysReg} (h : physReg s.cpsr.mode n = some p) (wb : Bool) (v : Word) :
    (if wb then s.setReg n v else s) = s.writeBack wb p v := by
  rw [setReg_eq h]
  cases wb <;> rfl

/-- SRS as a store of two words (R130). -/
theorem exec_srs {am : AddrMode} {m : Mode} {low saved : Word} {s : State} (wb : Bool) (hu : m ≠ .user) (hs : m ≠ .system)
    (hm : ¬(s.world = .nonSecure ∧ m = .monitor)) (hw : s.curSpsr = some saved)
    (hlow : low = lowestAddress am (s.regs.sp.get m.bank) 2) :
    exec (.srs am wb m.toBits) s =
      multiStore (wordsAt low [s.lr, saved]) s fun t =>
        advance 4 (t.writeBack wb (.sp m.bank) (writtenBack am (s.regs.sp.get m.bank) 2)) := by
  have hmon : ¬(decide (s.world = .nonSecure) && decide (m = .monitor)) = true := by simpa using hm
  rw [wordsAt_pair, hlow]
  simp only [exec, execSrs, Mode.ofBits?_toBits, if_neg hmon, hw, hu, hs, or_self, if_false]
  cases wb <;> rfl

/-- What RFE does with the two words loaded: write-back, CPSR and PC together (R131). -/
def rfeFinish (wb : Bool) (rn : RegNum) (base : Word) (vs : List Word) (s : State) : Host.Outcome State Fault Refusal :=
  match restoredPsr s (vs.getD 1 0) with
  | .error r => .refused r
  | .ok p =>
    .next { (if wb then s.setReg rn base else s) with
      cpsr := p, pc := if p.t then vs.getD 0 0 &&& 0xFFFFFFFE else vs.getD 0 0 }

theorem rfeFinish_error {wb : Bool} {rn : RegNum} {base : Word} {vs : List Word} {s : State} {r : Refusal}
    (h : restoredPsr s (vs.getD 1 0) = .error r) : rfeFinish wb rn base vs s = .refused r := by
  simp only [rfeFinish, h]

theorem rfeFinish_ok {wb : Bool} {rn : RegNum} {base : Word} {vs : List Word} {s : State} {p : Psr}
    (h : restoredPsr s (vs.getD 1 0) = .ok p) :
    rfeFinish wb rn base vs s = .next { (if wb then s.setReg rn base else s) with
      cpsr := p, pc := if p.t then vs.getD 0 0 &&& 0xFFFFFFFE else vs.getD 0 0 } := by
  simp only [rfeFinish, h]

/-- RFE as a load of two words (R131). -/
theorem exec_rfe {am : AddrMode} {rn : RegNum} {low : Word} {s : State} (wb : Bool) (hm : s.cpsr.mode ≠ .user)
    (hrn : rn ≠ 15) (hlow : low = lowestAddress am (s.reg rn) 2) :
    exec (.rfe am wb rn) s =
      multiLoad true (wordAddresses low 2) s (fun _ s => s) (rfeFinish wb rn (writtenBack am (s.reg rn) 2)) := by
  change execRfe am wb rn s = _
  unfold execRfe
  rw [if_neg hm, if_neg hrn, hlow]
  rfl

theorem listOk_iff {list : BitVec 16} : listOk list = true ↔ list ≠ 0 ∧ list.getLsbD 15 = false := by
  simp [listOk]

theorem multipleRefusal_eq_none {rn : RegNum} {list : BitVec 16} :
    multipleRefusal rn list = none ↔ listOk list = true ∧ rn ≠ 15 := by
  have hbad : (decide (list = 0) || list.getLsbD 15) = true ↔ ¬listOk list = true := by
    rw [listOk_iff, Bool.or_eq_true, decide_eq_true_eq, not_and_or, not_not, Bool.not_eq_false]
  unfold multipleRefusal
  by_cases hok : listOk list = true
  · rw [if_neg (fun h => hbad.mp h hok)]
    simp [hok]
  · rw [if_pos (hbad.mpr hok)]
    simp [hok]

theorem ldm_wellFormed_iff {c : Cond} {am : AddrMode} {wb : Bool} {rn : RegNum} {list : BitVec 16} :
    (Instr.ldm c am wb rn list).wellFormed = true ↔
      multipleRefusal rn list = none ∧ (wb && list.getLsbD rn.val) = false := by
  rw [multipleRefusal_eq_none]
  simp only [Instr.wellFormed, Bool.and_eq_true, Bool.not_eq_true', decide_eq_true_eq]

theorem stm_wellFormed_iff {c : Cond} {am : AddrMode} {wb : Bool} {rn : RegNum} {list : BitVec 16} :
    (Instr.stm c am wb rn list).wellFormed = true ↔
      multipleRefusal rn list = none ∧ (wb && list.getLsbD rn.val && !isLowest rn list) = false := by
  rw [multipleRefusal_eq_none]
  constructor
  · intro h
    simp only [Instr.wellFormed, Bool.and_eq_true, Bool.not_eq_true', decide_eq_true_eq] at h
    obtain ⟨⟨hl, hrn⟩, hbase⟩ := h
    exact ⟨⟨hl, hrn⟩, by rw [isLowest_eq_lowestIs (listOk_iff.mp hl).2]; exact hbase⟩
  · rintro ⟨⟨hl, hrn⟩, hbase⟩
    rw [isLowest_eq_lowestIs (listOk_iff.mp hl).2] at hbase
    simp only [Instr.wellFormed, Bool.and_eq_true, Bool.not_eq_true', decide_eq_true_eq]
    exact ⟨⟨hl, hrn⟩, hbase⟩

/-- What LDM does with the words loaded (R190). -/
def ldmFinish (wb : Bool) (rn : RegNum) (list : BitVec 16) (base : Word) (vs : List Word) (s : State) :
    Host.Outcome State Fault Refusal :=
  advance 4 (if wb then (setRegs ((listedRegs list).zip vs) s).setReg rn base else setRegs ((listedRegs list).zip vs) s)

/-- LDM as a load of the listed registers (R190). -/
theorem exec_ldm {c : Cond} {am : AddrMode} {wb : Bool} {rn : RegNum} {list : BitVec 16} {low : Word} {s : State}
    (hc : condHolds c s.cpsr = true) (h : (Instr.ldm c am wb rn list).wellFormed = true)
    (hlow : low = lowestAddress am (s.reg rn) (listedRegs list).length) :
    exec (.ldm c am wb rn list) s =
      multiLoad false (wordAddresses low (listedRegs list).length) s
        (fun vs s => spoilRegs rn ((listedRegs list).zip vs) s)
        (ldmFinish wb rn list (writtenBack am (s.reg rn) (listedRegs list).length)) := by
  obtain ⟨hnone, hbase⟩ := ldm_wellFormed_iff.mp h
  simp only [exec, execLdm, conditional_of_holds hc, hnone, hbase, Bool.false_eq_true, if_false, hlow]
  rfl

/-- STM as a store of the listed registers (R191). -/
theorem exec_stm {c : Cond} {am : AddrMode} {wb : Bool} {rn : RegNum} {list : BitVec 16} {low : Word} {s : State}
    (hc : condHolds c s.cpsr = true) (h : (Instr.stm c am wb rn list).wellFormed = true)
    (hlow : low = lowestAddress am (s.reg rn) (listedRegs list).length) :
    exec (.stm c am wb rn list) s =
      multiStore (wordsAt low ((listedRegs list).map s.reg)) s fun t =>
        advance 4 (if wb then t.setReg rn (writtenBack am (s.reg rn) (listedRegs list).length) else t) := by
  obtain ⟨hnone, hbase⟩ := stm_wellFormed_iff.mp h
  simp only [exec, execStm, conditional_of_holds hc, hnone, hbase, Bool.false_eq_true, if_false, wordsAt,
    wordAddresses_eq_wordAt, List.length_map, hlow]

end Sys2Proof.Machine
end

section
/-! STM, LDM, SRS and RFE on ordinary memory that nothing interrupts (spec/43_support_instructions.md R190, R191,
spec/40_exception_handling_instructions.md R130, R131, R134). -/

namespace Sys2Proof.Machine

/-! ### Registers written -/

theorem mem_dest {s : State} {n : RegNum} {q : PhysReg} : q ∈ s.dest n ↔ physReg s.cpsr.mode n = some q := by
  rw [State.dest, Option.mem_toList]

/-- Registers other than the PC written in order: only general registers change. -/
theorem setRegs_eq {l : List (RegNum × Word)} {s : State} (h : ∀ p ∈ l, p.1 ≠ 15) :
    setRegs l s = { s with regs := (setRegs l s).regs } := by
  induction l generalizing s with
  | nil => rfl
  | cons p rest ih =>
    obtain ⟨q, hq⟩ := exists_physReg s.cpsr.mode (h p (by simp))
    have hrest := ih (s := s.setReg p.1 p.2) fun r hr => h r (by simp [hr])
    rw [setReg_eq hq] at hrest
    rw [setRegs, setReg_eq hq]
    exact hrest

theorem setRegs_append (l l' : List (RegNum × Word)) (s : State) : setRegs (l ++ l') s = setRegs l' (setRegs l s) := by
  induction l generalizing s with
  | nil => rfl
  | cons p rest ih => simp only [List.cons_append, setRegs, ih]

/-- Different registers other than the PC written after an access, and then the next instruction. -/
theorem advance_setRegs {l : List (RegNum × Word)} {s u : State} (hacc : accessOnly s u) (hnd : (l.map (·.1)).Nodup)
    (hne : ∀ p ∈ l, p.1 ≠ 15) (ha : s.canAdvance 4) :
    ∃ t, advance 4 (setRegs l u) = .next t ∧ (∀ p ∈ l, t.reg p.1 = p.2) ∧ t.pc = s.pc + 4 ∧ t.cpsr = s.cpsr ∧
      sameRegsBut ((l.map (·.1)).flatMap s.dest) s t ∧ t = { u with regs := t.regs, pc := t.pc } := by
  have hau : u.canAdvance 4 := by rwa [State.canAdvance, hacc.pc]
  have hset := setRegs_eq (s := u) hne
  refine ⟨{ u with regs := (setRegs l u).regs, pc := u.pc + 4 }, ?_, fun p hp => ?_, by rw [hacc.pc], hacc.cpsr,
    fun q hq => ?_, rfl⟩
  · rw [hset]
    exact advance_of_lt hau
  · have hread := (reg_setRegs l hnd u p.1).1 p.2 hp
    rw [← hread]
    exact reg_congr (hne p hp) (congrArg Psr.mode (setRegs_cpsr l u).symm) rfl
  · refine (setRegs_get_other l u fun r hr => ?_).trans (congrArg (RegFile.get · q) hacc.regs)
    rw [hacc.cpsr]
    exact fun h => hq (List.mem_flatMap.mpr ⟨r.1, List.mem_map_of_mem hr, mem_dest.mpr h⟩)

theorem writeBack_get_other {x : RegFile} {wb : Bool} {p q : PhysReg} {v : Word} (h : q ∉ if wb then [p] else []) :
    (if wb then x.set p v else x).get q = x.get q := by
  cases wb with
  | false => rfl
  | true => exact RegFile.get_set_other _ _ (by simpa using h)

theorem writeBack_get_same (x : RegFile) (wb : Bool) (p : PhysReg) (v : Word) :
    (if wb then x.set p v else x).get p = if wb then v else x.get p := by
  cases wb <;> simp

/-! ### STM -/

/-- The listed registers' words, as many as there are registers. -/
theorem length_map_reg (list : BitVec 16) (s : State) :
    ((listedRegs list).map s.reg).length = (listedRegs list).length := List.length_map _

theorem listedWords_length_le (list : BitVec 16) (s : State) : ((listedRegs list).map s.reg).length ≤ 15 :=
  (length_map_reg list s).trans_le (listedRegs_length_le list)

theorem getElem?_map_reg {list : BitVec 16} {s : State} {k : Nat} {r : RegNum} (h : (listedRegs list)[k]? = some r) :
    ((listedRegs list).map s.reg)[k]? = some (s.reg r) := by
  rw [List.getElem?_map, h, Option.map_some]

/-- A well-formed LDM or STM has a base other than the PC. -/
theorem base_ne_pc {rn : RegNum} {list : BitVec 16} (h : multipleRefusal rn list = none) : rn ≠ 15 :=
  (multipleRefusal_eq_none.mp h).2

theorem keepsAllButStored.mono {except except' : List PhysReg} {addrs : List Word} {s t : State}
    (h : keepsAllButStored except addrs s t) (hsub : ∀ p ∈ except, p ∈ except') : keepsAllButStored except' addrs s t :=
  ⟨fun p hp => h.1 p fun hm => hp (hsub p hm), h.2⟩

/-- A multi-access store of ordinary words, with a write-back: what STM and SRS leave. -/
theorem multiStore_writeBack {s : State} {low : Word} {vals : List Word} {after : State → State} {wb : Bool}
    {p : PhysReg} {v : Word} (hafter : after (s.storing low vals) = (s.storing low vals).writeBack wb p v)
    (hu : s.undisturbed vals.length) (hp : ∀ j < vals.length, s.plainWord .write (wordAt low j)) (hlen : vals.length ≤ 15)
    (hm : Memory.wf s.mem = true) (ha : s.canAdvance 4) :
    ∃ t, multiStore (wordsAt low vals) s (fun u => advance 4 (after u)) = .next t ∧
      (∀ j w, vals[j]? = some w → memWord t.mem s.cpsr.e (wordAt low j) = w) ∧ t.pc = s.pc + 4 ∧ t.cpsr = s.cpsr ∧
      t.regs.get p = (if wb then v else s.regs.get p) ∧
      keepsAllButStored (if wb then [p] else []) ((List.range vals.length).map (wordAt low)) s t := by
  refine ⟨_, (multiStore_plain hu hp).trans ((congrArg (advance 4) hafter).trans (advance_of_lt ha)), fun j w hj => ?_, rfl, rfl,
    writeBack_get_same .., ?_⟩
  · exact memWord_wordsAt hm _ (fun j hj => (hp j hj).1) hlen hj
  · rw [← wordsAt_map_fst]
    exact keepsAllButStored_words _ _ hm fun q hq => writeBack_get_other hq

/-- Settles O37. -/
theorem stmStoresRegisters : Obligations.StmStoresRegisters := by
  intro c am wb rn list low s hlow hc hwf hu hp hm ha
  have hlen := length_map_reg list s
  obtain ⟨p, hreg⟩ := exists_physReg s.cpsr.mode (base_ne_pc (stm_wellFormed_iff.mp hwf).1)
  obtain ⟨t, ht, hmem, hpc, hcpsr, hwb, hkeep⟩ := multiStore_writeBack (low := low) (wb := wb)
    (after := fun u => if wb then u.setReg rn (writtenBack am (s.reg rn) (listedRegs list).length) else u)
    (setReg_writeBack (s := s.storing low ((listedRegs list).map s.reg)) hreg wb _)
    (hlen ▸ hu) (hlen ▸ hp) (listedWords_length_le list s) hm ha
  refine ⟨t, (exec_stm hc hwf hlow).trans ht, fun k r hk => hmem k _ (getElem?_map_reg hk), ?_, hpc, hcpsr, ?_⟩
  · rw [reg_eq (hcpsr ▸ hreg), hwb, reg_eq hreg]
  · rwa [hlen, ← dest_eq hreg] at hkeep

/-! ### SRS -/

theorem forall_lt_two {P : Word → Prop} {low : Word} (h0 : P low) (h1 : P (low + 4)) : ∀ j < 2, P (wordAt low j) := by
  intro j hj
  interval_cases j
  · rwa [wordAt_zero]
  · rwa [wordAt_one]

/-- Settles O22. -/
theorem srsStoresReturnState : Obligations.SrsStoresReturnState := by
  intro am wb m low saved s hu hs hlow hw hmon hcut hm hp0 hp1 ha
  obtain ⟨t, ht, hmem, hpc, hcpsr, hwb, hkeep⟩ := multiStore_writeBack (vals := [s.lr, saved])
    (after := State.writeBack wb (.sp m.bank) (writtenBack am (s.regs.sp.get m.bank) 2)) rfl hcut (forall_lt_two hp0 hp1) (by simp) hm ha
  refine ⟨t, (exec_srs wb hu hs hmon hw hlow).trans ht, ?_, hmem 1 saved rfl, hpc, hcpsr, hwb, ?_⟩
  · have hfirst := hmem 0 s.lr rfl
    rwa [wordAt_zero] at hfirst
  · have haddrs : (List.range [s.lr, saved].length).map (wordAt low) = [low, low + 4] := by
      rw [← wordsAt_map_fst, wordsAt_pair]
      rfl
    rw [haddrs] at hkeep
    refine hkeep.mono fun q hq => ?_
    cases wb with
    | false => cases hq
    | true => exact hq

/-! ### LDM -/

/-- The listed registers written, the base if asked, and the next instruction. -/
theorem ldmFinish_next {c : Cond} {am : AddrMode} {wb : Bool} {rn : RegNum} {list : BitVec 16} {vs : List Word} {s u : State}
    (hwf : (Instr.ldm c am wb rn list).wellFormed = true) (hlen : vs.length = (listedRegs list).length)
    (hacc : accessOnly s u) (ha : s.canAdvance 4) (v : Word) :
    ∃ t, ldmFinish wb rn list v vs u = .next t ∧
      (∀ p ∈ (listedRegs list).zip vs, t.reg p.1 = p.2) ∧ (wb = true → t.reg rn = v) ∧ t.pc = s.pc + 4 ∧ t.cpsr = s.cpsr ∧
      sameRegsBut ((listedRegs list).flatMap s.dest ++ if wb then s.dest rn else []) s t ∧
      t = { u with regs := t.regs, pc := t.pc } := by
  obtain ⟨hnone, hbase⟩ := ldm_wellFormed_iff.mp hwf
  have hfst : ((listedRegs list).zip vs).map (·.1) = listedRegs list := List.map_fst_zip hlen.ge
  have hnepc : ∀ p ∈ (listedRegs list).zip vs, p.1 ≠ 15 := fun p hp => mem_zip_ne_pc hp
  cases wb with
  | false =>
    obtain ⟨t, ht, hreg, hpc, hcpsr, hregs, heq⟩ :=
      advance_setRegs hacc (l := (listedRegs list).zip vs) (by rw [hfst]; exact listedRegs_nodup list) hnepc ha
    rw [hfst] at hregs
    exact ⟨t, ht, hreg, by simp, hpc, hcpsr, by simpa using hregs, heq⟩
  | true =>
    have hnotin : rn ∉ listedRegs list := fun h => by
      rw [Bool.true_and] at hbase
      exact absurd (hbase.symm.trans (mem_listedRegs.mp h).2) (by simp)
    have hfst' : ((listedRegs list).zip vs ++ [(rn, v)]).map (·.1) = listedRegs list ++ [rn] := by
      rw [List.map_append, hfst]
      rfl
    obtain ⟨t, ht, hreg, hpc, hcpsr, hregs, heq⟩ :=
      advance_setRegs hacc (l := (listedRegs list).zip vs ++ [(rn, v)])
        (by rw [hfst', ← List.concat_eq_append]; exact (listedRegs_nodup list).concat hnotin)
        (fun p hp => by
          rcases List.mem_append.mp hp with hp | hp
          · exact hnepc p hp
          · rw [List.mem_singleton] at hp
            exact hp ▸ base_ne_pc hnone) ha
    rw [setRegs_append] at ht
    rw [hfst'] at hregs
    exact ⟨t, ht, fun p hp => hreg p (List.mem_append_left _ hp), fun _ => hreg (rn, v) (by simp), hpc, hcpsr,
      by simpa using hregs, heq⟩

theorem loaded_length (s : State) (low : Word) (n : Nat) : (s.loaded low n).length = n := by simp [State.loaded]

theorem loaded_getElem? (s : State) (low : Word) {n k : Nat} (h : k < n) :
    (s.loaded low n)[k]? = some (memWord s.mem s.cpsr.e (wordAt low k)) := by
  simp [State.loaded, h]

/-- Settles O36. -/
theorem ldmLoadsRegisters : Obligations.LdmLoadsRegisters := by
  intro c am wb rn list low s hlow hc hwf hu hp ha
  obtain ⟨t, ht, hzip, hwb, hpc, hcpsr, hregs, heq⟩ := ldmFinish_next hwf (loaded_length s low _) (.refl s) ha
    (writtenBack am (s.reg rn) (listedRegs list).length)
  refine ⟨t, ((exec_ldm hc hwf hlow).trans (multiLoad_plain hu hp)).trans ht, fun k r hk => ?_, hwb, hpc, hcpsr, ?_⟩
  · have hlt := (List.getElem?_eq_some_iff.mp hk).1
    exact hzip (r, _) (List.mem_iff_getElem?.mpr ⟨k, List.getElem?_zip_eq_some.mpr ⟨hk, loaded_getElem? s low hlt⟩⟩)
  · rw [heq]
    exact keepsAllBut_of_regs _ _ hregs

/-! ### RFE -/

/-- What RFE leaves when the second word loaded is a CPSR that it may load. -/
theorem rfeFinish_next {wb : Bool} {rn : RegNum} {v : Word} {vs : List Word} {p : Psr} {s u : State} (hacc : accessOnly s u)
    (hrn : rn ≠ 15) (hword : vs.getD 1 0 = p.toWord) (hj : p.j = false) (hm : s.world = .nonSecure → p.mode ≠ .monitor) :
    ∃ t, rfeFinish wb rn v vs u = .next t ∧ t.pc = (if p.t then vs.getD 0 0 &&& 0xFFFFFFFE else vs.getD 0 0) ∧
      t.cpsr = { p with
        a := (if s.world = .secure ∨ s.scr.aw = true then p.a else s.cpsr.a)
        f := (if s.world = .secure ∨ s.scr.fw = true then p.f else s.cpsr.f) } ∧
      (∀ q ∈ s.dest rn, t.regs.get q = if wb then v else s.reg rn) ∧ sameRegsBut (s.dest rn) s t ∧
      t = { u with regs := t.regs, pc := t.pc, cpsr := t.cpsr } := by
  have hpsr := restoredPsr_of_word (s := u) (Psr.ofWord?_eq_some.mpr hword.symm) hj (hacc.world ▸ hm)
  simp only [State.mayChangeA_iff, State.mayChangeF_iff, hacc.world, hacc.scr, hacc.cpsr] at hpsr
  obtain ⟨q, hq⟩ := exists_physReg s.cpsr.mode hrn
  have hfin := rfeFinish_ok (wb := wb) (rn := rn) (base := v) hpsr
  rw [setReg_writeBack (hacc.cpsr ▸ hq)] at hfin
  refine ⟨_, hfin, rfl, rfl, fun r hr => ?_, fun r hr => ?_, rfl⟩
  · rw [dest_eq hq, List.mem_singleton] at hr
    subst hr
    refine (writeBack_get_same ..).trans ?_
    rw [hacc.regs, reg_eq hq]
  · rw [dest_eq hq] at hr
    refine (writeBack_get_other fun h => hr ?_).trans (congrArg (RegFile.get · r) hacc.regs)
    cases wb <;> simp_all

theorem loaded_two (s : State) (low : Word) :
    s.loaded low 2 = [memWord s.mem s.cpsr.e low, memWord s.mem s.cpsr.e (low + 4)] := by
  rw [← wordAt_one, ← congrArg (memWord s.mem s.cpsr.e) (wordAt_zero low)]
  rfl

/-- RFE on ordinary memory. -/
theorem exec_rfe_plain {am : AddrMode} {rn : RegNum} {low : Word} {s : State} (wb : Bool)
    (hlow : low = lowestAddress am (s.reg rn) 2) (hm : s.cpsr.mode ≠ .user) (hrn : rn ≠ 15) (hu : s.undisturbed 2)
    (h0 : s.plainWord .read low) (h1 : s.plainWord .read (low + 4)) :
    exec (.rfe am wb rn) s = rfeFinish wb rn (writtenBack am (s.reg rn) 2)
      [memWord s.mem s.cpsr.e low, memWord s.mem s.cpsr.e (low + 4)] s := by
  rw [exec_rfe wb hm hrn hlow, multiLoad_plain hu (forall_lt_two h0 h1), loaded_two]

/-- Settles O23. -/
theorem rfeLoadsPcAndCpsr : Obligations.RfeLoadsPcAndCpsr := by
  intro am wb rn low p s hlow hm hrn hu h0 h1 hword hj hmon
  obtain ⟨t, ht, hpc, hcpsr, hdest, hregs, heq⟩ := rfeFinish_next (wb := wb) (rn := rn)
    (v := writtenBack am (s.reg rn) 2) (vs := [memWord s.mem s.cpsr.e low, memWord s.mem s.cpsr.e (low + 4)])
    (.refl s) hrn hword hj hmon
  refine ⟨t, (exec_rfe_plain wb hlow hm hrn hu h0 h1).trans ht, hpc, hcpsr, hdest, ?_⟩
  rw [heq]
  exact keepsAllBut_of_regs _ _ hregs

/-! ### SRS, CPS and RFE together -/

theorem RegFile.set_sp_set_sp (x : RegFile) (b : Bank) (v : Word) : (x.set (.sp b) v).set (.sp b) (x.sp.get b) = x := by
  cases b <;> rfl

/-- In the Secure world a CPSR outside Jazelle state is restored whole (R155). -/
theorem restoredPsr_secure {s : State} {p : Psr} (hw : s.world = .secure) (hj : p.j = false) :
    restoredPsr s p.toWord = .ok p := by
  rw [restoredPsr_of_word (Psr.ofWord?_toWord p) hj (by simp [hw])]
  simp [State.mayChangeA_iff, State.mayChangeF_iff, hw]

theorem cpsPsr_e (imod : BitVec 2) (a i f : Bool) (m : Mode) (s : State) : (cpsPsr imod a i f m s).e = s.cpsr.e := by
  rw [cpsPsr_eq]

/-- SRS with write-back that gives a next state, on ordinary memory (R130). -/
theorem exec_srs_next {am : AddrMode} {m : Mode} {low saved : Word} {s t : State} (hmu : m ≠ .user)
    (hmon : ¬(s.world = .nonSecure ∧ m = .monitor)) (hw : s.curSpsr = some saved)
    (hlow : low = lowestAddress am (s.regs.sp.get m.bank) 2) (hu : s.undisturbed 2) (h0 : s.plainWord .write low)
    (h1 : s.plainWord .write (low + 4)) (h : exec (.srs am true m.toBits) s = .next t) :
    t.regs = s.regs.set (.sp m.bank) (writtenBack am (s.regs.sp.get m.bank) 2) ∧ t.spsr = s.spsr ∧ t.cpsr = s.cpsr ∧
      t.scr = s.scr ∧ t.mem = memSetWords s.mem s.cpsr.e (wordsAt low [s.lr, saved]) := by
  have hms : m ≠ .system := by
    rintro rfl
    rw [execSrs_userBank am true (.inr rfl) (by simp [hw])] at h
    cases h
  have hexec := (exec_srs true hmu hms hmon hw hlow).trans
    (multiStore_plain (vals := [s.lr, saved]) hu (forall_lt_two h0 h1))
  obtain ⟨-, rfl⟩ := advance_next (hexec.symm.trans h)
  exact ⟨rfl, rfl, rfl, rfl, rfl⟩

/-- CPS to a mode that gives a next state, in a privileged mode of the Secure world (R132). -/
theorem exec_cps_next {imod : BitVec 2} {a i f : Bool} {m : Mode} {s t : State} (hp : s.cpsr.mode ≠ .user)
    (hw : s.world = .secure) (h : exec (.cps imod true a i f m.toBits) s = .next t) :
    t.regs = s.regs ∧ t.spsr = s.spsr ∧ t.cpsr.mode = m ∧ t.cpsr.e = s.cpsr.e ∧ t.mem = s.mem := by
  by_cases hok : cpsFieldsOk imod true a i f m.toBits = true
  · rw [execCps_privileged hok hp (fun _ => rfl) (by simp) (by simp [hw])] at h
    obtain ⟨-, rfl⟩ := advance_next h
    exact ⟨rfl, rfl, rfl, cpsPsr_e .., rfl⟩
  · rw [execCps_reserved s (Bool.eq_false_iff.mpr hok)] at h
    cases h

/-- Settles O24: SRS leaves the two words below the base and the base in R13, and RFE takes both back. -/
theorem srsCpsRfeReturns : Obligations.SrsCpsRfeReturns := by
  intro m imod a it f p s s1 s2 hw hpriv hmu hspsr hj hmem hu hu2 hw2 hp0 hp1 hr0 hr1 hsrs hcps
  have hsum : s.regs.sp.get m.bank - 8 + 4 = s.regs.sp.get m.bank - 4 := by bv_omega
  rw [← hsum] at hp1 hr1
  have hlow : s.regs.sp.get m.bank - 8 = lowestAddress .db (s.regs.sp.get m.bank) 2 := rfl
  obtain ⟨hregs1, hspsr1, hcpsr1, hscr1, hmem1⟩ := exec_srs_next hmu (by simp [hw]) hspsr hlow hu hp0 hp1 hsrs
  obtain ⟨hregs2, hspsr2, hmode2, he2, hmem2⟩ := exec_cps_next
    (by rw [hcpsr1]; exact Mode.privileged_iff.mp hpriv) (by rw [State.world, hscr1, hcpsr1]; exact hw) hcps
  have hphys : physReg s2.cpsr.mode 13 = some (.sp m.bank) := hmode2 ▸ physReg_sp m
  have hsp : s2.reg 13 = s.regs.sp.get m.bank - 8 := by
    rw [reg_eq hphys, hregs2, hregs1, RegFile.get_set_same]
    rfl
  have hread : ∀ j w, [s.lr, p.toWord][j]? = some w →
      memWord s2.mem s2.cpsr.e (wordAt (s.regs.sp.get m.bank - 8) j) = w := fun j w hj => by
    rw [hmem2, hmem1, he2, hcpsr1]
    exact memWord_wordsAt (vals := [s.lr, p.toWord]) hmem _ (fun j hj => (forall_lt_two hp0 hp1 j hj).1) (by simp) hj
  have hlr := hread 0 s.lr rfl
  have hpsr := hread 1 p.toWord rfl
  rw [wordAt_zero] at hlr
  rw [wordAt_one] at hpsr
  have hrfe := exec_rfe_plain (am := .ia) (rn := 13) true hsp.symm (by rw [hmode2]; exact hmu) (by decide) hu2 hr0 hr1
  rw [hlr, hpsr, hsp] at hrfe
  refine ⟨_, hrfe.trans (rfeFinish_ok (vs := [s.lr, p.toWord]) (restoredPsr_secure hw2 hj)), rfl, rfl, ?_, ?_⟩
  · have hback : writtenBack .ia (s.regs.sp.get m.bank - 8) 2 = s.regs.sp.get m.bank := BitVec.sub_add_cancel ..
    refine (setReg_regs hphys _).trans ?_
    rw [hregs2, hregs1, hback, RegFile.set_sp_set_sp]
  · exact (setReg_spsr s2 13 (writtenBack .ia (s.regs.sp.get m.bank - 8) 2)).trans (hspsr2.trans hspsr1)

end Sys2Proof.Machine
end

section
/-! Multi-access instructions that stop part-way: a word aborts (spec/20_memory.md R76, spec/60_exceptions.md R246), or an
interrupt or reset comes in between (spec/20_memory.md R75, spec/60_exceptions.md R248, spec/70_reset_and_hazards.md R300). -/

namespace Sys2Proof.Machine

/-! ### The entry made on what a part of an instruction has left -/

/-- PC, status registers, signals and control registers are those of before. -/
structure coreKept (s u : State) : Prop where
  pc : u.pc = s.pc
  cpsr : u.cpsr = s.cpsr
  spsr : u.spsr = s.spsr
  signals : u.signals = s.signals
  control : sameControl s u

theorem coreKept.scr {s u : State} (h : coreKept s u) : u.scr = s.scr := h.control.1

theorem coreKept.refl (s : State) : coreKept s s :=
  ⟨rfl, rfl, rfl, rfl, rfl, rfl, rfl, rfl, rfl, rfl, rfl, rfl, rfl, rfl, rfl⟩

theorem coreKept_storing (s : State) (low : Word) (vals : List Word) : coreKept s (s.storing low vals) :=
  ⟨rfl, rfl, rfl, rfl, rfl, rfl, rfl, rfl, rfl, rfl, rfl, rfl, rfl, rfl, rfl⟩

/-- An entry changes R14 of the mode entered on top of what was changed before it. -/
theorem sameRegsBut_takeException {changed : List PhysReg} {s u : State} (h : sameRegsBut changed s u) (x : Exception)
    (ret : Word) :
    sameRegsBut (.lr (takeException x ret u).cpsr.mode.bank :: changed) s (takeException x ret u) := by
  intro q hq
  rw [List.mem_cons, not_or] at hq
  exact (takeException_sameRegsBut x ret u q (by simpa using hq.1)).trans (h q hq.2)

/-- The Data Abort entry of an instruction that had done a part of its accesses (R229, R230). -/
theorem takeDataAbort_coreKept {s u : State} (h : coreKept s u) (src : AbortSource) :
    entersFrom (.dataAbort src) (s.pc + 8) s (takeDataAbort src u) ∧
      (takeDataAbort src u).cpsr.mode = (if s.scr.ea = true ∧ abortIsExternal src = true then .monitor else .abort) ∧
      (takeDataAbort src u).lr = s.pc + 8 ∧ (takeDataAbort src u).curSpsr = some s.cpsr.toWord := by
  obtain ⟨hlr, hspsr, -, -, hmode⟩ := takeDataAbort_spec src u
  rw [h.pc] at hlr
  rw [h.cpsr] at hspsr
  rw [h.scr] at hmode
  exact ⟨⟨u, by rw [takeDataAbort, h.pc], h.pc, h.cpsr, h.spsr, h.signals, h.control⟩, hmode, hlr, hspsr⟩

theorem take_getElem? {vals : List Word} {j k : Nat} {v : Word} (hj : j < k) (h : vals[j]? = some v) :
    (vals.take k)[j]? = some v := by
  rw [List.getElem?_take, if_pos hj, h]

/-- The words stored before the access at which a store stopped. -/
theorem storing_take {s : State} {low : Word} {vals : List Word} {k : Nat} (hm : Memory.wf s.mem = true)
    (hk : k ≤ vals.length) (hp : ∀ j < k, s.plainWord .write (wordAt low j)) (hlen : vals.length ≤ 15) :
    (∀ j v, j < k → vals[j]? = some v → memWord (s.storing low (vals.take k)).mem s.cpsr.e (wordAt low j) = v) ∧
      sameMemoryOutside ((List.range k).map (wordAt low)) s (s.storing low (vals.take k)) := by
  have hlk : (vals.take k).length = k := by rw [List.length_take, Nat.min_eq_left hk]
  refine ⟨fun j v hj hv => ?_, ?_⟩
  · exact memWord_wordsAt hm _ (fun j hj => (hp j (hlk ▸ hj)).1) (by omega) (take_getElem? hj hv)
  · have hout := sameMemoryOutside_storing hm low (vals.take k)
    rwa [hlk] at hout

/-- A multi-access store whose word `k` aborts: what STM and SRS leave (R76, R246). -/
theorem multiStore_aborts {s : State} {low : Word} {vals : List Word} {finish : State → Host.Outcome State Fault Refusal}
    {k : Nat} {src : AbortSource} (hu : s.undisturbed vals.length) (hk : k < vals.length)
    (hp : ∀ j < k, s.plainWord .write (wordAt low j)) (hm : Memory.wf s.mem = true) (hlen : vals.length ≤ 15)
    (ha : s.wordAborts .write false (wordAt low k) src) :
    ∃ t, multiStore (wordsAt low vals) s finish = .next t ∧ entersFrom (.dataAbort src) (s.pc + 8) s t ∧
      t.cpsr.mode = (if s.scr.ea = true ∧ abortIsExternal src = true then .monitor else .abort) ∧
      t.lr = s.pc + 8 ∧ t.curSpsr = some s.cpsr.toWord ∧
      (∀ j v, j < k → vals[j]? = some v → memWord t.mem s.cpsr.e (wordAt low j) = v) ∧
      sameMemoryOutside ((List.range k).map (wordAt low)) s t ∧ t.regs.sp = s.regs.sp ∧
      sameRegsBut [.lr t.cpsr.mode.bank] s t := by
  obtain ⟨hread, hout⟩ := storing_take hm hk.le hp hlen
  obtain ⟨hfrom, hmode, hlr, hspsr⟩ := takeDataAbort_coreKept (coreKept_storing s low (vals.take k)) src
  have hmem : (takeDataAbort src (s.storing low (vals.take k))).mem = (s.storing low (vals.take k)).mem := takeException_mem ..
  refine ⟨_, multiStore_abort hu hk hp ha, hfrom, hmode, hlr, hspsr, by rwa [hmem], fun a h => ?_, ?_,
    takeException_sameRegsBut _ _ (s.storing low (vals.take k))⟩
  · rw [hmem]
    exact hout a h
  · rw [takeDataAbort, takeException_regs]
    rfl

/-- Settles O41. -/
theorem stmAbortKeepsPrefixAndBase : Obligations.StmAbortKeepsPrefixAndBase := by
  intro c am wb rn list low k src s hlow hc hwf hu hk hp hm
  have hlen := length_map_reg list s
  rw [← hlen] at hu hk
  refine ⟨fun ha => ?_, fun hal hs => (exec_stm hc hwf hlow).trans (multiStore_misaligned hu hk hp hal hs)⟩
  obtain ⟨t, ht, hfrom, hmode, hlr, hspsr, hread, hout, -, hregs⟩ :=
    multiStore_aborts hu hk hp hm (listedWords_length_le list s) ha
  exact ⟨t, (exec_stm hc hwf hlow).trans ht, hfrom, hmode, hlr, hspsr,
    fun j r hj hr => hread j _ hj (getElem?_map_reg hr), hout, hregs⟩

/-- Settles O42. -/
theorem srsAbortKeepsFirstWordAndBase : Obligations.SrsAbortKeepsFirstWordAndBase := by
  intro am wb m low saved k src s hmu hms hmon hlow hw hu hm hk hp
  have hexec := exec_srs wb hmu hms hmon hw hlow
  refine ⟨fun ha => ?_, fun hal hs => hexec.trans (multiStore_misaligned (vals := [s.lr, saved]) hu hk hp hal hs)⟩
  obtain ⟨t, ht, hfrom, hmode, hlr, hspsr, hread, hout, hsp, hregs⟩ :=
    multiStore_aborts (vals := [s.lr, saved]) hu hk hp hm (by simp) ha
  refine ⟨t, hexec.trans ht, hfrom, hmode, hlr, hspsr, ?_, ?_, hsp, hregs⟩
  · rintro rfl a
    exact hout a (by simp)
  · rintro rfl
    have hone : (List.range 1).map (wordAt low) = [low] := congrArg (fun a => [a]) (wordAt_zero low)
    have hfirst := hread 0 s.lr Nat.one_pos rfl
    rw [wordAt_zero] at hfirst
    rw [hone] at hout
    exact ⟨hfirst, hout⟩

/-! ### Loads that abort -/

/-- What may have become of the destinations of LDM leaves all but listed registers, and the base, as they were
(R246, log 35). -/
theorem spoilRegs_kept (rn : RegNum) (list : BitVec 16) (vs : List Word) (s : State) :
    coreKept s (spoilRegs rn ((listedRegs list).zip vs) s) ∧
      sameRegsBut ((listedRegs list).flatMap s.dest) s (spoilRegs rn ((listedRegs list).zip vs) s) ∧
      ∀ q ∈ s.dest rn, (spoilRegs rn ((listedRegs list).zip vs) s).regs.get q = s.regs.get q := by
  refine ⟨⟨spoilRegs_pc _ fun p => mem_zip_ne_pc, by simp, by simp, by simp, by simp [sameControl]⟩, fun q hq => ?_,
    fun q hq => ?_⟩
  · exact spoilRegs_get_other _ _ _ fun p hp _ he =>
      hq (List.mem_flatMap.mpr ⟨p.1, (List.of_mem_zip (show (p.1, p.2) ∈ _ from hp)).1, mem_dest.mpr he⟩)
  · exact spoilRegs_get_other _ _ _ fun p _ hne he => hne (physReg_injective (he.trans (mem_dest.mp hq).symm))

/-- The Data Abort entry of a load. -/
theorem takeDataAbort_load {changed : List PhysReg} {rn : RegNum} {s u : State} (h : coreKept s u) (hmem : u.mem = s.mem)
    (hregs : sameRegsBut changed s u) (hbase : ∀ q ∈ s.dest rn, u.regs.get q = s.regs.get q) (src : AbortSource) :
    entersFrom (.dataAbort src) (s.pc + 8) s (takeDataAbort src u) ∧
      (takeDataAbort src u).cpsr.mode = (if s.scr.ea = true ∧ abortIsExternal src = true then .monitor else .abort) ∧
      (takeDataAbort src u).lr = s.pc + 8 ∧ (takeDataAbort src u).curSpsr = some s.cpsr.toWord ∧
      (takeDataAbort src u).mem = s.mem ∧
      (∀ q ∈ s.dest rn, q ≠ .lr (takeDataAbort src u).cpsr.mode.bank →
        (takeDataAbort src u).regs.get q = s.regs.get q) ∧
      sameRegsBut (.lr (takeDataAbort src u).cpsr.mode.bank :: changed) s (takeDataAbort src u) := by
  obtain ⟨hfrom, hmode, hlr, hspsr⟩ := takeDataAbort_coreKept h src
  exact ⟨hfrom, hmode, hlr, hspsr, (takeException_mem ..).trans hmem,
    fun q hq hne => (takeException_sameRegsBut _ _ u q fun h => hne (List.mem_singleton.mp h)).trans (hbase q hq),
    sameRegsBut_takeException hregs _ _⟩

theorem ldm_list_ne_zero {rn : RegNum} {list : BitVec 16} (h : multipleRefusal rn list = none) : list ≠ 0 :=
  (listOk_iff.mp (multipleRefusal_eq_none.mp h).1).1

/-- Settles O43. -/
theorem loadAbortKeepsBase : Obligations.LoadAbortKeepsBase := by
  intro c am wb rn list low k n i src s hi hlow hu hk hp
  rcases hi with ⟨rfl, rfl, hc, hwf⟩ | ⟨rfl, rfl, hm, hrn, rfl⟩
  · have hexec := exec_ldm hc hwf hlow
    have hlist := ldm_list_ne_zero (ldm_wellFormed_iff.mp hwf).1
    refine ⟨fun ha => ?_, fun hal hs => hexec.trans (multiLoad_misaligned hu hk hp hal hs)⟩
    rw [decide_eq_false hlist] at ha
    obtain ⟨hcore, hregs, hbase⟩ := spoilRegs_kept rn list (s.loaded low k) s
    exact ⟨_, hexec.trans (multiLoad_abort hu hk hp ha),
      takeDataAbort_load hcore (spoilRegs_mem ..) hregs hbase src⟩
  · have hexec := exec_rfe wb hm hrn hlow
    refine ⟨fun ha => ?_, fun hal hs => hexec.trans (multiLoad_misaligned hu hk hp hal hs)⟩
    exact ⟨_, hexec.trans (multiLoad_abort hu hk hp ha),
      takeDataAbort_load (.refl s) rfl (fun _ _ => rfl) (fun _ _ => rfl) src⟩

/-! ### Interruption -/

theorem stops_reset (m : MidEvent) (s : State) (h : m.reset = true) : m.stops s = some .reset := if_pos h

/-- Which interrupt stops an instruction part-way: FIQ before IRQ (R237, R248). -/
theorem stops_interrupt {fiq irq : Level} {k : Nat} {s : State} (hfi : s.fi = true)
    (hll : s.params.lowLatencyInterruptible = true)
    (h : (fiq = .low ∧ s.cpsr.f = false) ∨ (irq = .low ∧ s.cpsr.i = false)) :
    MidEvent.stops ⟨false, fiq, irq, k⟩ s =
      some (.interrupt (if fiq = .low ∧ s.cpsr.f = false then .fiq else .irq)) := by
  have hreq : unmaskedRequest fiq irq s = some (if fiq = .low ∧ s.cpsr.f = false then .fiq else .irq) := by
    split
    · next hf => exact unmaskedRequest_fiq hf.1 hf.2
    · next hf =>
      obtain ⟨hirq, hi⟩ := h.resolve_left hf
      refine unmaskedRequest_irq ?_ hirq hi
      cases fiq <;> simp_all
  simp only [MidEvent.stops, hfi, hll, hreq, Bool.and_self, Bool.false_eq_true, if_false, if_true, Option.map_some]

theorem cut_of_stops {m : MidEvent} {n : Nat} {x : MidSource} {s : State} (hev : s.signals.midEvent = some m)
    (hk : m.afterAccesses ≤ n) (hx : m.stops s = some x) : s.cut n = some (x, m.afterAccesses) := by
  simp only [State.cut, hev, if_pos hk, hx, Option.map_some]

theorem undisturbed_of_stops {m : MidEvent} {s : State} (n : Nat) (hev : s.signals.midEvent = some m)
    (hx : m.stops s = none) : s.undisturbed n := by
  simp only [State.undisturbed, State.cut, hev, hx, Option.map_none, ite_self]

theorem sampleMidEvent_eq {u : State} {m : MidEvent} (h : u.signals.midEvent = some m) :
    sampleMidEvent u = { u with signals := { u.signals with fiqReg := m.fiqReg, irqReg := m.irqReg } } := by
  simp only [sampleMidEvent, h]

/-- What an instruction that stopped after `k` accesses had done by then. -/
structure doneUpTo (k : Nat) (ty : AccessType) (low : Word) (vals : List Word) (changed : List PhysReg) (rn : RegNum)
    (s u : State) : Prop where
  core : coreKept s u
  words : ∀ j v, j < k → vals[j]? = some v → memWord u.mem s.cpsr.e (wordAt low j) = v
  memory : sameMemoryOutside (if ty = .write then (List.range k).map (wordAt low) else []) s u
  regs : sameRegsBut changed s u
  base : ∀ q ∈ s.dest rn, u.regs.get q = s.regs.get q

theorem doneUpTo_storing {s : State} {low : Word} {vals : List Word} {k : Nat} (rn : RegNum) (hm : Memory.wf s.mem = true)
    (hk : k ≤ vals.length) (hp : ∀ j < k, s.plainWord .write (wordAt low j)) (hlen : vals.length ≤ 15) :
    doneUpTo k .write low vals [] rn s (s.storing low (vals.take k)) := by
  obtain ⟨hread, hout⟩ := storing_take hm hk hp hlen
  exact ⟨coreKept_storing .., hread, by simpa using hout, fun _ _ => rfl, fun _ _ => rfl⟩

/-- The interrupt entry of an instruction that stopped part-way, and the return that starts it again (R222, R248). -/
theorem takeInterrupt_spec {s u : State} {m : MidEvent} (h : coreKept s u) (hev : s.signals.midEvent = some m)
    (x : Interrupt) :
    entersFrom x.exception (s.pc + 4)
        { s with signals := { s.signals with fiqReg := m.fiqReg, irqReg := m.irqReg } }
        (takeInterrupt x (sampleMidEvent u)) ∧
      (takeInterrupt x (sampleMidEvent u)).signals = { s.signals with fiqReg := m.fiqReg, irqReg := m.irqReg } ∧
      (takeInterrupt x (sampleMidEvent u)).cpsr.mode = x.exception.enters s ∧
      (takeInterrupt x (sampleMidEvent u)).lr = s.pc + 4 ∧
      (takeInterrupt x (sampleMidEvent u)).curSpsr = some s.cpsr.toWord ∧
      (s.cpsr.j = false → ∃ v, exec (.subsPcLr4 .al) (takeInterrupt x (sampleMidEvent u)) = .next v ∧ v.pc = s.pc ∧
        v.cpsr = s.cpsr) := by
  have hsample := sampleMidEvent_eq (u := u) (by rw [h.signals, hev])
  have htake : takeInterrupt x (sampleMidEvent u) = takeException x.exception (s.pc + 4) (sampleMidEvent u) := by
    rw [takeInterrupt, sampleMidEvent_pc, h.pc]
  have hcpsr : (sampleMidEvent u).cpsr = s.cpsr := (sampleMidEvent_cpsr u).trans h.cpsr
  have hsig : (sampleMidEvent u).signals = { s.signals with fiqReg := m.fiqReg, irqReg := m.irqReg } := by
    rw [hsample, h.signals]
  rw [htake]
  refine ⟨⟨sampleMidEvent u, rfl, (sampleMidEvent_pc u).trans h.pc, hcpsr, (sampleMidEvent_spsr u).trans h.spsr, hsig, ?_⟩,
    ?_, ?_, takeException_lr .., ?_, fun hj => ?_⟩
  · rw [hsample]
    exact h.control
  · rw [takeException_signals, hsig]
  · rw [takeException_mode, Exception.enters, sampleMidEvent_scr, h.scr]
    rfl
  · rw [takeException_curSpsr, hcpsr]
  · have hj' : (sampleMidEvent u).cpsr.j = false := by rw [hcpsr, hj]
    exact ⟨_, exec_return_takeException (.inr (.inl ⟨rfl, rfl⟩)) _ _ hj', BitVec.add_sub_cancel s.pc 4, hcpsr⟩

/-- Settles O44: each form stops as a multi-access store or load does, and the rest is the entry's, or reset's. -/
theorem interruptedStmIsRestartable : Obligations.InterruptedStmIsRestartable := by
  refine ⟨fun rst fiq irq k n s hev hrst hno => undisturbed_of_stops n hev ?_, ?_⟩
  · subst hrst
    rcases hno with hno | hno | ⟨hf, hi⟩
    · simp [MidEvent.stops, hno]
    · simp [MidEvent.stops, hno]
    · simp [MidEvent.stops, unmaskedRequest_none hf hi]
  intro c am wb rn list m i ty n k base low vals changed rst fiq irq s hi hlow hwhy hev hk hp hm
  have hstop : ∀ x, MidEvent.stops ⟨rst, fiq, irq, k⟩ s = some x →
      ∃ u, exec i s = .next (stopPartWay x u) ∧ doneUpTo k ty low vals changed rn s u := by
    intro x hx
    have hcut : s.cut n = some (x, k) := cut_of_stops hev hk hx
    rcases hi with ⟨rfl, hc, hwf, rfl, rfl, rfl, rfl, rfl⟩ | ⟨rfl, hc, hwf, rfl, rfl, rfl, rfl, rfl⟩ |
      ⟨rfl, hmu, hms, hmon, rfl, rfl, rfl, ⟨saved, hw, rfl⟩, rfl⟩ | ⟨rfl, hmu, hrn, rfl, rfl, rfl, rfl, rfl⟩
    · have hlen := length_map_reg list s
      rw [← hlen] at hcut hk
      exact ⟨_, (exec_stm hc hwf hlow).trans (multiStore_cut hcut hp),
        doneUpTo_storing rn hm hk hp (listedWords_length_le list s)⟩
    · obtain ⟨hcore, hregs, hbase⟩ := spoilRegs_kept rn list (s.loaded low k) s
      exact ⟨_, (exec_ldm hc hwf hlow).trans (multiLoad_cut hcut hk hp),
        hcore, by simp, fun a _ => by rw [spoilRegs_mem], hregs, hbase⟩
    · exact ⟨_, (exec_srs wb hmu hms hmon hw hlow).trans (multiStore_cut (vals := [s.lr, saved]) hcut hp),
        doneUpTo_storing rn hm hk hp (by simp)⟩
    · exact ⟨s, (exec_rfe wb hmu hrn hlow).trans (multiLoad_cut hcut hk hp),
        .refl s, by simp, fun _ _ => rfl, fun _ _ => rfl, fun _ _ => rfl⟩
  cases rst with
  | true =>
    obtain ⟨u, hu, hdone⟩ := hstop .reset (stops_reset _ s rfl)
    exact ⟨_, hu, hdone.words, hdone.memory,
      fun _ => ⟨rfl, hdone.core.pc, hdone.core.cpsr, hdone.core.spsr, hdone.core.control, hdone.regs, hdone.base⟩,
      fun _ _ h => absurd h (by simp)⟩
  | false =>
    obtain ⟨hfi, hll, hreq⟩ := hwhy.resolve_left (by simp)
    obtain ⟨u, hu, hdone⟩ := hstop _ (stops_interrupt hfi hll hreq)
    generalize (if fiq = .low ∧ s.cpsr.f = false then Interrupt.fiq else Interrupt.irq) = x at hu
    obtain ⟨hfrom, hsig, hmode, hlr, hspsr, hret⟩ := takeInterrupt_spec hdone.core hev x
    have hmem : (takeInterrupt x (sampleMidEvent u)).mem = u.mem := (takeException_mem ..).trans (sampleMidEvent_mem u)
    have hregs : sameRegsBut changed s (sampleMidEvent u) := by
      intro q hq
      rw [sampleMidEvent_regs]
      exact hdone.regs q hq
    refine ⟨_, hu, ?_, ?_, fun h => absurd h (by simp), fun x' u' _ hx' hu' => ?_⟩
    · intro j v hj hv
      rw [stopPartWay, hmem]
      exact hdone.words j v hj hv
    · intro a ha
      rw [stopPartWay, hmem]
      exact hdone.memory a ha
    · subst hx' hu'
      refine ⟨hfrom, hsig, ?_, hlr, hspsr, sameRegsBut_takeException hregs _ _, fun q hq hne => ?_, hret⟩
      · cases x' <;> exact hmode
      · refine (takeException_sameRegsBut _ _ (sampleMidEvent u) q fun h => hne (List.mem_singleton.mp h)).trans ?_
        rw [sampleMidEvent_regs]
        exact hdone.base q hq

end Sys2Proof.Machine
end

section
/-! Accesses to devices (spec/20_memory.md R74, R81, R84, R87): LDR and STR, the multi-access instructions of which any words
are at devices, and the acknowledge of a vectored IRQ (spec/60_exceptions.md R242). -/

namespace Sys2Proof.Machine

/-! ### One access -/

theorem readWord_device {s : State} {b : Bool} {a : Word} (hal : wordAligned a = true) (h : s.abortCause .read a 4 = none)
    (hd : s.deviceAt a 4 = true) : readWord b a s = .done (deviceRead s a).1 (deviceRead s a).2 := by
  simp only [readWord, hal, dataAbort_of_none h, noteImprecise_of_none h, hd, if_true]

theorem writeWord_device {s : State} {a v : Word} (hal : wordAligned a = true) (h : s.abortCause .write a 4 = none)
    (hd : s.deviceAt a 4 = true) :
    writeWord a v s = .done () { s with
      stored := storedSetWord s.stored a, busLog := s.busLog ++ [.deviceWrite a v] } := by
  simp only [writeWord, hal, dataAbort_of_none h, noteImprecise_of_none h, hd, if_true]

/-- A device read shows its answer on the bus (R87). -/
theorem deviceRead_busLog (s : State) (a : Word) :
    (deviceRead s a).2.busLog = s.busLog ++ [.deviceRead a (deviceRead s a).1] :=
  congrArg (· ++ [BusEvent.deviceRead a (deviceRead s a).1]) (deviceAnswer_busLog s)

/-- A device read takes the environment's next answer (log 21). -/
theorem deviceRead_of_answer {s : State} {v : Word} {rest : List Word} (a : Word) (h : s.deviceAnswers = v :: rest) :
    deviceRead s a = (v, { s with deviceAnswers := rest, busLog := s.busLog ++ [.deviceRead a v] }) := by
  simp only [deviceRead, deviceAnswer, h]

/-! ### LDR and STR -/

section
variable {c : Cond} {up : Bool} {rd rn : RegNum} {imm12 : BitVec 12} {addr : Word} {s : State}

/-- LDR at a device, to a register other than the PC. -/
theorem exec_ldr_device (haddr : addr = offsetAddress up (operand rn s) imm12) (hc : condHolds c s.cpsr = true)
    (hal : wordAligned addr = true) (hd : s.deviceAt addr 4 = true) (h : s.abortCause .read addr 4 = none) (hrd : rd ≠ 15)
    (ha : s.canAdvance 4) :
    ∃ t v, exec (.ldr c up rd rn imm12) s = .next t ∧ t.reg rd = v ∧
      (∀ w rest, s.deviceAnswers = w :: rest → v = w ∧ t.deviceAnswers = rest) ∧
      t.busLog = s.busLog ++ [.deviceRead addr v] ∧ t.mem = s.mem ∧ sameRegsBut (s.dest rd) s t ∧
      t.pc = s.pc + 4 ∧ t.cpsr = s.cpsr := by
  subst haddr
  obtain ⟨t, ht, hreg, hpc, hcpsr, hregs, heq⟩ := advance_setReg_access (deviceRead_accessOnly s _) hrd ha
    (deviceRead s (offsetAddress up (operand rn s) imm12)).1
  refine ⟨t, _, (exec_ldr_done hc hrd (readWord_device hal h hd)).trans ht, hreg, fun w rest hans => ?_, ?_, ?_, hregs, hpc,
    hcpsr⟩
  · rw [heq, deviceRead_of_answer _ hans]
    exact ⟨rfl, rfl⟩
  · rw [heq]
    exact deviceRead_busLog ..
  · rw [heq]
    exact deviceRead_mem s (offsetAddress up (operand rn s) imm12)

/-- LDR to the PC at a device: a branch to the answer, or a refusal. -/
theorem exec_ldr_pc_device {v : Word} {rest : List Word} (haddr : addr = offsetAddress up (operand rn s) imm12)
    (hc : condHolds c s.cpsr = true) (hal : wordAligned addr = true) (hd : s.deviceAt addr 4 = true)
    (h : s.abortCause .read addr 4 = none) (hans : s.deviceAnswers = v :: rest) :
    (v.extractLsb' 0 2 ≠ 0b10 → ∃ t, exec (.ldr c up 15 rn imm12) s = .next t ∧ t.pc = v &&& 0xFFFFFFFE ∧
      t.cpsr = { s.cpsr with t := v.getLsbD 0 } ∧ t.deviceAnswers = rest ∧
      t.busLog = s.busLog ++ [.deviceRead addr v] ∧ t.mem = s.mem ∧ t.regs = s.regs) ∧
    (v.extractLsb' 0 2 = 0b10 → exec (.ldr c up 15 rn imm12) s = .refused .loadedPcBits) := by
  subst haddr
  have hread := readWord_device (b := true) hal h hd
  rw [deviceRead_of_answer _ hans] at hread
  have hexec := exec_ldr_pc_done hc hread
  exact ⟨fun hv => ⟨_, hexec.trans (loadPc_branch hv), rfl, rfl, rfl, rfl, rfl, rfl⟩,
    fun hv => hexec.trans (loadPc_refused hv)⟩

/-- STR at a device. -/
theorem exec_str_device (haddr : addr = offsetAddress up (operand rn s) imm12) (hc : condHolds c s.cpsr = true)
    (hal : wordAligned addr = true) (hd : s.deviceAt addr 4 = true) (h : s.abortCause .write addr 4 = none) (hrd : rd ≠ 15)
    (ha : s.canAdvance 4) :
    ∃ t, exec (.str c up rd rn imm12) s = .next t ∧ t.busLog = s.busLog ++ [.deviceWrite addr (s.reg rd)] ∧
      t.mem = s.mem ∧ t.regs = s.regs ∧ storedGrowsBy [addr] s t ∧ t.pc = s.pc + 4 ∧ t.cpsr = s.cpsr := by
  subst haddr
  refine ⟨_, (exec_str_done hc hrd (writeWord_device hal h hd)).trans (advance_of_lt ha), rfl, rfl, rfl, fun b => ?_, rfl,
    rfl⟩
  exact mem_storedSetWords (l := [(offsetAddress up (operand rn s) imm12, s.reg rd)])

end

/-! ### Multi-access instructions -/

/-- The accesses of `acc` that are at devices, in order. -/
def State.deviceAccesses (s : State) (acc : List (Word × Word)) : List (Word × Word) :=
  acc.filter fun p => s.deviceAt p.1 4

/-- The state after the accesses of `acc` were read, those at devices from the bus. -/
def State.readMixed (s : State) (acc : List (Word × Word)) (rest : List Word) : State :=
  { s with
    deviceAnswers := rest
    busLog := s.busLog ++ (s.deviceAccesses acc).map fun p => .deviceRead p.1 p.2 }

/-- The state after the accesses of `acc` were written, those at devices to the bus. -/
def State.writtenMixed (s : State) (acc : List (Word × Word)) : State :=
  { s with
    mem := memSetWords s.mem s.cpsr.e (acc.filter fun p => !s.deviceAt p.1 4)
    stored := storedSetWords s.stored acc
    busLog := s.busLog ++ (s.deviceAccesses acc).map fun p => .deviceWrite p.1 p.2 }

theorem multiLoad_mixed {s : State} {low : Word} {vals rest : List Word} {b : Bool} {spoil : List Word → State → State}
    {finish : List Word → State → Host.Outcome State Fault Refusal} (hu : s.undisturbed vals.length)
    (hal : ∀ p ∈ wordsAt low vals, wordAligned p.1 = true) (hab : ∀ p ∈ wordsAt low vals, s.abortCause .read p.1 4 = none)
    (hmem : ∀ p ∈ wordsAt low vals, s.deviceAt p.1 4 = false → p.2 = memWord s.mem s.cpsr.e p.1)
    (hans : s.deviceAnswers = (s.deviceAccesses (wordsAt low vals)).map (·.2) ++ rest) :
    multiLoad b (wordAddresses low vals.length) s spoil finish = finish vals (s.readMixed (wordsAt low vals) rest) := by
  unfold State.undisturbed at hu
  have hread := readWords_mixed (b := b) hal hab hmem hans
  rw [wordsAt_map_fst, wordsAt_map_snd] at hread
  simp only [multiLoad, wordAddresses_length, hu]
  simp only [wordAddresses_eq_wordAt, hread]
  rfl

/-- What STM and SRS leave, when any of their words are at devices. -/
theorem multiStore_mixed {s : State} {low : Word} {vals : List Word} {after : State → State} {wb : Bool} {p : PhysReg}
    {v : Word} (hafter : ∀ u : State, u.cpsr = s.cpsr → after u = u.writeBack wb p v) (hu : s.undisturbed vals.length)
    (hal : ∀ q ∈ wordsAt low vals, wordAligned q.1 = true) (hab : ∀ q ∈ wordsAt low vals, s.abortCause .write q.1 4 = none)
    (hlen : vals.length ≤ 15) (hm : Memory.wf s.mem = true) (ha : s.canAdvance 4) :
    ∃ t, multiStore (wordsAt low vals) s (fun u => advance 4 (after u)) = .next t ∧
      (∀ q ∈ wordsAt low vals, s.deviceAt q.1 4 = false → memWord t.mem s.cpsr.e q.1 = q.2) ∧
      sameMemoryOutside (((wordsAt low vals).filter fun q => !s.deviceAt q.1 4).map (·.1)) s t ∧
      t.busLog = s.busLog ++ (s.deviceAccesses (wordsAt low vals)).map (fun q => .deviceWrite q.1 q.2) ∧
      storedGrowsBy ((wordsAt low vals).map (·.1)) s t ∧ t.regs.get p = (if wb then v else s.regs.get p) ∧
      sameRegsBut [p] s t ∧ t.pc = s.pc + 4 ∧ t.cpsr = s.cpsr := by
  unfold State.undisturbed at hu
  have hexec : multiStore (wordsAt low vals) s (fun u => advance 4 (after u)) =
      advance 4 (State.writeBack wb p v (s.writtenMixed (wordsAt low vals))) := by
    have hafter' := hafter (s.writtenMixed (wordsAt low vals)) rfl
    rw [← hafter']
    simp only [multiStore, wordsAt_length, hu, writeWords_mixed hal hab]
    rfl
  refine ⟨_, hexec.trans (advance_of_lt ha), fun q hq hd => ?_, fun b hb => ?_, rfl, fun b => mem_storedSetWords,
    writeBack_get_same .., fun q hq => writeBack_get_other fun h => hq ?_, rfl, rfl⟩
  · have hnd : (((wordsAt low vals).filter fun q => !s.deviceAt q.1 4).map (·.1)).Nodup :=
      List.Nodup.sublist (List.Sublist.map _ List.filter_sublist) (by rw [wordsAt_map_fst]; exact wordAt_nodup low hlen)
    exact memWord_memSetWords (p := q) hm _ (fun r hr => hal r (List.mem_of_mem_filter hr)) hnd
      (List.mem_filter.mpr ⟨hq, by simp [hd]⟩)
  · exact readByte_memSetWords_outside hm _ _ fun r hr => hb r.1 (List.mem_map_of_mem hr)
  · cases wb with
    | false => cases h
    | true => exact h

/-! ### The bus and exception entries -/

/-- What an entry adds to the bus log: the acknowledge of a vectored IRQ that stays out of Secure Monitor mode (R242,
log 22). -/
theorem takeException_busLog (x : Exception) (ret : Word) (s : State) :
    (takeException x ret s).busLog =
      if x = .irq ∧ s.scr.irq = false ∧ (s.control s.world).ve = true then
        s.busLog ++ [.vicAcknowledge s.signals.irqAddr] else s.busLog := by
  have hentry : (takeException x ret s).busLog =
      entryBusLog x (x.toMonitor (leaveNonSecure s).scr) (leaveNonSecure s).world (leaveNonSecure s) := rfl
  rw [hentry, leaveNonSecure_toMonitor, leaveNonSecure_world, entryBusLog, leaveNonSecure_control,
    leaveNonSecure_busLog, leaveNonSecure_signals]
  refine if_congr ?_ rfl rfl
  cases x <;> simp [Exception.toMonitor]

/-- Settles O45. -/
theorem deviceAccessesReachTheBus : Obligations.DeviceAccessesReachTheBus := by
  refine ⟨fun c up rd rn imm12 addr s haddr hc hal hd => ⟨exec_ldr_device haddr hc hal hd,
    fun h v rest => exec_ldr_pc_device haddr hc hal hd h, exec_str_device haddr hc hal hd⟩, ?_, fun x ret s => ⟨?_, fun hno => ?_⟩⟩
  · intro c am wb rn list m i n base low vals rest acc dev changed s hlow hu hlen hacc hdev hal
    subst hlen
    obtain rfl : wordsAt low vals = acc := hacc.symm
    obtain rfl : s.deviceAccesses (wordsAt low vals) = dev := hdev.symm
    refine ⟨fun hab hmem hans => ⟨?_, fun p => ?_⟩, fun hab hm ha hi => ?_⟩
    · rintro rfl rfl hn hc hwf ha
      obtain ⟨t, ht, hzip, hwb, hpc, hcpsr, hregs, heq⟩ := ldmFinish_next hwf hn
        (show accessOnly s (s.readMixed (wordsAt low vals) rest) from rfl) ha (writtenBack am (s.reg rn) (listedRegs list).length)
      have hload := multiLoad_mixed (b := false) (spoil := fun vs s => spoilRegs rn ((listedRegs list).zip vs) s)
        (finish := ldmFinish wb rn list (writtenBack am (s.reg rn) (listedRegs list).length)) hu hal hab hmem hans
      rw [hn] at hload hlow ⊢
      refine ⟨t, ((exec_ldm hc hwf hlow).trans hload).trans ht, hzip, hwb, hpc, hcpsr, by rw [heq]; rfl, by rw [heq]; rfl,
        by rw [heq]; rfl, hregs⟩
    · rintro rfl rfl hn hmu hrn hvals hj hmon
      have hword : vals.getD 1 0 = p.toWord := by rw [hvals]; rfl
      obtain ⟨t, ht, hpc, hcpsr, hdest, hregs, heq⟩ := rfeFinish_next (wb := wb) (rn := rn)
        (v := writtenBack am (s.reg rn) 2) (show accessOnly s (s.readMixed (wordsAt low vals) rest) from rfl) hrn hword hj hmon
      have hload := multiLoad_mixed (b := true) (spoil := fun _ s => s)
        (finish := rfeFinish wb rn (writtenBack am (s.reg rn) 2)) hu hal hab hmem hans
      rw [hn] at hload hlow
      exact ⟨t, ((exec_rfe wb hmu hrn hlow).trans hload).trans ht, hpc, hcpsr, hdest, by rw [heq]; rfl, by rw [heq]; rfl,
        by rw [heq]; rfl, hregs⟩
    · rcases hi with ⟨rfl, rfl, hn, hc, hwf, rfl, rfl⟩ | ⟨rfl, hmu, hms, hmon, rfl, hn, ⟨saved, hw, rfl⟩, rfl⟩
      · obtain ⟨p, hreg⟩ := exists_physReg s.cpsr.mode (base_ne_pc (stm_wellFormed_iff.mp hwf).1)
        rw [hn] at hlow ⊢
        obtain ⟨t, ht, hread, hout, hbus, hst, hwb, hregs, hpc, hcpsr⟩ := multiStore_mixed
          (after := fun u => if wb then u.setReg rn (writtenBack am (s.reg rn) (listedRegs list).length) else u)
          (fun u hu => setReg_writeBack (s := u) (hu ▸ hreg) wb _) hu hal hab (listedWords_length_le list s) hm ha
        refine ⟨t, (exec_stm hc hwf hlow).trans ht, hread, hout, hbus, hst, fun q hq => ?_, ?_, hpc, hcpsr⟩
        · rw [dest_eq hreg, List.mem_singleton] at hq
          rw [hq, hwb, reg_eq hreg]
        · rwa [dest_eq hreg]
      · obtain ⟨t, ht, hread, hout, hbus, hst, hwb, hregs, hpc, hcpsr⟩ := multiStore_mixed
          (after := State.writeBack wb (.sp m.bank) (writtenBack am (s.regs.sp.get m.bank) 2))
          (fun u _ => rfl) hu hal hab (by simp) hm ha
        refine ⟨t, (exec_srs wb hmu hms hmon hw hlow).trans ht, hread, hout, hbus, hst, fun q hq => ?_, hregs, hpc, hcpsr⟩
        rw [List.mem_singleton] at hq
        rw [hq]
        exact hwb
  · rintro ⟨rfl, hirq, hve⟩
    refine ⟨?_, by rw [takeException_busLog, if_pos ⟨rfl, hirq, hve⟩]⟩
    rw [takeException_pc_eq_vector, vector_eq, if_neg (by simp [Exception.toMonitor, hirq]), if_pos ⟨rfl, hve⟩]
  · rw [takeException_busLog, if_neg hno]

end Sys2Proof.Machine
end

section
/-! The refused forms (spec/93_implementation_defined.md U20 to U26, U29): what the spec gives no meaning stops by name, and
going on past the top of memory stops the machine (spec/92_eei_decisions.md D12). -/

namespace Sys2Proof.Machine

/-! ### Past the top of memory -/

/-- A state with the PC of one that cannot go on cannot go on. -/
theorem advance_pastTop_of_pc {len : Nat} {s u : State} (hpc : u.pc = s.pc) (ha : ¬s.canAdvance len) :
    advance len u = .fault .pastTop :=
  advance_pastTop (by rwa [State.canAdvance, hpc])

theorem advance_setReg_pastTop {rd : RegNum} {s u : State} (hrd : rd ≠ 15) (hpc : u.pc = s.pc) (ha : ¬s.canAdvance 4)
    (v : Word) : advance 4 (u.setReg rd v) = .fault .pastTop :=
  advance_pastTop_of_pc ((setReg_pc_of_ne u hrd v).trans hpc) ha

theorem dataProcessing_pastTop {c : Cond} {rd rn : RegNum} {rot : BitVec 4} {imm8 : BitVec 8} {s : State}
    (hc : condHolds c s.cpsr = true) (ha : ¬s.canAdvance 4) (hrd : rd ≠ 15) :
    ∀ i ∈ [Instr.mov c rd rn, .add c rd rn rot imm8, .sub c rd rn rot imm8, .orr c rd rn rot imm8, .bic c rd rn rot imm8],
      exec i s = .fault .pastTop := by
  obtain ⟨hmov, hadd, hsub, horr, hbic⟩ := exec_dataProcessing hc rd rn rot imm8
  have hpast : ∀ v, writeResult rd v s = .fault .pastTop := fun v =>
    (writeResult_of_ne hrd v s).trans (advance_setReg_pastTop hrd rfl ha v)
  rw [hpast] at hmov hadd hsub horr hbic
  simp only [List.forall_mem_cons, List.not_mem_nil, false_implies, implies_true, and_true]
  exact ⟨hmov, hadd, hsub, horr, hbic⟩

/-! ### Accesses that complete -/

theorem accessOnly.wordCompletes {s u : State} (h : accessOnly s u) {ty : AccessType} {a : Word} :
    u.wordCompletes ty a ↔ s.wordCompletes ty a := by
  simp only [State.wordCompletes, h.dataAbort]

theorem readWord_completes {s : State} {a : Word} (h : s.wordCompletes .read a) :
    ∃ v u, readWord false a s = .done v u ∧ accessOnly s u := by
  obtain ⟨hal, hab⟩ := h
  rcases readWord_cases false a s with ⟨hno, -⟩ | ⟨-, src, hsrc, -⟩ | ⟨-, -, v, u, hread, hacc, -⟩
  · exact absurd (hal.symm.trans hno) (by simp)
  · exact absurd (hab.symm.trans hsrc) (by simp)
  · exact ⟨v, u, hread, hacc⟩

theorem writeWord_completes {s : State} {a : Word} (v : Word) (h : s.wordCompletes .write a) :
    ∃ u, writeWord a v s = .done () u ∧ accessOnly s u := by
  obtain ⟨hal, hab⟩ := h
  rcases writeWord_cases a v s with ⟨hno, -⟩ | ⟨-, src, hsrc, -⟩ | ⟨-, -, u, hwrite, hacc, -⟩
  · exact absurd (hal.symm.trans hno) (by simp)
  · exact absurd (hab.symm.trans hsrc) (by simp)
  · exact ⟨u, hwrite, hacc⟩

theorem readWords_completes {s : State} {as : List Word} (h : ∀ a ∈ as, s.wordCompletes .read a) :
    ∃ vs u, readWords false as s = .done vs u ∧ accessOnly s u := by
  induction as generalizing s with
  | nil => exact ⟨[], s, rfl, .refl s⟩
  | cons a rest ih =>
    obtain ⟨v, u, hu, hacc⟩ := readWord_completes (h a (by simp))
    obtain ⟨vs, w, hw, hacc'⟩ := ih (s := u) fun b hb => hacc.wordCompletes.mpr (h b (by simp [hb]))
    exact ⟨v :: vs, w, by simp only [readWords, hu, hw], hacc.trans hacc'⟩

theorem writeWords_completes {s : State} {l : List (Word × Word)} (h : ∀ p ∈ l, s.wordCompletes .write p.1) :
    ∃ u, writeWords l s = .done () u ∧ accessOnly s u := by
  induction l generalizing s with
  | nil => exact ⟨s, rfl, .refl s⟩
  | cons p rest ih =>
    obtain ⟨u, hu, hacc⟩ := writeWord_completes p.2 (h p (by simp))
    obtain ⟨w, hw, hacc'⟩ := ih (s := u) fun q hq => hacc.wordCompletes.mpr (h q (by simp [hq]))
    exact ⟨w, by simp only [writeWords, hu, hw], hacc.trans hacc'⟩

theorem multiLoad_completes {s : State} {low : Word} {n : Nat} (spoil : List Word → State → State)
    (finish : List Word → State → Host.Outcome State Fault Refusal) (hu : s.undisturbed n)
    (h : ∀ k < n, s.wordCompletes .read (wordAt low k)) :
    ∃ vs u, multiLoad false (wordAddresses low n) s spoil finish = finish vs u ∧ accessOnly s u := by
  unfold State.undisturbed at hu
  obtain ⟨vs, u, hread, hacc⟩ := readWords_completes (forall_wordAt h)
  rw [← wordAddresses_eq_wordAt] at hread
  exact ⟨vs, u, by simp only [multiLoad, wordAddresses_length, hu, hread], hacc⟩

theorem multiStore_completes {s : State} {low : Word} {vals : List Word} (finish : State → Host.Outcome State Fault Refusal)
    (hu : s.undisturbed vals.length) (h : ∀ k < vals.length, s.wordCompletes .write (wordAt low k)) :
    ∃ u, multiStore (wordsAt low vals) s finish = finish u ∧ accessOnly s u := by
  unfold State.undisturbed at hu
  obtain ⟨u, hwrite, hacc⟩ := writeWords_completes (forall_wordsAt (P := s.wordCompletes .write) h)
  exact ⟨u, by simp only [multiStore, wordsAt_length, hu, hwrite], hacc⟩

/-! ### LDM and STM -/

theorem multipleRefusal_mem {rn : RegNum} {list : BitVec 16} {r : Refusal} (h : multipleRefusal rn list = some r) :
    r = .registerList ∨ r = .baseIsPc := by
  unfold multipleRefusal at h
  split at h
  · exact .inl (Option.some.inj h).symm
  · split at h
    · exact .inr (Option.some.inj h).symm
    · cases h

theorem exec_ldm_illFormed {c : Cond} {am : AddrMode} {wb : Bool} {rn : RegNum} {list : BitVec 16} {s : State}
    (hc : condHolds c s.cpsr = true) (h : (Instr.ldm c am wb rn list).wellFormed = false) :
    ∃ e, e ∈ [Refusal.registerList, .baseIsPc, .baseInList] ∧ exec (.ldm c am wb rn list) s = .refused e := by
  cases hr : multipleRefusal rn list with
  | some r =>
    refine ⟨r, ?_, by simp only [exec, execLdm, conditional_of_holds hc, hr]⟩
    rcases multipleRefusal_mem hr with rfl | rfl <;> simp
  | none =>
    have hbase : (wb && list.getLsbD rn.val) = true := by
      by_contra hno
      exact absurd (ldm_wellFormed_iff (c := c) (am := am) |>.mpr ⟨hr, Bool.eq_false_iff.mpr hno⟩) (by rw [h]; simp)
    exact ⟨.baseInList, by simp, by simp only [exec, execLdm, conditional_of_holds hc, hr, hbase, if_true]⟩

theorem exec_stm_illFormed {c : Cond} {am : AddrMode} {wb : Bool} {rn : RegNum} {list : BitVec 16} {s : State}
    (hc : condHolds c s.cpsr = true) (h : (Instr.stm c am wb rn list).wellFormed = false) :
    ∃ e, e ∈ [Refusal.registerList, .baseIsPc, .baseInList] ∧ exec (.stm c am wb rn list) s = .refused e := by
  cases hr : multipleRefusal rn list with
  | some r =>
    refine ⟨r, ?_, by simp only [exec, execStm, conditional_of_holds hc, hr]⟩
    rcases multipleRefusal_mem hr with rfl | rfl <;> simp
  | none =>
    have hbase : (wb && list.getLsbD rn.val && !isLowest rn list) = true := by
      by_contra hno
      exact absurd (stm_wellFormed_iff (c := c) (am := am) |>.mpr ⟨hr, Bool.eq_false_iff.mpr hno⟩) (by rw [h]; simp)
    exact ⟨.baseInList, by simp, by simp only [exec, execStm, conditional_of_holds hc, hr, hbase, if_true]⟩

/-- LDM that completes has the next instruction past the top. -/
theorem exec_ldm_pastTop {c : Cond} {am : AddrMode} {wb : Bool} {rn : RegNum} {list : BitVec 16} {low : Word} {s : State}
    (hc : condHolds c s.cpsr = true) (hwf : (Instr.ldm c am wb rn list).wellFormed = true)
    (hu : s.undisturbed (listedRegs list).length) (hlow : low = lowestAddress am (s.reg rn) (listedRegs list).length)
    (h : ∀ k < (listedRegs list).length, s.wordCompletes .read (wordAt low k)) (ha : ¬s.canAdvance 4) :
    exec (.ldm c am wb rn list) s = .fault .pastTop := by
  obtain ⟨vs, u, hload, hacc⟩ := multiLoad_completes (fun vs s => spoilRegs rn ((listedRegs list).zip vs) s)
    (ldmFinish wb rn list (writtenBack am (s.reg rn) (listedRegs list).length)) hu h
  have hset : (setRegs ((listedRegs list).zip vs) u).pc = s.pc := by
    rw [setRegs_eq fun p => mem_zip_ne_pc, hacc.pc]
  rw [exec_ldm hc hwf hlow, hload, ldmFinish]
  split
  · exact advance_setReg_pastTop (base_ne_pc (ldm_wellFormed_iff.mp hwf).1) hset ha _
  · exact advance_pastTop_of_pc hset ha

/-- STM that completes has the next instruction past the top. -/
theorem exec_stm_pastTop {c : Cond} {am : AddrMode} {wb : Bool} {rn : RegNum} {list : BitVec 16} {low : Word} {s : State}
    (hc : condHolds c s.cpsr = true) (hwf : (Instr.stm c am wb rn list).wellFormed = true)
    (hu : s.undisturbed (listedRegs list).length) (hlow : low = lowestAddress am (s.reg rn) (listedRegs list).length)
    (h : ∀ k < (listedRegs list).length, s.wordCompletes .write (wordAt low k)) (ha : ¬s.canAdvance 4) :
    exec (.stm c am wb rn list) s = .fault .pastTop := by
  rw [← length_map_reg list s] at hu h
  obtain ⟨u, hstore, hacc⟩ := multiStore_completes (fun t =>
    advance 4 (if wb then t.setReg rn (writtenBack am (s.reg rn) (listedRegs list).length) else t)) hu h
  rw [exec_stm hc hwf hlow, hstore]
  split
  · exact advance_setReg_pastTop (base_ne_pc (stm_wellFormed_iff.mp hwf).1) hacc.pc ha _
  · exact advance_pastTop_of_pc hacc.pc ha

/-- SRS that completes has the next instruction past the top. -/
theorem exec_srs_pastTop {am : AddrMode} {wb : Bool} {m : Mode} {low : Word} {s : State} (hmu : m ≠ .user) (hms : m ≠ .system)
    (hmon : ¬(s.world = .nonSecure ∧ m = .monitor)) (hw : s.curSpsr ≠ none) (hu : s.undisturbed 2)
    (hlow : low = lowestAddress am (s.regs.sp.get m.bank) 2) (h0 : s.wordCompletes .write low)
    (h1 : s.wordCompletes .write (low + 4)) (ha : ¬s.canAdvance 4) :
    exec (.srs am wb m.toBits) s = .fault .pastTop := by
  obtain ⟨saved, hw⟩ := Option.ne_none_iff_exists'.mp hw
  obtain ⟨u, hstore, hacc⟩ := multiStore_completes (vals := [s.lr, saved]) (fun t =>
    advance 4 (t.writeBack wb (.sp m.bank) (writtenBack am (s.regs.sp.get m.bank) 2))) hu (forall_lt_two h0 h1)
  rw [exec_srs wb hmu hms hmon hw hlow, hstore]
  exact advance_pastTop_of_pc hacc.pc ha

/-! ### CPS -/

theorem exec_cps_pastTop {imod : BitVec 2} {mmod a i f : Bool} {mode : BitVec 5} {m : Mode} {s : State}
    (hok : cpsFieldsOk imod mmod a i f mode = true)
    (h : s.cpsr.mode = .user ∨ (mmod = true → m.toBits = mode ∧ ¬(s.world = .nonSecure ∧ m = .monitor)))
    (ha : ¬s.canAdvance 4) : exec (.cps imod mmod a i f mode) s = .fault .pastTop := by
  by_cases hu : s.cpsr.mode = .user
  · rw [execCps_user hok hu]
    exact advance_pastTop ha
  · have hm := h.resolve_left hu
    cases mmod with
    | false =>
      rw [execCps_privileged hok hu (by simp) (fun _ => rfl) nonSecure_mode]
      exact advance_pastTop_of_pc rfl ha
    | true =>
      obtain ⟨hbits, hmon⟩ := hm rfl
      rw [execCps_privileged hok hu (fun _ => hbits) (by simp) (not_and.mp hmon)]
      exact advance_pastTop_of_pc rfl ha

theorem exec_cpsThumb_pastTop {im a i f : Bool} {s : State} (h : a = true ∨ i = true ∨ f = true) (ha : ¬s.canAdvance 2) :
    exec (.cpsThumb im a i f) s = .fault .pastTop := by
  by_cases hu : s.cpsr.mode = .user
  · rw [execCpsThumb_user h hu]
    exact advance_pastTop ha
  · rw [execCpsThumb_privileged h hu]
    exact advance_pastTop_of_pc rfl ha

/-! ### MSR -/

theorem byteMask_mode (fields : BitVec 4) :
    (byteMask fields).extractLsb' 0 5 = if fields.getLsbD 0 then 0b11111 else 0 := by
  revert fields
  decide

/-- MSR to the CPSR writes the mode bits in a privileged mode, when it writes the lowest byte (R187). -/
theorem msrMask_mode (fields : BitVec 4) (s : State) :
    (msrMask fields s).extractLsb' 0 5 = if fields.getLsbD 0 = true ∧ s.cpsr.mode ≠ .user then 0b11111 else 0 := by
  have hpriv : (if s.cpsr.mode = .user then (0xF80F0200 : Word) else 0xF80F03DF).extractLsb' 0 5 =
      if s.cpsr.mode = .user then 0 else 0b11111 := by
    split <;> rfl
  have hA : (if s.world = .nonSecure ∧ s.scr.aw = false then ~~~(0x00000100 : Word) else 0xFFFFFFFF).extractLsb' 0 5 =
      0b11111 := by
    split <;> rfl
  have hF : (if s.world = .nonSecure ∧ s.scr.fw = false then ~~~(0x00000040 : Word) else 0xFFFFFFFF).extractLsb' 0 5 =
      0b11111 := by
    split <;> rfl
  rw [msrMask_eq, BitVec.extractLsb'_and, BitVec.extractLsb'_and, BitVec.extractLsb'_and, byteMask_mode, hpriv, hA, hF]
  cases fields.getLsbD 0 <;> by_cases hm : s.cpsr.mode = .user <;> simp [hm]

theorem and_mode_eq_zero {w : Word} : w &&& 0x1F = 0 ↔ w.extractLsb' 0 5 = 0 := by
  have hext : w &&& 0x1F = (w.extractLsb' 0 5).setWidth 32 := by
    apply BitVec.eq_of_getLsbD_eq
    intro k hk
    interval_cases k <;> simp
  rw [hext]
  constructor
  · intro h
    have := congrArg (BitVec.setWidth 5) h
    simpa using this
  · intro h
    rw [h]
    rfl

theorem merge_mode (mask old new : Word) :
    (merge mask old new).extractLsb' 0 5 =
      (old.extractLsb' 0 5 &&& ~~~mask.extractLsb' 0 5) ||| (new.extractLsb' 0 5 &&& mask.extractLsb' 0 5) := by
  apply BitVec.eq_of_getLsbD_eq
  intro k hk
  simp only [BitVec.getLsbD_extractLsb', merge, BitVec.getLsbD_or, BitVec.getLsbD_and, BitVec.getLsbD_not, hk]
  simp [show k < 32 by omega]

/-- The mode bits that MSR to the CPSR leaves. -/
theorem merge_msrMask_mode (fields : BitVec 4) (v : Word) (s : State) :
    (merge (msrMask fields s) s.cpsr.toWord v).extractLsb' 0 5 =
      if fields.getLsbD 0 = true ∧ s.cpsr.mode ≠ .user then v.extractLsb' 0 5 else s.cpsr.mode.toBits := by
  have hall : ∀ b : BitVec 5, b &&& 31#5 = b := fun _ => BitVec.and_allOnes
  rw [merge_mode, msrMask_mode, Psr.toWord_mode]
  split <;> simp [hall]

/-- MSR to the CPSR that writes no state bit in a privileged mode and leaves no mode (R187, U24). -/
theorem msrCpsr_notAMode {fields : BitVec 4} {v : Word} {s : State} (hp : s.cpsr.mode ≠ .user)
    (hst : v &&& byteMask fields &&& stateMask = 0) (hf : fields.getLsbD 0 = true)
    (hm : ∀ m : Mode, m.toBits ≠ v.extractLsb' 0 5) : msrCpsr fields v s = .refused .notAMode := by
  have hnone : Psr.ofWord? (merge (msrMask fields s) s.cpsr.toWord v) = none :=
    Psr.ofWord?_eq_none (by rwa [merge_msrMask_mode, if_pos ⟨hf, hp⟩])
  have hmon : v.extractLsb' 0 5 ≠ Mode.monitor.toBits := (hm .monitor).symm
  simp [msrCpsr, hst, hmon, hnone]

/-- MSR to the CPSR that would enter Secure Monitor mode from the Non-secure world (R187, R33 (e)). -/
theorem msrCpsr_monitor {fields : BitVec 4} {v : Word} {s : State} (hp : s.cpsr.mode ≠ .user)
    (hst : v &&& byteMask fields &&& stateMask = 0) (hf : fields.getLsbD 0 = true)
    (hm : v.extractLsb' 0 5 = Mode.monitor.toBits) (hw : s.world = .nonSecure) :
    msrCpsr fields v s = .refused .monitorFromNonSecure := by
  have hmask : msrMask fields s &&& 0x1F ≠ 0 := by
    rw [ne_eq, and_mode_eq_zero, msrMask_mode, if_pos ⟨hf, hp⟩]
    decide
  simp only [msrCpsr, hst, hm, hw, decide_eq_true hmask]
  simp

/-- MSR to the CPSR that leaves a mode it may leave has the next instruction past the top. -/
theorem msrCpsr_pastTop {fields : BitVec 4} {v : Word} {s : State} (ha : ¬s.canAdvance 4)
    (h : s.cpsr.mode = .user ∨ (v &&& byteMask fields &&& stateMask = 0 ∧ (fields.getLsbD 0 = true →
      ∃ m : Mode, m.toBits = v.extractLsb' 0 5 ∧ ¬(s.world = .nonSecure ∧ m = .monitor)))) :
    msrCpsr fields v s = .fault .pastTop := by
  have hst : s.cpsr.mode ≠ .user → v &&& byteMask fields &&& stateMask = 0 := fun hp => (h.resolve_left hp).1
  have hmode : fields.getLsbD 0 = true ∧ s.cpsr.mode ≠ .user →
      ∃ m : Mode, m.toBits = v.extractLsb' 0 5 ∧ ¬(s.world = .nonSecure ∧ m = .monitor) := fun ⟨hf, hp⟩ =>
    (h.resolve_left hp).2 hf
  have hleft : ∃ m : Mode, m.toBits = (merge (msrMask fields s) s.cpsr.toWord v).extractLsb' 0 5 := by
    rw [merge_msrMask_mode]
    split
    · next hpf =>
      obtain ⟨m, hm, -⟩ := hmode hpf
      exact ⟨m, hm⟩
    · exact ⟨_, rfl⟩
  obtain ⟨m, hm⟩ := hleft
  rw [msrCpsr_of_merge hst ?_ (Psr.toWord_withMode hm)]
  · exact advance_pastTop_of_pc rfl ha
  · rintro ⟨hw, hmask, hmon⟩
    rw [ne_eq, and_mode_eq_zero, msrMask_mode] at hmask
    have hpf : fields.getLsbD 0 = true ∧ s.cpsr.mode ≠ .user := by
      by_contra hno
      exact hmask (if_neg hno)
    obtain ⟨m', hm', hno⟩ := hmode hpf
    exact hno ⟨hw, Mode.toBits_injective (hm'.trans hmon)⟩

/-! ### Returns and RFE -/

theorem restoredPsr_jazelle {s : State} {p : Psr} (h : p.j = true) : restoredPsr s p.toWord = .error .jazelleState := by
  simp only [restoredPsr, Psr.ofWord?_toWord, h, if_true]

theorem restoredPsr_monitor {s : State} {p : Psr} (h : p.j = false) (hm : p.mode = .monitor) (hw : s.world = .nonSecure) :
    restoredPsr s p.toWord = .error .monitorFromNonSecure := by
  simp [restoredPsr, h, hm, hw]

/-- A return, or RFE on ordinary memory, of a word that may not become the CPSR is refused for the reason it may not. -/
theorem exec_return_error {i : Instr} {c : Cond} {am : AddrMode} {wb : Bool} {rn : RegNum} {w low : Word} {e : Refusal}
    {s : State} (hc : condHolds c s.cpsr = true)
    (h : (i ∈ [Instr.movsPcLr c, .subsPcLr4 c, .subsPcLr8 c] ∧ s.curSpsr = some w) ∨
      (i = .rfe am wb rn ∧ s.cpsr.mode ≠ .user ∧ rn ≠ 15 ∧ s.undisturbed 2 ∧ low = lowestAddress am (s.reg rn) 2 ∧
        s.plainWord .read low ∧ s.plainWord .read (low + 4) ∧ w = memWord s.mem s.cpsr.e (low + 4)))
    (he : restoredPsr s w = .error e) : exec i s = .refused e := by
  rcases h with ⟨hi, hw⟩ | ⟨rfl, hm, hrn, hu, hlow, h0, h1, rfl⟩
  · have hret : ∃ offset, isReturn i c offset := by
      simp only [List.mem_cons, List.not_mem_nil, or_false] at hi
      rcases hi with rfl | rfl | rfl
      exacts [⟨0, .inl ⟨rfl, rfl⟩⟩, ⟨4, .inr (.inl ⟨rfl, rfl⟩)⟩, ⟨8, .inr (.inr ⟨rfl, rfl⟩)⟩]
    obtain ⟨offset, hret⟩ := hret
    exact (exec_return hret hc).trans (exceptionReturn_error hw he)
  · exact (exec_rfe_plain wb hlow hm hrn hu h0 h1).trans (rfeFinish_error he)

/-- Settles O38, form by form. -/
theorem unpredictableFormsStop : Obligations.UnpredictableFormsStop := by
  intro c am up wb r rn list rot imm8 imm12 s hc
  obtain ⟨hmov, hadd, hsub, horr, hbic⟩ := exec_dataProcessing hc 15 rn rot imm8
  rw [writeResult_pc] at hmov hadd hsub horr hbic
  refine ⟨hmov, hadd, hsub, horr, hbic, exec_mrs_pc hc r, exec_str_pc hc,
    fun ha => ⟨fun rd hrd => dataProcessing_pastTop hc ha hrd,
      fun i c' hi hf => (exec_of_condFails hi hf).trans (advance_pastTop ha)⟩,
    exec_ldm_illFormed hc, exec_stm_illFormed hc, fun m hm hs => execSrs_userBank am wb (by simpa using hm) hs,
    fun b hb => execSrs_notAMode am wb s ?srsMode, fun hm => if_pos hm, fun hm => ?rfeBase, ?msr, ?pastTop, ?returns⟩
  case srsMode => exact Option.eq_none_iff_forall_ne_some.mpr fun m hm => hb m (Mode.toBits_of_ofBits? hm)
  case rfeBase => exact (if_neg hm).trans (if_pos rfl)
  case msr =>
    intro fields op bytes hop hbytes
    obtain rfl : operand rn s = op := hop.symm
    obtain rfl : byteMask fields = bytes := hbytes.symm
    rw [exec_msr_cpsr hc]
    exact ⟨fun hp => ⟨msrCpsr_stateBits hp, fun hst hf => ⟨msrCpsr_notAMode hp hst hf, msrCpsr_monitor hp hst hf⟩⟩,
      msrCpsr_pastTop⟩
  case pastTop =>
    rintro i len rd fields imod mmod a it f mode m low
      (⟨rfl, rfl, hrd, hr⟩ | ⟨rfl, rfl, hs⟩ | ⟨rfl, rfl, hrd, hw⟩ | ⟨rfl, rfl, hrd, hw⟩ | ⟨rfl, rfl, hwf, hu, hlow, hw⟩ |
        ⟨rfl, rfl, hwf, hu, hlow, hw⟩ | ⟨rfl, rfl, hmu, hms, hmon, hs, hu, hlow, h0, h1⟩ | ⟨rfl, rfl, hok, hm⟩ |
        ⟨rfl, ⟨im, rfl⟩, hl⟩) ha
    · cases r with
      | false => exact (exec_mrs_cpsr hc hrd).trans (advance_setReg_pastTop hrd rfl ha _)
      | true =>
        obtain ⟨w, hw⟩ := Option.ne_none_iff_exists'.mp (hr rfl)
        exact (exec_mrs_spsr hc hrd hw).trans (advance_setReg_pastTop hrd rfl ha _)
    · obtain ⟨w, hw⟩ := Option.ne_none_iff_exists'.mp hs
      exact (exec_msr_spsr hc fields rn hw).trans (advance_pastTop_of_pc rfl ha)
    · obtain ⟨v, u, hread, hacc⟩ := readWord_completes hw
      exact (exec_ldr_done hc hrd hread).trans (advance_setReg_pastTop hrd hacc.pc ha v)
    · obtain ⟨u, hwrite, hacc⟩ := writeWord_completes (s.reg rd) hw
      exact (exec_str_done hc hrd hwrite).trans (advance_pastTop_of_pc hacc.pc ha)
    · exact exec_ldm_pastTop hc hwf hu hlow hw ha
    · exact exec_stm_pastTop hc hwf hu hlow hw ha
    · exact exec_srs_pastTop hmu hms hmon hs hu hlow h0 h1 ha
    · exact exec_cps_pastTop hok hm ha
    · exact exec_cpsThumb_pastTop hl ha
  case returns =>
    intro i w low h
    refine ⟨fun hm => exec_return_error hc h (restoredPsr_notAMode hm), fun p hp => ⟨fun hj => ?_, fun hj hm hw => ?_⟩⟩
    · exact exec_return_error hc h (hp ▸ restoredPsr_jazelle hj)
    · exact exec_return_error hc h (hp ▸ restoredPsr_monitor hj hm hw)

end Sys2Proof.Machine
end
